-- ==== Sys2Proof/Word.lean ====
section
/-! DEFINITION. The two word types of the block: a wire byte and a command or register word
(00_scope.md R9, 30_encoding.md R88). -/

namespace Sys2Proof

/-- Every byte is an unsigned 8-bit value (00_scope.md R9). -/
abbrev Byte := BitVec 8

/-- A command word, a response's data and a register are 32 bits wide (30_encoding.md R94,
10_state.md R45). -/
abbrev Word := BitVec 32

end Sys2Proof
end

