-- ==== Sys2Proof/Config.lean ====
section
/-! DEFINITION. The build-time parameters of the block (00_scope.md R7) with their bounds
(70_reset_and_hazards.md R283), and the free values of buffer contents the spec leaves
unspecified (10_state.md R22, 93_implementation_defined.md I3, I7). -/

namespace Sys2Proof

/-- `MODE`: the unframer's payload delivery (00_scope.md R4, R7). -/
inductive Mode where
  | cached
  | onTheFly
  deriving DecidableEq, Repr

/-- `LF_POLICY`: the effect of an LF inside a dataset (41_extractor.md R142). -/
inductive LfPolicy where
  | reopen
  | desync
  | data
  deriving DecidableEq, Repr

/-- The parameters of 00_scope.md R7. `EVENT_CODEC` is not among them: the model uses the
abstract event records (DESIGN CHOICE of the spec, D42; log entry 16). -/
structure Config where
  mode      : Mode
  frameMax  : Nat
  dsMax     : Nat
  histDepth : Nat
  lfPolicy  : LfPolicy
  lenW      : Nat
  cntW      : Nat
  deriving DecidableEq, Repr

/-- The build the spec's vectors use (00_scope.md R7, D37). -/
def Config.default : Config where
  mode      := .onTheFly
  frameMax  := 2048
  dsMax     := 128
  histDepth := 128
  lfPolicy  := .reopen
  lenW      := 16
  cntW      := 16

/-- The bounds a valid build satisfies (70_reset_and_hazards.md R283). -/
def Config.valid (c : Config) : Bool :=
  decide (1 ≤ c.frameMax) && decide (c.frameMax ≤ min (2 ^ c.lenW - 1) (2 ^ 20)) &&
  decide (1 ≤ c.dsMax) && decide (c.dsMax ≤ min (2 ^ c.lenW - 1) (2 ^ 20)) &&
  decide (1 ≤ c.histDepth) && decide (c.histDepth ≤ 2 ^ 20) &&
  decide (8 ≤ c.lenW) && decide (c.lenW ≤ 32) &&
  decide (1 ≤ c.cntW) && decide (c.cntW ≤ 32)

/-- FREE VALUE (log entry 2): the byte that a never-written index of a byte space holds after
a reset. The arguments are the number of resets so far, the space id and the index. -/
opaque Config.freeByte : Nat → Nat → Nat → Byte

/-- FREE VALUE (log entry 2): the value that a never-written entry of `HIST` holds after a
reset, before it is cut to `LEN_W` bits. The arguments are the number of resets so far and
the index. -/
opaque Config.freeEntry : Nat → Nat → Nat

end Sys2Proof
end

