-- ==== Sys2Proof/Syntax.lean ====
section
/-! DEFINITION. The commands of the block: one constructor for each row of the opcode map
(30_encoding.md R90), with the operands of R89 as names. -/

namespace Sys2Proof

/-- The five buffer spaces (20_memory.md R60). -/
inductive Space where
  | fbuf
  | dbuf
  | hin
  | hist
  | cmp
  deriving DecidableEq, Repr

/-- The registers of the map, in the order of their numbers 0x00 to 0x19 (10_state.md R45). -/
inductive Reg where
  | status
  | config
  | cfgFrameMax
  | cfgDsMax
  | cfgHistDepth
  | unfFlen
  | unfHcnt
  | unfHwr
  | unfMaxsz
  | unfOvf
  | extLen
  | extOvf
  | hinLen
  | resStatus
  | resLabelOff
  | resLabelLen
  | resValueOff
  | resValueLen
  | resCk
  | resHoro0
  | resHoro1
  | resHoro2
  | refHoro0
  | refHoro1
  | refHoro2
  | cmpLen
  deriving DecidableEq, Repr

/-- The twenty commands (30_encoding.md R90). A byte operand is any byte (R95); an index
operand is a natural number that `Instr.wf` bounds by the 20 bits of format M (R89). -/
inductive Instr where
  | nop
  | unfPush (b : Byte)
  | unfSync
  | unfMaxsz
  | extPush (b : Byte)
  | extReset
  | extSync
  | decClear
  | decAppend (b : Byte)
  | decRun
  | decIsvalid
  | decU32
  | cmpClear
  | cmpAppend (b : Byte)
  | cmpLabel
  | horoSave
  | horoCmp
  | regRead (r : Reg)
  | bufRead (sp : Space) (idx : Nat)
  | blockReset
  deriving DecidableEq, Repr

end Sys2Proof
end

