-- ==== Sys2Proof/WellFormed.lean ====
section
/-! DEFINITION. Which commands have a command word: the operands that fit their fields
(30_encoding.md R88, R89). -/

namespace Sys2Proof

/-- A command whose operands fit its format's fields. Only format M's index can fail: it has
20 bits (30_encoding.md R89). The other operands are bytes and names, which always fit. -/
def Instr.wf : Instr → Bool
  | .bufRead _ idx => decide (idx < 2 ^ 20)
  | .nop | .unfPush _ | .unfSync | .unfMaxsz | .extPush _ | .extReset | .extSync
  | .decClear | .decAppend _ | .decRun | .decIsvalid | .decU32
  | .cmpClear | .cmpAppend _ | .cmpLabel | .horoSave | .horoCmp | .regRead _
  | .blockReset => true

end Sys2Proof
end

