-- ==== Sys2Proof/Decode.lean ====
section
/-! DEFINITION. The command-word encoding (30_encoding.md part 2): a total decoder that
rejects by name, and after it the encoder, both written from the tables of R88, R90, R92,
20_memory.md R60 and 10_state.md R45. -/

namespace Sys2Proof

/-- `v[hi:lo]` of a word, as an unsigned number (00_scope.md R9). -/
def field (w : Word) (hi lo : Nat) : Nat :=
  w.toNat / 2 ^ lo % 2 ^ (hi - lo + 1)

/-- Why a word is no command (30_encoding.md R96 (a) to (d)). -/
inductive DecodeError where
  /-- (a) the opcode is in 0x14..0xFF. -/
  | reservedOpcode
  /-- (b) a must-be-zero field of the format is nonzero. -/
  | mbzNonzero
  /-- (c) a register number in 0x1A..0xFF. -/
  | reservedRegister
  /-- (d) a space id in 5..15. -/
  | reservedSpace
  /-- A bus delivered fewer than the four bytes of a command word (log entry 13). -/
  | truncatedWord
  deriving DecidableEq, Repr

/-- The register with a given number (10_state.md R45). -/
def Reg.ofNumber? : Nat → Option Reg
  | 0x00 => some .status
  | 0x01 => some .config
  | 0x02 => some .cfgFrameMax
  | 0x03 => some .cfgDsMax
  | 0x04 => some .cfgHistDepth
  | 0x05 => some .unfFlen
  | 0x06 => some .unfHcnt
  | 0x07 => some .unfHwr
  | 0x08 => some .unfMaxsz
  | 0x09 => some .unfOvf
  | 0x0A => some .extLen
  | 0x0B => some .extOvf
  | 0x0C => some .hinLen
  | 0x0D => some .resStatus
  | 0x0E => some .resLabelOff
  | 0x0F => some .resLabelLen
  | 0x10 => some .resValueOff
  | 0x11 => some .resValueLen
  | 0x12 => some .resCk
  | 0x13 => some .resHoro0
  | 0x14 => some .resHoro1
  | 0x15 => some .resHoro2
  | 0x16 => some .refHoro0
  | 0x17 => some .refHoro1
  | 0x18 => some .refHoro2
  | 0x19 => some .cmpLen
  | _ => none

/-- The number of a register (10_state.md R45). -/
def Reg.number : Reg → Nat
  | .status => 0x00
  | .config => 0x01
  | .cfgFrameMax => 0x02
  | .cfgDsMax => 0x03
  | .cfgHistDepth => 0x04
  | .unfFlen => 0x05
  | .unfHcnt => 0x06
  | .unfHwr => 0x07
  | .unfMaxsz => 0x08
  | .unfOvf => 0x09
  | .extLen => 0x0A
  | .extOvf => 0x0B
  | .hinLen => 0x0C
  | .resStatus => 0x0D
  | .resLabelOff => 0x0E
  | .resLabelLen => 0x0F
  | .resValueOff => 0x10
  | .resValueLen => 0x11
  | .resCk => 0x12
  | .resHoro0 => 0x13
  | .resHoro1 => 0x14
  | .resHoro2 => 0x15
  | .refHoro0 => 0x16
  | .refHoro1 => 0x17
  | .refHoro2 => 0x18
  | .cmpLen => 0x19

/-- The space with a given id (20_memory.md R60). -/
def Space.ofId? : Nat → Option Space
  | 0 => some .fbuf
  | 1 => some .dbuf
  | 2 => some .hin
  | 3 => some .hist
  | 4 => some .cmp
  | _ => none

/-- The id of a space (20_memory.md R60). -/
def Space.id : Space → Nat
  | .fbuf => 0
  | .dbuf => 1
  | .hin => 2
  | .hist => 3
  | .cmp => 4

/-- The byte operand of format B, `cmd_word[7:0]` (30_encoding.md R89). -/
def byteOperand (w : Word) : Byte :=
  BitVec.ofNat 8 (field w 7 0)

/-- Format N: no operand, `[23:0]` must be zero (30_encoding.md R88). -/
def decodeN (w : Word) (i : Instr) : Except DecodeError Instr :=
  if field w 23 0 = 0 then .ok i else .error .mbzNonzero

/-- Format B: a byte in `[7:0]`, `[23:8]` must be zero (30_encoding.md R88). -/
def decodeB (w : Word) (make : Byte → Instr) : Except DecodeError Instr :=
  if field w 23 8 = 0 then .ok (make (byteOperand w)) else .error .mbzNonzero

/-- Format R: a register number in `[7:0]`, `[23:8]` must be zero (30_encoding.md R88,
R96 (c)). -/
def decodeR (w : Word) (make : Reg → Instr) : Except DecodeError Instr :=
  if field w 23 8 = 0 then
    match Reg.ofNumber? (field w 7 0) with
    | some r => .ok (make r)
    | none => .error .reservedRegister
  else .error .mbzNonzero

/-- Format M: a space id in `[23:20]` and an index in `[19:0]` (30_encoding.md R88,
R96 (d)). Whether the index lies below the capacity depends on the build and is checked by
BUF_READ itself (44_system.md R232; log entry 10). -/
def decodeM (w : Word) (make : Space → Nat → Instr) : Except DecodeError Instr :=
  match Space.ofId? (field w 23 20) with
  | some sp => .ok (make sp (field w 19 0))
  | none => .error .reservedSpace

/-- The decoder: the opcode in `[31:24]` selects the format and the command
(30_encoding.md R90, R93). Total, and no word has two meanings. -/
def decode (w : Word) : Except DecodeError Instr :=
  match field w 31 24 with
  | 0x00 => decodeN w .nop
  | 0x01 => decodeB w .unfPush
  | 0x02 => decodeN w .unfSync
  | 0x03 => decodeN w .unfMaxsz
  | 0x04 => decodeB w .extPush
  | 0x05 => decodeN w .extReset
  | 0x06 => decodeN w .extSync
  | 0x07 => decodeN w .decClear
  | 0x08 => decodeB w .decAppend
  | 0x09 => decodeN w .decRun
  | 0x0A => decodeN w .decIsvalid
  | 0x0B => decodeN w .decU32
  | 0x0C => decodeN w .cmpClear
  | 0x0D => decodeB w .cmpAppend
  | 0x0E => decodeN w .cmpLabel
  | 0x0F => decodeN w .horoSave
  | 0x10 => decodeN w .horoCmp
  | 0x11 => decodeR w .regRead
  | 0x12 => decodeM w .bufRead
  | 0x13 => decodeN w .blockReset
  | _ => .error .reservedOpcode

/-- The opcode of a command (30_encoding.md R90). -/
def Instr.opcode : Instr → Nat
  | .nop => 0x00
  | .unfPush _ => 0x01
  | .unfSync => 0x02
  | .unfMaxsz => 0x03
  | .extPush _ => 0x04
  | .extReset => 0x05
  | .extSync => 0x06
  | .decClear => 0x07
  | .decAppend _ => 0x08
  | .decRun => 0x09
  | .decIsvalid => 0x0A
  | .decU32 => 0x0B
  | .cmpClear => 0x0C
  | .cmpAppend _ => 0x0D
  | .cmpLabel => 0x0E
  | .horoSave => 0x0F
  | .horoCmp => 0x10
  | .regRead _ => 0x11
  | .bufRead _ _ => 0x12
  | .blockReset => 0x13

/-- The 24-bit operand field of a command (30_encoding.md R88, R99). -/
def Instr.operandField : Instr → Nat
  | .unfPush b | .extPush b | .decAppend b | .cmpAppend b => b.toNat
  | .regRead r => r.number
  | .bufRead sp idx => 2 ^ 20 * sp.id + idx
  | .nop | .unfSync | .unfMaxsz | .extReset | .extSync | .decClear | .decRun
  | .decIsvalid | .decU32 | .cmpClear | .cmpLabel | .horoSave | .horoCmp
  | .blockReset => 0

/-- The encoder: the command word is `{op[7:0], 24-bit operand field}` (30_encoding.md
R99). -/
def encode (i : Instr) : Word :=
  BitVec.ofNat 32 (2 ^ 24 * i.opcode + i.operandField)

/-- The command word a bus delivers byte by byte, bits [7:0] first (20_memory.md R63 (d),
D25). -/
def wordOfBus (b0 b1 b2 b3 : Byte) : Word :=
  BitVec.ofNat 32 (b0.toNat + 2 ^ 8 * b1.toNat + 2 ^ 16 * b2.toNat + 2 ^ 24 * b3.toNat)

/-- The four bytes of a word in the order a splitting bus delivers them (20_memory.md
R63 (d)). -/
def busOfWord (w : Word) : List Byte :=
  [BitVec.ofNat 8 (field w 7 0), BitVec.ofNat 8 (field w 15 8),
   BitVec.ofNat 8 (field w 23 16), BitVec.ofNat 8 (field w 31 24)]

/-- The decoder over a splitting bus: one command and the bytes after it. -/
def decodeBus : List Byte → Except DecodeError (Instr × List Byte)
  | b0 :: b1 :: b2 :: b3 :: rest =>
    (decode (wordOfBus b0 b1 b2 b3)).map fun i => (i, rest)
  | _ => .error .truncatedWord

/-- The command word that the opcode table's number `w` of `nbits` bits stands for: the
table has one 32-bit word a row, bit 0 least significant, and the bits above `nbits` are 0
(log entry 15). -/
def wordOfTable (nbits w : Nat) : Word :=
  BitVec.ofNat 32 (w % 2 ^ nbits)

/-- What the decoder reads from a row of the opcode table; no command is longer than 32
bits (30_encoding.md R94). -/
def decodeTableWord (nbits w : Nat) : Option Instr :=
  if nbits ≤ 32 then
    match decode (wordOfTable nbits w) with
    | .ok i => some i
    | .error _ => none
  else none

end Sys2Proof
end

