-- ==== Sys2Proof/Machine/State.lean ====
section
/-! DEFINITION. The state of one block instance, as plain data: every element of
10_state.md R22, the two output ports of 30_encoding.md R87, and the model's own fields
(build, reset counter, host script). -/

namespace Sys2Proof.Machine

/-- Elements of a buffer space that have been written since reset, by index. An index that
is not listed holds its unspecified reset contents (20_memory.md R72), which is NO value of
the list: reading it gives a free value (`memByte`, `histEntry`; log entry 2). -/
abbrev Cells (α : Type) := List (Nat × α)

/-- A byte space. -/
abbrev Memory := List Host.Cell

/-- The canonical form of a space: addresses strictly rising. An unlisted address holds no
value at this level, so no entry can equal what an unlisted address reads as. -/
def cellsWf {α : Type} (m : Cells α) : Bool :=
  decide ((m.map Prod.fst).Pairwise (· < ·))

/-- The canonical form of a byte space. -/
def Memory.wf (m : Memory) : Bool := cellsWf m

/-- A dataset's checksum status (30_encoding.md R92). -/
inductive Status where
  | malformed
  | wrongCrc
  | validHist
  | validStd
  deriving DecidableEq, Repr

/-- The buffer a result's spans lie in (10_state.md R35). -/
inductive Src where
  | dbuf
  | hin
  deriving DecidableEq, Repr

/-- A horodate's season (30_encoding.md R92). -/
inductive Season where
  | unknown
  | winter
  | summer
  | malformed
  deriving DecidableEq, Repr

/-- A horodate value (10_state.md R36). -/
structure Horo where
  season   : Season
  degraded : Bool
  year     : BitVec 16
  month    : Byte
  day      : Byte
  hour     : Byte
  minute   : Byte
  second   : Byte
  valid    : Bool
  deriving DecidableEq, Repr

/-- `H_INVALID` (10_state.md R37). -/
def Horo.invalid : Horo where
  season   := .malformed
  degraded := false
  year     := 2000
  month    := 0
  day      := 0
  hour     := 0
  minute   := 0
  second   := 0
  valid    := false

/-- The unframer's state with the frame buffer and the size history it owns (10_state.md
R23 to R28). Counts are natural numbers below `2^LEN_W` or `2^CNT_W` (log entry 9). -/
structure Unf where
  sync  : Bool
  flen  : Nat
  fdrop : Bool
  ovf   : Nat
  hwr   : Nat
  hcnt  : Nat
  fbuf  : Memory
  hist  : Cells Nat
  deriving DecidableEq, Repr

/-- The extractor's state with the dataset buffer (10_state.md R29 to R33). -/
structure Ext where
  sync : Bool
  len  : Nat
  drop : Bool
  ovf  : Nat
  dbuf : Memory
  deriving DecidableEq, Repr

/-- The host decode buffer (10_state.md R34). -/
structure Hin where
  len  : Nat
  drop : Bool
  buf  : Memory
  deriving DecidableEq, Repr

/-- The latched decode result (10_state.md R35). -/
structure Res where
  status      : Status
  src         : Src
  labelOff    : Nat
  labelLen    : Nat
  valueOff    : Nat
  valueLen    : Nat
  ckSeen      : Bool
  ckRx        : Byte
  ckCalc      : Byte
  horoPresent : Bool
  horo        : Horo
  deriving DecidableEq, Repr

/-- The label-compare buffer (10_state.md R39). -/
structure Cmp where
  len      : Nat
  overflow : Bool
  buf      : Memory
  deriving DecidableEq, Repr

/-- Why a frame closed (30_encoding.md R92). -/
inductive Cause where
  | endMarker
  | restart
  deriving DecidableEq, Repr

/-- The events a step emits (00_scope.md R14). -/
inductive Event where
  | frameBytes (bytes : List Byte)
  | frameComplete (cause : Cause) (dropped : Bool)
  | dataset (bytes : List Byte) (dropped : Bool)
  | record (src : Src) (status : Status) (label value : List Byte) (horoPresent : Bool)
      (horo : Horo)
  deriving DecidableEq, Repr

/-- The response of one command (30_encoding.md R87, 10_state.md R44). -/
structure Response where
  illegal : Bool
  data    : Word
  deriving DecidableEq, Repr

/-- What the host, the block's environment, does next (30_encoding.md R87,
70_reset_and_hazards.md R280, R285; log entry 4). -/
inductive HostAction where
  /-- Offer a command word on the command port until it is accepted. -/
  | issue (w : Word)
  /-- Take the oldest event from the event port. -/
  | takeEvent
  /-- Assert the reset input. -/
  | resetInput
  deriving DecidableEq, Repr

/-- The block and its ports. `unf`, `ext`, `hin`, `res`, `ref`, `cmp` are the spec's state
(10_state.md R22). `resp` and `evPort` are the response and event ports (R87, R44).
`cfg` is the build (R7), never written. `epoch` counts resets and only feeds the free values
(log entry 2). `host` is the environment's script (log entry 4). -/
structure State where
  cfg    : Config
  unf    : Unf
  ext    : Ext
  hin    : Hin
  res    : Res
  ref    : Horo
  cmp    : Cmp
  resp   : Option Response
  evPort : List Event
  epoch  : Nat
  host   : List HostAction
  deriving DecidableEq, Repr

/-- The block raises no exception and no command can fault (60_exceptions.md R250; "No
behaviour of the block is treated as fault or stuck", 93_implementation_defined.md): there
is no fault. -/
inductive Fault where
  deriving DecidableEq, Repr

/-- The refusals of the model. A refused COMMAND WORD is none of them: it answers
`{illegal = 1, data = 0}` in a next state (30_encoding.md R96). -/
inductive Refusal where
  /-- An arm of `exec` without a meaning; no arm uses it. Safe. -/
  | notModelled (mnemonic : String)
  /-- Raised by `step` in a state whose build lies outside the bounds of
  70_reset_and_hazards.md R283: "the model does not construct the instance"
  (93_implementation_defined.md I9; log entry 8). Safe. -/
  | invalidBuild
  deriving DecidableEq, Repr

/-- The result of a meaning. -/
abbrev Result := Host.Outcome State Fault Refusal

/-- The unframer after reset (70_reset_and_hazards.md R280). -/
def Unf.reset : Unf where
  sync  := false
  flen  := 0
  fdrop := false
  ovf   := 0
  hwr   := 0
  hcnt  := 0
  fbuf  := []
  hist  := []

/-- The extractor after reset (70_reset_and_hazards.md R280). -/
def Ext.reset : Ext where
  sync := false
  len  := 0
  drop := false
  ovf  := 0
  dbuf := []

/-- The host buffer after reset (70_reset_and_hazards.md R280). -/
def Hin.reset : Hin where
  len  := 0
  drop := false
  buf  := []

/-- The result register after reset: `FailResult(DBUF)` (70_reset_and_hazards.md R280,
10_state.md R35). -/
def Res.reset : Res where
  status      := .malformed
  src         := .dbuf
  labelOff    := 0
  labelLen    := 0
  valueOff    := 0
  valueLen    := 0
  ckSeen      := false
  ckRx        := 0
  ckCalc      := 0
  horoPresent := false
  horo        := Horo.invalid

/-- The compare buffer after reset (70_reset_and_hazards.md R280). -/
def Cmp.reset : Cmp where
  len      := 0
  overflow := false
  buf      := []

/-- A block of build `c` right after reset, its ports empty (70_reset_and_hazards.md R280;
the ports, `epoch` and `host` are DESIGN CHOICES, log entries 2, 4, 5, 6). -/
def State.resetWith (c : Config) : State where
  cfg    := c
  unf    := Unf.reset
  ext    := Ext.reset
  hin    := Hin.reset
  res    := Res.reset
  ref    := Horo.invalid
  cmp    := Cmp.reset
  resp   := none
  evPort := []
  epoch  := 0
  host   := []

/-- The machine right after reset, in the default build of 00_scope.md R7 (log entry 1). -/
def State.reset : State := State.resetWith Config.default

end Sys2Proof.Machine
end

