-- ==== Sys2Proof/Machine/Wire.lean ====
section
/-! DEFINITION. The wire constants the source fixes (00_scope.md R8, 30_encoding.md R80 to
R86). The codes of characters are ASCII (PRESUMED, 00_scope.md R15; log entry 21). -/

namespace Sys2Proof.Machine

/-- Start-of-frame marker (30_encoding.md R80). -/
def Wire.stx : Byte := 0x02

/-- End-of-frame marker (30_encoding.md R80). -/
def Wire.etx : Byte := 0x03

/-- Start-of-dataset marker, and the secondary end marker inside a dataset (30_encoding.md
R81). -/
def Wire.lf : Byte := 0x0A

/-- End-of-dataset marker (30_encoding.md R81). -/
def Wire.cr : Byte := 0x0D

/-- Field delimiter of historical TIC (30_encoding.md R82). -/
def Wire.space : Byte := 0x20

/-- Field delimiter of standard TIC (30_encoding.md R82). -/
def Wire.tab : Byte := 0x09

/-- The minimum decodable span (30_encoding.md R86). -/
abbrev Wire.minSpan : Nat := 5

/-- `LABEL_MAX` (30_encoding.md R86). -/
abbrev Wire.labelMax : Nat := 8

/-- The length of a horodate (30_encoding.md R85). -/
abbrev Wire.horoLen : Nat := 13

/-- The horodate year offset (30_encoding.md R86). -/
abbrev Wire.yearOffset : Nat := 2000

/-- The `dataToUint32` error value (30_encoding.md R86). -/
abbrev Wire.u32Error : Word := 0xFFFFFFFF

/-- The capacity of the compare buffer `CMP` (10_state.md R39). -/
abbrev Wire.cmpMax : Nat := 8

/-- An ASCII digit, 0x30..0x39 (42_decoder.md R190, 43_horodate.md R212). -/
def isDigit (c : Byte) : Bool :=
  decide (0x30 ≤ c.toNat) && decide (c.toNat ≤ 0x39)

/-- The value of a digit. -/
def digitValue (c : Byte) : Nat := c.toNat - 0x30

end Sys2Proof.Machine
end

