-- ==== Sys2Proof/Machine/Operands.lean ====
section
/-! DEFINITION. The operand and result forms of the commands: response data (30_encoding.md
R91), value codes (R92), and which `BUF_READ` operands are legal in a build (R96 (d)). -/

namespace Sys2Proof.Machine

/-- `zext_32` of an unsigned number (00_scope.md R9). -/
def zext32 (n : Nat) : Word := BitVec.ofNat 32 n

/-- A boolean or `consumed` answer: `data[0]` (30_encoding.md R91). -/
def boolData (b : Bool) : Word := if b then 1 else 0

/-- STATUS codes (30_encoding.md R92). -/
def Status.code : Status → Nat
  | .malformed => 0
  | .wrongCrc => 1
  | .validHist => 2
  | .validStd => 3

/-- SEASON codes (30_encoding.md R92). -/
def Season.code : Season → Nat
  | .unknown => 0
  | .winter => 1
  | .summer => 2
  | .malformed => 3

/-- `RES.src` codes (30_encoding.md R92). -/
def Src.code : Src → Nat
  | .dbuf => 0
  | .hin => 1

/-- Frame close cause codes (30_encoding.md R92). -/
def Cause.code : Cause → Nat
  | .endMarker => 0
  | .restart => 1

/-- `MODE` codes (30_encoding.md R92). -/
def modeCode : Mode → Nat
  | .cached => 0
  | .onTheFly => 1

/-- `LF_POLICY` codes (30_encoding.md R92). -/
def lfPolicyCode : LfPolicy → Nat
  | .reopen => 0
  | .desync => 1
  | .data => 2

/-- `HORO_CMP` answers 0 EQUAL, 1 LESS, 2 GREATER (30_encoding.md R91). -/
def orderingCode : Ordering → Nat
  | .eq => 0
  | .lt => 1
  | .gt => 2

/-- The capacity of a space in a build (20_memory.md R60, 44_system.md R232). -/
def capacity (c : Config) : Space → Nat
  | .fbuf => c.frameMax
  | .dbuf => c.dsMax
  | .hin => c.dsMax
  | .hist => c.histDepth
  | .cmp => Wire.cmpMax

/-- `FBUF` exists only in a `CACHED` build (10_state.md R27); the other spaces always do. -/
def spaceExists (c : Config) (sp : Space) : Bool :=
  !(sp == .fbuf && c.mode == .onTheFly)

/-- The operands `BUF_READ` does not refuse (44_system.md R232, 30_encoding.md R96 (d)). -/
def bufLegal (c : Config) (sp : Space) (idx : Nat) : Bool :=
  spaceExists c sp && decide (idx < capacity c sp)

/-- The space a result's spans lie in (42_decoder.md R194). -/
def Src.space : Src → Space
  | .dbuf => .dbuf
  | .hin => .hin

end Sys2Proof.Machine
end

