-- ==== Sys2Proof/Machine/Flags.lean ====
section
/-! DEFINITION. Flag, counter and checksum computations: the saturating increment
(00_scope.md R9), the dataset checksum (30_encoding.md R83) and the packing of register
fields (10_state.md R45). The block has no arithmetic condition codes (R40). -/

namespace Sys2Proof.Machine

/-- `sat_inc_N(c)`: `c + 1` if `c < 2^N - 1`, else `c` (00_scope.md R9). -/
def satInc (n c : Nat) : Nat :=
  if c < 2 ^ n - 1 then c + 1 else c

/-- The exact sum of a byte string. -/
def byteSum (bs : List Byte) : Nat :=
  (bs.map BitVec.toNat).sum

/-- The checksum byte of the covered bytes: `((S mod 256) & 0x3F) + 0x20` (30_encoding.md
R83). -/
def checksum (bs : List Byte) : Byte :=
  BitVec.ofNat 8 ((byteSum bs % 256 &&& 0x3F) + 0x20)

/-- A value in the slot `[hi:lo]` of a register; a narrower value is zero-extended
(10_state.md R45). -/
def slot (hi lo v : Nat) : Nat :=
  2 ^ lo * (v % 2 ^ (hi - lo + 1))

/-- A flag in bit `i` of a register. -/
def flagSlot (i : Nat) (b : Bool) : Nat :=
  if b then 2 ^ i else 0

/-- The STATUS register: the six status flags of 10_state.md R40 (R45, number 0x00). -/
def statusFlags (s : State) : Nat :=
  flagSlot 0 s.unf.sync + flagSlot 1 s.ext.sync + flagSlot 2 s.unf.fdrop +
  flagSlot 3 s.ext.drop + flagSlot 4 s.hin.drop + flagSlot 5 s.cmp.overflow

end Sys2Proof.Machine
end

