-- ==== Sys2Proof/Machine/Ops.lean ====
section
/-! DEFINITION. The named operations over buffers, ports and reset that the meanings share.
Taking an exception is none of them: the block takes no trap (60_exceptions.md R250,
R256). -/

namespace Sys2Proof.Machine

/-- The element written last at an index since reset, if any (20_memory.md R72). -/
def cellGet? {α : Type} : Cells α → Nat → Option α
  | [], _ => none
  | (j, u) :: rest, i => if i = j then some u else cellGet? rest i

/-- Write one element, keeping the addresses strictly rising (20_memory.md R62). -/
def cellSet {α : Type} : Cells α → Nat → α → Cells α
  | [], i, v => [(i, v)]
  | (j, u) :: rest, i, v =>
    if i < j then (i, v) :: (j, u) :: rest
    else if i = j then (i, v) :: rest
    else (j, u) :: cellSet rest i v

/-- What a byte of a space reads as: the byte written last, or the free value of its
unspecified reset contents (20_memory.md R72, 93_implementation_defined.md I3; log
entry 2). -/
def memByte (m : Memory) (epoch : Nat) (sp : Space) (i : Nat) : Byte :=
  (cellGet? m i).getD (Config.freeByte epoch sp.id i)

/-- `HIST[i]`: the entry written last, or a free value of `LEN_W` bits (20_memory.md R72,
93_implementation_defined.md I7; log entry 2). -/
def histEntry (s : State) (i : Nat) : Nat :=
  (cellGet? s.unf.hist i).getD (Config.freeEntry s.epoch i % 2 ^ s.cfg.lenW)

/-- `MemRead(S, i, 1)` of the buffer a result's spans lie in (00_scope.md R10). -/
def srcByte (s : State) : Src → Nat → Byte
  | .dbuf, i => memByte s.ext.dbuf s.epoch .dbuf i
  | .hin, i => memByte s.hin.buf s.epoch .hin i

/-- `S[off .. off + len)` (00_scope.md R9). -/
def srcSpan (s : State) (src : Src) (off len : Nat) : List Byte :=
  (List.range' off len).map (srcByte s src)

/-- `FBUF[0 .. n)`. -/
def fbufSpan (s : State) (n : Nat) : List Byte :=
  (List.range n).map (memByte s.unf.fbuf s.epoch .fbuf)

/-- `CMP[0 .. CMP.len)`, the label candidate (10_state.md R39). -/
def cmpSpan (s : State) : List Byte :=
  (List.range s.cmp.len).map (memByte s.cmp.buf s.epoch .cmp)

/-- One element of a space, zero-extended: what `BUF_READ` reads (44_system.md R232). -/
def elemAt (s : State) : Space → Nat → Word
  | .fbuf, i => zext32 (memByte s.unf.fbuf s.epoch .fbuf i).toNat
  | .dbuf, i => zext32 (memByte s.ext.dbuf s.epoch .dbuf i).toNat
  | .hin, i => zext32 (memByte s.hin.buf s.epoch .hin i).toNat
  | .hist, i => zext32 (histEntry s i)
  | .cmp, i => zext32 (memByte s.cmp.buf s.epoch .cmp i).toNat

/-- `emit E`: append an event to the ordered event output (00_scope.md R10, R14). -/
def emit (e : Event) (s : State) : State :=
  { s with evPort := s.evPort ++ [e] }

/-- `respond(data)` (00_scope.md R10). -/
def respond (data : Word) (s : State) : Result :=
  .next { s with resp := some { illegal := false, data := data } }

/-- `refuse()`: the response `{illegal = 1, data = 0}` and nothing else (30_encoding.md R96,
60_exceptions.md R252). -/
def refuse (s : State) : Result :=
  .next { s with resp := some { illegal := true, data := 0 } }

/-- `HistPush(v)` (40_unframer.md R116). -/
def histPush (v : Nat) (s : State) : State :=
  { s with
    unf.hist := cellSet s.unf.hist s.unf.hwr v
    unf.hwr := (s.unf.hwr + 1) % s.cfg.histDepth
    unf.hcnt := min (s.unf.hcnt + 1) s.cfg.histDepth }

/-- `MaxRecent()`: 0 with no entry, else the maximum of the written entries (40_unframer.md
R118). -/
def maxRecent (s : State) : Nat :=
  ((List.range s.unf.hcnt).map (histEntry s)).foldl max 0

/-- `ApplyReset()` (70_reset_and_hazards.md R280). The build does not change (R281). Buffer
contents are unspecified afterwards (44_system.md R233): no element is listed, and the
advanced `epoch` makes their free values new ones (log entry 3). -/
def applyReset (s : State) : State :=
  { s with
    unf := Unf.reset
    ext := Ext.reset
    hin := Hin.reset
    res := Res.reset
    ref := Horo.invalid
    cmp := Cmp.reset
    epoch := s.epoch + 1 }

/-- The reset input: `ApplyReset()`, with no response and no event (70_reset_and_hazards.md
R280). Events already on the port stay (DESIGN CHOICE, log entry 7). -/
def resetInput (s : State) : State :=
  { applyReset s with resp := none }

/-- `cmd_ready`: no event of an earlier command is still to be taken (30_encoding.md R87,
70_reset_and_hazards.md R285). -/
def cmdReady (s : State) : Bool := s.evPort.isEmpty

/-- The host takes the oldest event; on an empty port nothing happens (log entry 5). -/
def takeEvent (s : State) : State :=
  { s with evPort := s.evPort.tail }

end Sys2Proof.Machine
end

