-- ==== Sys2Proof/Machine/Horodate.lean ====
section
/-! DEFINITION. The horodate parser (43_horodate.md): `ParseHorodate`, `HoroCompare` and the
commands `HORO_SAVE` and `HORO_CMP`. -/

namespace Sys2Proof.Machine

/-- `d[i]`. Every use lies inside its span (42_decoder.md R174), so the default is never
read (log entry 22). -/
def byteAt (d : List Byte) (i : Nat) : Byte := d.getD i 0

/-- `Season(c)`: season, degraded, ok (43_horodate.md R211). -/
def seasonOf (c : Byte) : Season × Bool × Bool :=
  if c = 0x48 then (.winter, false, true)
  else if c = 0x68 then (.winter, true, true)
  else if c = 0x45 then (.summer, false, true)
  else if c = 0x65 then (.summer, true, true)
  else if c = 0x20 then (.unknown, false, true)
  else (.malformed, false, false)

/-- `Field2(a, b)`: a two-digit field, most significant digit first (43_horodate.md R212). -/
def field2 (a b : Byte) : Nat × Bool :=
  if isDigit a && isDigit b then (digitValue a * 10 + digitValue b, true) else (0, false)

/-- `InRange` (43_horodate.md R213): no check of the day against the month, hour 24 with any
minute and second. -/
def inRange (month day hour minute second : Nat) : Bool :=
  decide (1 ≤ month) && decide (month ≤ 12) && decide (1 ≤ day) && decide (day ≤ 31) &&
  decide (hour ≤ 24) && decide (minute ≤ 59) && decide (second ≤ 59)

/-- The two-digit field at bytes `i` and `i + 1` of a horodate. -/
def fieldAt (h : List Byte) (i : Nat) : Nat × Bool :=
  field2 (byteAt h i) (byteAt h (i + 1))

/-- Every check of a 13-byte horodate (43_horodate.md R210, R213). -/
def horoChecks (h : List Byte) : Bool :=
  (seasonOf (byteAt h 0)).2.2 &&
  (fieldAt h 1).2 && (fieldAt h 3).2 && (fieldAt h 5).2 &&
  (fieldAt h 7).2 && (fieldAt h 9).2 && (fieldAt h 11).2 &&
  inRange (fieldAt h 3).1 (fieldAt h 5).1 (fieldAt h 7).1 (fieldAt h 9).1 (fieldAt h 11).1

/-- `ParseHorodate(h)` (43_horodate.md R210). Every field is decoded and stored even when a
check fails (R214). -/
def parseHorodate (h : List Byte) : Horo :=
  if h.length = Wire.horoLen then
    { season   := (seasonOf (byteAt h 0)).1
      degraded := (seasonOf (byteAt h 0)).2.1
      year     := BitVec.ofNat 16 (Wire.yearOffset + (fieldAt h 1).1)
      month    := BitVec.ofNat 8 (fieldAt h 3).1
      day      := BitVec.ofNat 8 (fieldAt h 5).1
      hour     := BitVec.ofNat 8 (fieldAt h 7).1
      minute   := BitVec.ofNat 8 (fieldAt h 9).1
      second   := BitVec.ofNat 8 (fieldAt h 11).1
      valid    := horoChecks h }
  else Horo.invalid

/-- The six compared fields, first to last (43_horodate.md R216). -/
def horoKey (h : Horo) : List Nat :=
  [h.year.toNat, h.month.toNat, h.day.toNat, h.hour.toNat, h.minute.toNat, h.second.toNat]

/-- Lexicographic comparison of unsigned tuples of one length (43_horodate.md R216). -/
def lexCompare : List Nat → List Nat → Ordering
  | a :: as, b :: bs => if a < b then .lt else if b < a then .gt else lexCompare as bs
  | _, _ => .eq

/-- `HoroCompare(a, b)`: season, degraded flag and validity are not compared
(43_horodate.md R216). -/
def horoCompare (a b : Horo) : Ordering :=
  lexCompare (horoKey a) (horoKey b)

/-- `HORO_SAVE` (43_horodate.md R218). -/
def execHoroSave (s : State) : Result :=
  respond 0 { s with ref := s.res.horo }

/-- `HORO_CMP` (43_horodate.md R219). -/
def execHoroCmp (s : State) : Result :=
  respond (zext32 (orderingCode (horoCompare s.res.horo s.ref))) s

end Sys2Proof.Machine
end

