-- ==== Sys2Proof/Machine/Dataset.lean ====
section
/-! DEFINITION. `Decode(S, n)` (42_decoder.md R170): the pure function from a span's bytes to
a result, step by step, and the latch that stores it. -/

namespace Sys2Proof.Machine

/-- `d[off .. off + len)`. -/
def slice (d : List Byte) (off len : Nat) : List Byte := (d.drop off).take len

/-- `FailResult(S)`: MALFORMED, empty spans, no horodate (42_decoder.md R181). -/
def failResult (src : Src) : Res where
  status      := .malformed
  src         := src
  labelOff    := 0
  labelLen    := 0
  valueOff    := 0
  valueLen    := 0
  ckSeen      := false
  ckRx        := 0
  ckCalc      := 0
  horoPresent := false
  horo        := Horo.invalid

/-- Step 2a: skip at most one leading LF (42_decoder.md R172). -/
def spanStart (d : List Byte) : Nat :=
  if byteAt d 0 = Wire.lf then 1 else 0

/-- Step 2b: drop at most one trailing CR (42_decoder.md R173). -/
def spanEnd (d : List Byte) : Nat :=
  if byteAt d (d.length - 1) = Wire.cr then d.length - 1 else d.length

/-- The two wire variants (00_scope.md R3). -/
inductive Variant where
  | hist
  | std
  deriving DecidableEq, Repr

/-- Step 4: the variant, from the byte before the checksum (42_decoder.md R176). -/
def variantOf (b : Byte) : Option Variant :=
  if b = Wire.tab then some .std
  else if b = Wire.space then some .hist
  else none

/-- The variant's delimiter (42_decoder.md R176). -/
def Variant.delim : Variant → Byte
  | .std => Wire.tab
  | .hist => Wire.space

/-- The status of a valid dataset of the variant (42_decoder.md R180). -/
def Variant.status : Variant → Status
  | .std => .validStd
  | .hist => .validHist

/-- The end of the checksum's cover: STD includes the final delimiter `d[e-1]`, HIST excludes
it (42_decoder.md R177). -/
def sumEnd (v : Variant) (e : Nat) : Nat :=
  match v with
  | .std => e
  | .hist => e - 1

/-- The least index `i` with `lo ≤ i < hi` and `d[i] = delim` (42_decoder.md R178, R179). -/
def findDelim (d : List Byte) (delim : Byte) (lo hi : Nat) : Option Nat :=
  (List.range' lo (hi - lo)).find? fun i => byteAt d i == delim

/-- Steps 7 and 8: horodate and value after a label of `labelLen` bytes at `st`, whose
delimiter is at `k` (42_decoder.md R179, R180). -/
def splitValue (v : Variant) (d : List Byte) (st k bodyEnd : Nat) (r : Res) : Res :=
  match findDelim d v.delim (k + 1) bodyEnd with
  | some j =>
    { r with
      status := v.status
      labelOff := st
      labelLen := k - st
      valueOff := j + 1
      valueLen := bodyEnd - (j + 1)
      horoPresent := true
      horo := parseHorodate (slice d (k + 1) (j - (k + 1))) }
  | none =>
    { r with
      status := v.status
      labelOff := st
      labelLen := k - st
      valueOff := k + 1
      valueLen := bodyEnd - (k + 1)
      horoPresent := false
      horo := Horo.invalid }

/-- Step 6: the label, 1 to 8 bytes before the first delimiter of the body (42_decoder.md
R178); without one the result stays MALFORMED. -/
def splitLabel (v : Variant) (d : List Byte) (st bodyEnd : Nat) (r : Res) : Res :=
  match findDelim d v.delim st bodyEnd with
  | none => r
  | some k =>
    if k - st = 0 ∨ Wire.labelMax < k - st then r
    else splitValue v d st k bodyEnd r

/-- Step 5: the checksum; WRONG_CRC with empty spans on a mismatch (42_decoder.md R177). -/
def checkSum (v : Variant) (d : List Byte) (st e : Nat) (ck : Byte) (r : Res) : Res :=
  let computed := checksum (slice d st (sumEnd v e - st))
  let seen := { r with ckSeen := true, ckRx := ck, ckCalc := computed }
  if computed = ck then splitLabel v d st (e - 1) seen
  else { seen with status := .wrongCrc }

/-- `Decode` as a function of the span alone (42_decoder.md R170, R183): the length test
(R171), the strips (R172, R173), the checksum byte (R175) and the variant (R176), then the
checksum and the split. -/
def decodeDataset (src : Src) (d : List Byte) : Res :=
  if d.length < Wire.minSpan then failResult src
  else
    let e := spanEnd d - 1
    match variantOf (byteAt d (e - 1)) with
    | none => failResult src
    | some v => checkSum v d (spanStart d) e (byteAt d e) (failResult src)

/-- The `RECORD` event of a result: label and value as they were decoded (42_decoder.md
R182). -/
def recordEvent (d : List Byte) (r : Res) : Event :=
  .record r.src r.status (slice d r.labelOff r.labelLen) (slice d r.valueOff r.valueLen)
    r.horoPresent r.horo

/-- `Decode(S, n)`: latch the result, every field of it, and emit one `RECORD`
(42_decoder.md R170, R182). -/
def runDecode (src : Src) (n : Nat) (s : State) : State :=
  let d := srcSpan s src 0 n
  emit (recordEvent d (decodeDataset src d)) { s with res := decodeDataset src d }

/-- `ToU32` from an accumulator (42_decoder.md R190). -/
def toU32From (acc : Nat) : List Byte → Word
  | [] => zext32 acc
  | c :: cs =>
    if isDigit c then
      if acc * 10 + digitValue c > 0xFFFFFFFF then Wire.u32Error
      else toU32From (acc * 10 + digitValue c) cs
    else Wire.u32Error

/-- `ToU32(v)`: an unsigned decimal integer, or all ones for an empty span, a non-digit or an
overflow (42_decoder.md R190). -/
def toU32 (v : List Byte) : Word :=
  if v = [] then Wire.u32Error else toU32From 0 v

end Sys2Proof.Machine
end

