-- ==== Sys2Proof/Machine/Decoder.lean ====
section
/-! DEFINITION. The decoder commands (42_decoder.md): host spans, the accessors and the label
comparison. -/

namespace Sys2Proof.Machine

/-- `DEC_CLEAR` (42_decoder.md R184): the contents of `HIN` stay. -/
def execDecClear (s : State) : Result :=
  respond 0 { s with hin.len := 0, hin.drop := false }

/-- Where `DEC_APPEND` stores its byte, if `HIN` has room (42_decoder.md R185). -/
def hinStore (s : State) : Option Nat :=
  if s.hin.len < s.cfg.dsMax then some s.hin.len else none

/-- `DEC_APPEND b` (42_decoder.md R185). -/
def execDecAppend (b : Byte) (s : State) : Result :=
  match hinStore s with
  | some idx =>
    respond 1 { s with hin.buf := cellSet s.hin.buf idx b, hin.len := s.hin.len + 1 }
  | none => respond 0 { s with hin.drop := true }

/-- `DEC_RUN` (42_decoder.md R186). -/
def execDecRun (s : State) : Result :=
  let s1 := runDecode .hin s.hin.len s
  respond (zext32 s1.res.status.code) s1

/-- VALID_HIST or VALID_STD (42_decoder.md R193). -/
def Status.isValid : Status → Bool
  | .validHist => true
  | .validStd => true
  | .malformed => false
  | .wrongCrc => false

/-- `DEC_ISVALID` (42_decoder.md R193). -/
def execDecIsvalid (s : State) : Result :=
  respond (boolData s.res.status.isValid) s

/-- The current bytes of the latched value span (42_decoder.md R194, 70_reset_and_hazards.md
R286). -/
def valueBytes (s : State) : List Byte :=
  srcSpan s s.res.src s.res.valueOff s.res.valueLen

/-- The current bytes of the latched label span (42_decoder.md R197). -/
def labelBytes (s : State) : List Byte :=
  srcSpan s s.res.src s.res.labelOff s.res.labelLen

/-- `DEC_U32` (42_decoder.md R194). -/
def execDecU32 (s : State) : Result :=
  respond (toU32 (valueBytes s)) s

/-- `CMP_CLEAR` (42_decoder.md R195): the `CMP` bytes stay. -/
def execCmpClear (s : State) : Result :=
  respond 0 { s with cmp.len := 0, cmp.overflow := false }

/-- Where `CMP_APPEND` stores its byte, if `CMP` has room (42_decoder.md R196). -/
def cmpStore (s : State) : Option Nat :=
  if s.cmp.len < Wire.cmpMax then some s.cmp.len else none

/-- `CMP_APPEND b` (42_decoder.md R196). -/
def execCmpAppend (b : Byte) (s : State) : Result :=
  match cmpStore s with
  | some idx =>
    respond 1 { s with cmp.buf := cellSet s.cmp.buf idx b, cmp.len := s.cmp.len + 1 }
  | none => respond 0 { s with cmp.overflow := true }

/-- The comparison of `CMP_LABEL`: no overflow, the same length, the same bytes
(42_decoder.md R197). -/
def labelEquals (s : State) : Bool :=
  !s.cmp.overflow && (cmpSpan s == labelBytes s)

/-- `CMP_LABEL` (42_decoder.md R197). -/
def execCmpLabel (s : State) : Result :=
  respond (boolData (labelEquals s)) s

end Sys2Proof.Machine
end

