-- ==== Sys2Proof/Machine/Pipeline.lean ====
section
/-! DEFINITION. The byte-serial pipeline: `ExtByte`, `ExtDeliver`, `ExtReset`
(41_extractor.md) and `UnfByte`, `CloseFrame` (40_unframer.md), wired as 41_extractor.md
R146 says. What a byte does is decided first (`extAction`, `unfAction`), then done. -/

namespace Sys2Proof.Machine

/-- What the extractor does with a byte (41_extractor.md R141). -/
inductive ExtAction where
  /-- OutOfSync, not a start marker: discarded. -/
  | discard
  /-- OutOfSync, LF: a dataset opens. -/
  | openDataset
  /-- InSync, an end marker: the dataset is delivered; `reopen` if a new one opens here. -/
  | closeDataset (reopen : Bool)
  /-- InSync, a data byte with room: stored at `idx`. -/
  | store (idx : Nat)
  /-- InSync, a data byte and `DBUF` full: dropped. -/
  | drop
  deriving DecidableEq, Repr

/-- The extractor's decision on a byte (41_extractor.md R141, R142). -/
def extAction (c : Config) (x : Ext) (b : Byte) : ExtAction :=
  if x.sync then
    if b = Wire.cr then .closeDataset false
    else if b = Wire.lf ∧ c.lfPolicy ≠ .data then .closeDataset (c.lfPolicy == .reopen)
    else if x.len < c.dsMax then .store x.len
    else .drop
  else if b = Wire.lf then .openDataset
  else .discard

/-- `ExtDeliver()`: the dataset's event, its decode, then the cursor back to 0
(41_extractor.md R143). -/
def extDeliver (s : State) : State :=
  let s1 := emit (.dataset (srcSpan s .dbuf 0 s.ext.len) s.ext.drop) s
  let s2 := runDecode .dbuf s.ext.len s1
  { s2 with ext.len := 0, ext.drop := false }

/-- `ExtReset()` (41_extractor.md R144). -/
def extReset (s : State) : State :=
  { s with ext.sync := false, ext.len := 0, ext.drop := false }

/-- `ExtByte(b)`: the next state and `consumed` (41_extractor.md R141). -/
def extByte (b : Byte) (s : State) : State × Bool :=
  match extAction s.cfg s.ext b with
  | .discard => (s, true)
  | .openDataset => ({ s with ext.sync := true, ext.len := 0, ext.drop := false }, true)
  | .closeDataset reopen => ({ extDeliver s with ext.sync := reopen }, true)
  | .store idx =>
    ({ s with ext.dbuf := cellSet s.ext.dbuf idx b, ext.len := s.ext.len + 1 }, true)
  | .drop =>
    ({ s with ext.drop := true, ext.ovf := satInc s.cfg.cntW s.ext.ovf }, false)

/-- Feed a byte string to the extractor, results ignored (40_unframer.md R113). -/
def feed : List Byte → State → State
  | [], s => s
  | b :: bs, s => feed bs (extByte b s).1

/-- The `DBUF` indexes that feeding a byte string stores to, in order. -/
def feedStores : List Byte → State → List Nat
  | [], _ => []
  | b :: bs, s =>
    match extAction s.cfg s.ext b with
    | .store idx => idx :: feedStores bs (extByte b s).1
    | _ => feedStores bs (extByte b s).1

/-- What the unframer does with a byte (40_unframer.md R111). -/
inductive UnfAction where
  /-- OutOfSync, not a start marker: noise (R112). -/
  | discard
  /-- OutOfSync, start marker: a frame opens. -/
  | openFrame
  /-- InSync, a marker: the frame closes; with cause RESTART a new one opens (R114). -/
  | close (cause : Cause)
  /-- InSync, payload in `ON_THE_FLY` mode: forwarded. -/
  | forward
  /-- InSync, payload in `CACHED` mode with room: stored at `idx`. -/
  | store (idx : Nat)
  /-- InSync, payload in `CACHED` mode and `FBUF` full: dropped. -/
  | drop
  deriving DecidableEq, Repr

/-- The unframer's decision on a byte (40_unframer.md R111). -/
def unfAction (c : Config) (u : Unf) (b : Byte) : UnfAction :=
  if u.sync then
    if b = Wire.etx then .close .endMarker
    else if b = Wire.stx then .close .restart
    else
      match c.mode with
      | .onTheFly => .forward
      | .cached => if u.flen < c.frameMax then .store u.flen else .drop
  else if b = Wire.stx then .openFrame
  else .discard

/-- The payload a frame close delivers: the stored span in `CACHED` mode, nothing in
`ON_THE_FLY` mode, where it went out byte by byte (40_unframer.md R113, R115). -/
def closePayload (s : State) : List Byte :=
  match s.cfg.mode with
  | .cached => fbufSpan s s.unf.flen
  | .onTheFly => []

/-- The delivery part of `CloseFrame`: one `FRAME_BYTES` event for a non-empty span, then the
span to the extractor. `ExtByte` never writes `FBUF`, so the span is read once (DEDUCED, log
entry 17). -/
def deliverPayload (s : State) : State :=
  if closePayload s = [] then s
  else feed (closePayload s) (emit (.frameBytes (closePayload s)) s)

/-- `CloseFrame(cause)`; the order of effects is normative (40_unframer.md R113). -/
def closeFrame (cause : Cause) (s : State) : State :=
  let s1 := histPush s.unf.flen (deliverPayload s)
  let s2 := extReset (emit (.frameComplete cause s1.unf.fdrop) s1)
  { s2 with unf.flen := 0, unf.fdrop := false }

/-- `UnfByte(b)`: the next state and `consumed` (40_unframer.md R111). -/
def unfByte (b : Byte) (s : State) : State × Bool :=
  match unfAction s.cfg s.unf b with
  | .discard => (s, true)
  | .openFrame => ({ s with unf.sync := true, unf.flen := 0, unf.fdrop := false }, true)
  | .close .endMarker => ({ closeFrame .endMarker s with unf.sync := false }, true)
  | .close .restart => ({ closeFrame .restart s with unf.sync := true }, true)
  | .forward =>
    let s1 := emit (.frameBytes [b]) s
    let s2 := { s1 with unf.flen := satInc s.cfg.lenW s.unf.flen }
    ((extByte b s2).1, true)
  | .store idx =>
    ({ s with unf.fbuf := cellSet s.unf.fbuf idx b, unf.flen := s.unf.flen + 1 }, true)
  | .drop =>
    ({ s with unf.fdrop := true, unf.ovf := satInc s.cfg.cntW s.unf.ovf }, false)

end Sys2Proof.Machine
end

