-- ==== Sys2Proof/Machine/Extractor.lean ====
section
/-! DEFINITION. The extractor commands (41_extractor.md). -/

namespace Sys2Proof.Machine

/-- `EXT_PUSH b` (41_extractor.md R140). -/
def execExtPush (b : Byte) (s : State) : Result :=
  respond (boolData (extByte b s).2) (extByte b s).1

/-- `EXT_RESET` (41_extractor.md R145). -/
def execExtReset (s : State) : Result :=
  respond 0 (extReset s)

/-- `EXT_SYNC` (41_extractor.md R147). -/
def execExtSync (s : State) : Result :=
  respond (boolData s.ext.sync) s

end Sys2Proof.Machine
end

