-- ==== Sys2Proof/Machine/Registers.lean ====
section
/-! DEFINITION. The read-only register map (10_state.md R45): the value of each register. -/

namespace Sys2Proof.Machine

/-- CONFIG (10_state.md R45, number 0x01). -/
def configFields (c : Config) : Nat :=
  slot 0 0 (modeCode c.mode) + slot 2 1 (lfPolicyCode c.lfPolicy) +
  slot 13 8 c.lenW + slot 19 14 c.cntW

/-- RES_STATUS (10_state.md R45, number 0x0D). -/
def resStatusFields (r : Res) : Nat :=
  slot 1 0 r.status.code + slot 2 2 r.src.code + flagSlot 3 r.horoPresent

/-- RES_CK (10_state.md R45, number 0x12). -/
def resCkFields (r : Res) : Nat :=
  slot 7 0 r.ckRx.toNat + slot 15 8 r.ckCalc.toNat + flagSlot 16 r.ckSeen

/-- HORO0 of a horodate value (10_state.md R45, numbers 0x13 and 0x16). -/
def horo0Fields (h : Horo) : Nat :=
  slot 1 0 h.season.code + flagSlot 2 h.degraded + flagSlot 3 h.valid +
  slot 31 16 h.year.toNat

/-- HORO1 of a horodate value (10_state.md R45, numbers 0x14 and 0x17). -/
def horo1Fields (h : Horo) : Nat :=
  slot 7 0 h.month.toNat + slot 15 8 h.day.toNat + slot 23 16 h.hour.toNat +
  slot 31 24 h.minute.toNat

/-- HORO2 of a horodate value (10_state.md R45, numbers 0x15 and 0x18). -/
def horo2Fields (h : Horo) : Nat :=
  slot 7 0 h.second.toNat

/-- CFG_FRAME_MAX reads 0 in `ON_THE_FLY` mode (10_state.md R45, number 0x02). -/
def cfgFrameMaxField (c : Config) : Nat :=
  match c.mode with
  | .cached => c.frameMax
  | .onTheFly => 0

/-- `RegValue(n)`: every register is 32 bits wide, a narrower field is zero-extended and bits
not listed read as 0 (10_state.md R45). -/
def regValue (s : State) : Reg → Word
  | .status => zext32 (statusFlags s)
  | .config => zext32 (configFields s.cfg)
  | .cfgFrameMax => zext32 (cfgFrameMaxField s.cfg)
  | .cfgDsMax => zext32 s.cfg.dsMax
  | .cfgHistDepth => zext32 s.cfg.histDepth
  | .unfFlen => zext32 s.unf.flen
  | .unfHcnt => zext32 s.unf.hcnt
  | .unfHwr => zext32 s.unf.hwr
  | .unfMaxsz => zext32 (maxRecent s)
  | .unfOvf => zext32 s.unf.ovf
  | .extLen => zext32 s.ext.len
  | .extOvf => zext32 s.ext.ovf
  | .hinLen => zext32 s.hin.len
  | .resStatus => zext32 (resStatusFields s.res)
  | .resLabelOff => zext32 s.res.labelOff
  | .resLabelLen => zext32 s.res.labelLen
  | .resValueOff => zext32 s.res.valueOff
  | .resValueLen => zext32 s.res.valueLen
  | .resCk => zext32 (resCkFields s.res)
  | .resHoro0 => zext32 (horo0Fields s.res.horo)
  | .resHoro1 => zext32 (horo1Fields s.res.horo)
  | .resHoro2 => zext32 (horo2Fields s.res.horo)
  | .refHoro0 => zext32 (horo0Fields s.ref)
  | .refHoro1 => zext32 (horo1Fields s.ref)
  | .refHoro2 => zext32 (horo2Fields s.ref)
  | .cmpLen => zext32 (slot 3 0 s.cmp.len)

end Sys2Proof.Machine
end

