-- ==== Sys2Proof/Machine/System.lean ====
section
/-! DEFINITION. The system commands (44_system.md). -/

namespace Sys2Proof.Machine

/-- `NOP` (44_system.md R230). -/
def execNop (s : State) : Result :=
  respond 0 s

/-- `REG_READ n` (44_system.md R231); a reserved number is refused by the decoder. -/
def execRegRead (r : Reg) (s : State) : Result :=
  respond (regValue s r) s

/-- `BUF_READ sp, idx` (44_system.md R232). -/
def execBufRead (sp : Space) (idx : Nat) (s : State) : Result :=
  if bufLegal s.cfg sp idx then respond (elemAt s sp idx) s else refuse s

/-- `BLOCK_RESET` (44_system.md R233). -/
def execBlockReset (s : State) : Result :=
  respond 0 (applyReset s)

end Sys2Proof.Machine
end

