-- ==== Sys2Proof/Machine/Unframer.lean ====
section
/-! DEFINITION. The unframer commands (40_unframer.md). -/

namespace Sys2Proof.Machine

/-- `UNF_PUSH b` (40_unframer.md R110). -/
def execUnfPush (b : Byte) (s : State) : Result :=
  respond (boolData (unfByte b s).2) (unfByte b s).1

/-- `UNF_SYNC` (40_unframer.md R117). -/
def execUnfSync (s : State) : Result :=
  respond (boolData s.unf.sync) s

/-- `UNF_MAXSZ` (40_unframer.md R118). -/
def execUnfMaxsz (s : State) : Result :=
  respond (zext32 (maxRecent s)) s

end Sys2Proof.Machine
end

