-- ==== Sys2Proof/Machine/Dispatch.lean ====
section
/-! DEFINITION. The dispatch of a command to its meaning, one arm per constructor. -/

namespace Sys2Proof.Machine

-- the opcode map of 30_encoding.md R90, in its order
def exec (i : Instr) (s : State) : Host.Outcome State Fault Refusal :=
  match i with
  | .nop => Sys2Proof.Machine.execNop s
  | .unfPush b => Sys2Proof.Machine.execUnfPush b s
  | .unfSync => Sys2Proof.Machine.execUnfSync s
  | .unfMaxsz => Sys2Proof.Machine.execUnfMaxsz s
  | .extPush b => Sys2Proof.Machine.execExtPush b s
  | .extReset => Sys2Proof.Machine.execExtReset s
  | .extSync => Sys2Proof.Machine.execExtSync s
  | .decClear => Sys2Proof.Machine.execDecClear s
  | .decAppend b => Sys2Proof.Machine.execDecAppend b s
  | .decRun => Sys2Proof.Machine.execDecRun s
  | .decIsvalid => Sys2Proof.Machine.execDecIsvalid s
  | .decU32 => Sys2Proof.Machine.execDecU32 s
  | .cmpClear => Sys2Proof.Machine.execCmpClear s
  | .cmpAppend b => Sys2Proof.Machine.execCmpAppend b s
  | .cmpLabel => Sys2Proof.Machine.execCmpLabel s
  | .horoSave => Sys2Proof.Machine.execHoroSave s
  | .horoCmp => Sys2Proof.Machine.execHoroCmp s
  | .regRead r => Sys2Proof.Machine.execRegRead r s
  | .bufRead sp idx => Sys2Proof.Machine.execBufRead sp idx s
  | .blockReset => Sys2Proof.Machine.execBlockReset s

end Sys2Proof.Machine
end

