-- ==== Sys2Proof/Machine/Step.lean ====
section
/-! DEFINITION. One step of the block with its environment: the host's next action, and the
acceptance of a command word (30_encoding.md R87, 70_reset_and_hazards.md R284, R285). -/

namespace Sys2Proof.Machine

/-- Run one command word: a refused word answers `{illegal = 1, data = 0}` and nothing else
(30_encoding.md R93, R96). -/
def runWord (w : Word) (s : State) : Host.Outcome State Fault Refusal :=
  match decode w with
  | .ok i => exec i s
  | .error _ => refuse s

/-- One step. A command word is accepted only when `cmd_ready` is high; otherwise the
handshake waits (70_reset_and_hazards.md R284, R285). With nothing to do the block holds its
state (60_exceptions.md R266). A build outside the bounds is refused (log entry 8). -/
def step (s : State) : Host.Outcome State Fault Refusal :=
  if s.cfg.valid then
    match s.host with
    | [] => .next s
    | .takeEvent :: rest => .next (takeEvent { s with host := rest })
    | .resetInput :: rest => .next (resetInput { s with host := rest })
    | .issue w :: rest => if cmdReady s then runWord w { s with host := rest } else .next s
  else .refused .invalidBuild

/-- `s` with the word of an opcode-table row as the host's next command, and the event port
drained so that `cmd_ready` is high (log entry 4). -/
def State.withFetchWord (s : State) (nbits w : Nat) : State :=
  { s with evPort := [], host := .issue (wordOfTable nbits w) :: s.host }

end Sys2Proof.Machine
end

