-- ==== Sys2Proof/Machine/Assembler.lean ====
section
/-! DEFINITION. The assembler text (30_encoding.md R97) and the pseudo-instructions (R98): a
line of text becomes the list of commands it stands for, and their words are `encode`'s.
The forms of numbers, characters, strings and
lists beyond the spec's examples are a DESIGN CHOICE (log entry 14). -/

namespace Sys2Proof.Machine

/-- The pseudo-instructions (30_encoding.md R98). -/
inductive Pseudo where
  | unfPushs (bs : List Byte)
  | extPushs (bs : List Byte)
  | decLoad (bs : List Byte)
  | decDecode (bs : List Byte)
  | cmpLoad (bs : List Byte)
  | labelEq (bs : List Byte)
  deriving DecidableEq, Repr

/-- Each pseudo-instruction expands to real commands in order (30_encoding.md R98). -/
def Pseudo.expand : Pseudo → List Instr
  | .unfPushs bs => bs.map .unfPush
  | .extPushs bs => bs.map .extPush
  | .decLoad bs => .decClear :: bs.map .decAppend
  | .decDecode bs => .decClear :: bs.map .decAppend ++ [.decRun]
  | .cmpLoad bs => .cmpClear :: bs.map .cmpAppend
  | .labelEq bs => .cmpClear :: bs.map .cmpAppend ++ [.cmpLabel]

/-- What a mnemonic takes as operands (30_encoding.md R88, R98). -/
inductive AsmForm where
  | none (i : Instr)
  | byte (make : Byte → Instr)
  | reg (make : Reg → Instr)
  | buffer (make : Space → Nat → Instr)
  | bytes (make : List Byte → Pseudo)

/-- The mnemonics of the opcode map (30_encoding.md R90) and of the pseudo-instructions
(R98). -/
def asmTable : List (String × AsmForm) :=
  [("NOP", .none .nop), ("UNF_PUSH", .byte .unfPush), ("UNF_SYNC", .none .unfSync),
   ("UNF_MAXSZ", .none .unfMaxsz), ("EXT_PUSH", .byte .extPush), ("EXT_RESET", .none .extReset),
   ("EXT_SYNC", .none .extSync), ("DEC_CLEAR", .none .decClear),
   ("DEC_APPEND", .byte .decAppend), ("DEC_RUN", .none .decRun)] ++
  [("DEC_ISVALID", .none .decIsvalid), ("DEC_U32", .none .decU32),
   ("CMP_CLEAR", .none .cmpClear), ("CMP_APPEND", .byte .cmpAppend),
   ("CMP_LABEL", .none .cmpLabel), ("HORO_SAVE", .none .horoSave),
   ("HORO_CMP", .none .horoCmp), ("REG_READ", .reg .regRead), ("BUF_READ", .buffer .bufRead),
   ("BLOCK_RESET", .none .blockReset)] ++
  [("UNF_PUSHS", .bytes .unfPushs), ("EXT_PUSHS", .bytes .extPushs),
   ("DEC_LOAD", .bytes .decLoad), ("DEC_DECODE", .bytes .decDecode),
   ("CMP_LOAD", .bytes .cmpLoad), ("LABEL_EQ", .bytes .labelEq)]

/-- Register names (10_state.md R45). -/
def regNames : List (String × Reg) :=
  [("STATUS", .status), ("CONFIG", .config), ("CFG_FRAME_MAX", .cfgFrameMax),
   ("CFG_DS_MAX", .cfgDsMax), ("CFG_HIST_DEPTH", .cfgHistDepth), ("UNF_FLEN", .unfFlen),
   ("UNF_HCNT", .unfHcnt), ("UNF_HWR", .unfHwr), ("UNF_MAXSZ", .unfMaxsz)] ++
  [("UNF_OVF", .unfOvf), ("EXT_LEN", .extLen), ("EXT_OVF", .extOvf), ("HIN_LEN", .hinLen),
   ("RES_STATUS", .resStatus), ("RES_LABEL_OFF", .resLabelOff),
   ("RES_LABEL_LEN", .resLabelLen), ("RES_VALUE_OFF", .resValueOff),
   ("RES_VALUE_LEN", .resValueLen)] ++
  [("RES_CK", .resCk), ("RES_HORO0", .resHoro0), ("RES_HORO1", .resHoro1),
   ("RES_HORO2", .resHoro2), ("REF_HORO0", .refHoro0), ("REF_HORO1", .refHoro1),
   ("REF_HORO2", .refHoro2), ("CMP_LEN", .cmpLen)]

/-- Space names (30_encoding.md R97). -/
def spaceNames : List (String × Space) :=
  [("fbuf", .fbuf), ("dbuf", .dbuf), ("hin", .hin), ("hist", .hist), ("cmp", .cmp)]

/-- A mnemonic in lower case with `_` written as `.` (30_encoding.md R97). -/
def asmMnemonic (m : String) : List Char :=
  m.toList.map fun c => if c = '_' then '.' else c.toLower

/-- The double quote. -/
abbrev quoteMark : Char := Char.ofNat 34

/-- The single quote. -/
abbrev tickMark : Char := Char.ofNat 39

/-- Drop the blanks at both ends. -/
def trimBlanks (t : List Char) : List Char :=
  ((t.dropWhile Char.isWhitespace).reverse.dropWhile Char.isWhitespace).reverse

/-- The value of a hexadecimal digit. -/
def hexDigit? (c : Char) : Option Nat :=
  if '0' ≤ c ∧ c ≤ '9' then some (c.toNat - 48)
  else if 'a' ≤ c ∧ c ≤ 'f' then some (c.toNat - 87)
  else if 'A' ≤ c ∧ c ≤ 'F' then some (c.toNat - 55)
  else none

/-- Digits of a base, most significant first, from an accumulator. -/
def digitsFrom (base acc : Nat) : List Char → Option Nat
  | [] => some acc
  | c :: cs =>
    match hexDigit? c with
    | some d => if d < base then digitsFrom base (acc * base + d) cs else none
    | none => none

/-- A number: hexadecimal after `0x`, else decimal. -/
def parseNumber : List Char → Option Nat
  | [] => none
  | ['0', 'x'] => none
  | '0' :: 'x' :: cs => digitsFrom 16 0 cs
  | cs => digitsFrom 10 0 cs

/-- A byte operand: `0xNN` or a character between single quotes (30_encoding.md R97). -/
def parseByte (t : List Char) : Option Byte :=
  match t with
  | [q, c, q'] =>
    if q = tickMark ∧ q' = tickMark ∧ c.toNat < 128 then some (BitVec.ofNat 8 c.toNat) else none
  | ['0', 'x', h, l] => (digitsFrom 16 0 [h, l]).map (BitVec.ofNat 8)
  | _ => none

/-- A register: its name or its number (30_encoding.md R97). -/
def parseReg (t : List Char) : Option Reg :=
  match regNames.find? fun p => p.1.toList == t with
  | some p => some p.2
  | none => (parseNumber t).bind Reg.ofNumber?

/-- A buffer space by name (30_encoding.md R97). -/
def parseSpace (t : List Char) : Option Space :=
  (spaceNames.find? fun p => p.1.toList == t).map Prod.snd

/-- Each character with whether it stands in a quoted string or a quoted character; the quote
marks of a string switch (the model's reading, log entry 14). -/
def markQuoted (inString : Bool) : List Char → List (Char × Bool)
  | [] => []
  | [c] => [(c, inString)]
  | [c, d] => [(c, inString), (d, inString != (c == quoteMark))]
  | c :: d :: e :: cs =>
    if inString = false ∧ c = tickMark ∧ e = tickMark then
      (c, true) :: (d, true) :: (e, true) :: markQuoted false cs
    else (c, inString) :: markQuoted (inString != (c == quoteMark)) (d :: e :: cs)

/-- Split marked characters at every comma outside quotes. -/
def splitMarked : List (Char × Bool) → List (List Char)
  | [] => [[]]
  | p :: ps =>
    if p = (',', false) then [] :: splitMarked ps
    else
      match splitMarked ps with
      | [] => [[p.1]]
      | t :: ts => (p.1 :: t) :: ts

/-- Split at every comma; a comma between quotes splits nothing (DESIGN CHOICE, log
entry 14). -/
def splitCommas (t : List Char) : List (List Char) :=
  splitMarked (markQuoted false t)

/-- The characters of a quoted string up to its closing quote, with the escapes of
00_scope.md R9. -/
def stringBody : List Char → Option (List Byte)
  | [] => none
  | '\\' :: 't' :: cs => (stringBody cs).map (0x09 :: ·)
  | '\\' :: 'n' :: cs => (stringBody cs).map (0x0A :: ·)
  | '\\' :: 'r' :: cs => (stringBody cs).map (0x0D :: ·)
  | c :: cs =>
    if c = quoteMark then (if cs = [] then some [] else none)
    else if c.toNat < 128 then (stringBody cs).map (BitVec.ofNat 8 c.toNat :: ·)
    else none

/-- The bytes of one element of a bracketed list: a quoted string, a byte operand, or two bare
hexadecimal digits. The spec gives no grammar of a list; these are the forms that the listings
of 95_test_vectors.md use (DESIGN CHOICE, log entry 14). -/
def parseElement (t : List Char) : Option (List Byte) :=
  match t with
  | [] => none
  | c :: cs =>
    if c = quoteMark then stringBody cs
    else
      match parseByte t, t with
      | some b, _ => some [b]
      | none, [h, l] => (digitsFrom 16 0 [h, l]).map fun n => [BitVec.ofNat 8 n]
      | none, _ => none

/-- A byte string: a quoted string or a bracketed list (30_encoding.md R98); each
pseudo-instruction takes either form (DESIGN CHOICE, log entry 14). -/
def parseBytes (t : List Char) : Option (List Byte) :=
  match t with
  | [] => none
  | c :: cs =>
    if c = quoteMark then stringBody cs
    else if c = '[' ∧ cs.getLast? = some ']' then
      if trimBlanks cs.dropLast = [] then some []
      else ((splitCommas cs.dropLast).mapM fun e => parseElement (trimBlanks e)).map List.flatten
    else none

/-- The operands of a mnemonic. -/
def parseOperands (f : AsmForm) (t : List Char) : Option (List Instr) :=
  match f with
  | .none i => if t = [] then some [i] else Option.none
  | .byte make => (parseByte t).map fun b => [make b]
  | .reg make => (parseReg t).map fun r => [make r]
  | .buffer make =>
    match (splitCommas t).map trimBlanks with
    | [sp, idx] =>
      match parseSpace sp, parseNumber idx with
      | some sp, some idx => if idx < 2 ^ 20 then some [make sp idx] else Option.none
      | _, _ => Option.none
    | _ => Option.none
  | .bytes make => (parseBytes t).map fun bs => (make bs).expand

/-- Cut a comment, which `;` starts, off a line; a `;` between quotes starts none (DESIGN
CHOICE, log entry 14). -/
def cutComment (t : List Char) : List Char :=
  ((markQuoted false t).takeWhile fun p => p != (';', false)).map Prod.fst

/-- One line of assembler text: the commands it stands for, none for an empty line
(30_encoding.md R97, R98). -/
def parseLine (line : List Char) : Option (List Instr) :=
  let t := trimBlanks (cutComment line)
  if t = [] then some []
  else
    let m := t.takeWhile fun c => !c.isWhitespace
    match asmTable.find? fun p => asmMnemonic p.1 == m with
    | some p => parseOperands p.2 (trimBlanks (t.drop m.length))
    | none => none

/-- The command words of one line of assembler text (30_encoding.md R99). -/
def assemble (line : String) : Option (List Word) :=
  (parseLine line.toList).map fun is => is.map encode

end Sys2Proof.Machine
end

