-- ==== Sys2Proof/Safety.lean ====
section
/-! DEFINITION. What counts as a safe state and a safe output of the block, in the terms the
statements use: the invariants of 10_state.md R43 with the bounds and written extents behind
them, the marker exclusion of 40_unframer.md R120 and 41_extractor.md R149, the refused
encodings of 30_encoding.md R96, and the states a run can reach. -/

namespace Sys2Proof

/-- The four refusal conditions of 30_encoding.md R96 read off the word itself, for a build
with the given mode and capacity of each space: (a) opcode, (b) MBZ field, (c) register
number, (d) space and index. -/
def refusedWord (mode : Mode) (capacity : Space → Nat) (w : Word) : Bool :=
  let op := field w 31 24
  decide (0x14 ≤ op) ||
  ((op == 0x01 || op == 0x04 || op == 0x08 || op == 0x0D || op == 0x11) &&
    field w 23 8 != 0) ||
  (op != 0x01 && op != 0x04 && op != 0x08 && op != 0x0D && op != 0x11 && op != 0x12 &&
    field w 23 0 != 0) ||
  (op == 0x11 && decide (0x1A ≤ field w 7 0)) ||
  (op == 0x12 &&
    match Space.ofId? (field w 23 20) with
    | none => true
    | some sp =>
      (sp == .fbuf && mode == .onTheFly) || decide (capacity sp ≤ field w 19 0))

end Sys2Proof

namespace Sys2Proof.Machine

/-- Every index below `n` has been written since reset. -/
def writtenBelow {α : Type} (m : Cells α) (n : Nat) : Prop :=
  ∀ i, i < n → (cellGet? m i).isSome = true

/-- Every listed element lies below capacity `n` and satisfies `p`. -/
def cellsIn {α : Type} (m : Cells α) (n : Nat) (p : α → Prop) : Prop :=
  ∀ e ∈ m, e.1 < n ∧ p e.2

/-- A byte that is neither frame marker (30_encoding.md R80). -/
def notFrameMarker (b : Byte) : Prop := b ≠ Wire.stx ∧ b ≠ Wire.etx

/-- A byte a dataset of the build may hold: no CR, and LF only under `LF_POLICY` = `DATA`
(41_extractor.md R149). -/
def datasetByte (c : Config) (b : Byte) : Prop :=
  b ≠ Wire.cr ∧ (b = Wire.lf → c.lfPolicy = .data)

/-- The unframer's invariants (10_state.md R43 items 1, 2 and 5, R24 to R28, 40_unframer.md
R120). -/
structure UnfInv (c : Config) (u : Unf) : Prop where
  idle : u.sync = false → u.flen = 0 ∧ u.fdrop = false
  cachedBound : c.mode = .cached → u.flen ≤ c.frameMax
  flenWidth : u.flen < 2 ^ c.lenW
  ovfWidth : u.ovf < 2 ^ c.cntW
  dropFull : u.fdrop = true → c.mode = .cached ∧ u.flen = c.frameMax
  onTheFly : c.mode = .onTheFly → u.ovf = 0 ∧ u.fbuf = []
  hcntBound : u.hcnt ≤ c.histDepth
  hwrBound : u.hwr < c.histDepth
  hwrBeforeWrap : u.hcnt < c.histDepth → u.hwr = u.hcnt
  fbufWf : cellsWf u.fbuf = true
  fbufCells : cellsIn u.fbuf c.frameMax notFrameMarker
  fbufWritten : c.mode = .cached → writtenBelow u.fbuf u.flen
  histWf : cellsWf u.hist = true
  histCells : cellsIn u.hist c.histDepth (· < 2 ^ c.lenW)
  histWritten : writtenBelow u.hist u.hcnt

/-- The extractor's invariants (10_state.md R43 items 3 and 4, R30 to R33, 41_extractor.md
R149). -/
structure ExtInv (c : Config) (x : Ext) : Prop where
  idle : x.sync = false → x.len = 0 ∧ x.drop = false
  lenBound : x.len ≤ c.dsMax
  ovfWidth : x.ovf < 2 ^ c.cntW
  dropFull : x.drop = true → x.len = c.dsMax
  dbufWf : cellsWf x.dbuf = true
  dbufCells : cellsIn x.dbuf c.dsMax (datasetByte c)
  dbufWritten : writtenBelow x.dbuf x.len

/-- The host buffer's invariants (10_state.md R43 item 4, R34). -/
structure HinInv (c : Config) (h : Hin) : Prop where
  lenBound : h.len ≤ c.dsMax
  dropFull : h.drop = true → h.len = c.dsMax
  bufWf : cellsWf h.buf = true
  bufCells : cellsIn h.buf c.dsMax fun _ => True
  bufWritten : writtenBelow h.buf h.len

/-- The compare buffer's invariants (10_state.md R43 item 4, R39). -/
structure CmpInv (m : Cmp) : Prop where
  lenBound : m.len ≤ Wire.cmpMax
  overFull : m.overflow = true → m.len = Wire.cmpMax
  bufWf : cellsWf m.buf = true
  bufCells : cellsIn m.buf Wire.cmpMax fun _ => True
  bufWritten : writtenBelow m.buf m.len

/-- A horodate value's ranges (10_state.md R36). -/
structure HoroInv (h : Horo) : Prop where
  yearLow : 2000 ≤ h.year.toNat
  yearHigh : h.year.toNat ≤ 2099
  month : h.month.toNat ≤ 99
  day : h.day.toNat ≤ 99
  hour : h.hour.toNat ≤ 99
  minute : h.minute.toNat ≤ 99
  second : h.second.toNat ≤ 99

/-- What every decode result of a span of `n` bytes satisfies (10_state.md R43 items 6 and 7,
R35, 42_decoder.md R174, R181). -/
structure ResInv (n : Nat) (r : Res) : Prop where
  failed : r.status.isValid = false →
    r.labelOff = 0 ∧ r.labelLen = 0 ∧ r.valueOff = 0 ∧ r.valueLen = 0 ∧ r.horoPresent = false
  label : r.status.isValid = true → 1 ≤ r.labelLen ∧ r.labelLen ≤ Wire.labelMax
  disjoint : r.status.isValid = true → r.labelOff + r.labelLen < r.valueOff
  inside : r.status.isValid = true → r.valueOff + r.valueLen + 2 ≤ n
  unseen : r.ckSeen = false → r.status = .malformed ∧ r.ckRx = 0 ∧ r.ckCalc = 0
  matched : r.status.isValid = true → r.ckRx = r.ckCalc
  mismatched : r.status = .wrongCrc → r.ckRx ≠ r.ckCalc
  ckRange : r.ckSeen = true → 0x20 ≤ r.ckCalc.toNat ∧ r.ckCalc.toNat ≤ 0x5F
  absent : r.horoPresent = false → r.horo = Horo.invalid
  horo : HoroInv r.horo

/-- The buffer a result's spans lie in. -/
def srcBuffer (s : State) : Src → Memory
  | .dbuf => s.ext.dbuf
  | .hin => s.hin.buf

/-- The invariant of the machine: a valid build, the units' invariants, and a latched result
whose spans lie in written bytes of its source buffer. -/
structure State.Inv (s : State) : Prop where
  build : s.cfg.valid = true
  unf : UnfInv s.cfg s.unf
  ext : ExtInv s.cfg s.ext
  hin : HinInv s.cfg s.hin
  cmp : CmpInv s.cmp
  res : ResInv s.cfg.dsMax s.res
  view : writtenBelow (srcBuffer s s.res.src) (s.res.valueOff + s.res.valueLen)
  ref : HoroInv s.ref

/-- What every event of a build satisfies: marker exclusion (40_unframer.md R120,
41_extractor.md R149), no empty `FRAME_BYTES` (R115), truncation only of a full buffer (R150),
and the shape of a record (10_state.md R43 items 6 and 7). -/
def eventOk (c : Config) : Event → Prop
  | .frameBytes bs => bs ≠ [] ∧ ∀ b ∈ bs, notFrameMarker b
  | .frameComplete _ dropped => dropped = true → c.mode = .cached
  | .dataset bs dropped =>
    (∀ b ∈ bs, datasetByte c b) ∧ bs.length ≤ c.dsMax ∧ (dropped = true → bs.length = c.dsMax)
  | .record _ status label value present horo =>
    (status.isValid = false → label = [] ∧ value = [] ∧ present = false) ∧
    (status.isValid = true → 1 ≤ label.length ∧ label.length ≤ Wire.labelMax) ∧
    (present = false → horo = Horo.invalid)

/-- The commands 20_memory.md R65 names as reads. -/
def isRead : Instr → Bool
  | .regRead _ | .bufRead _ _ | .unfSync | .extSync | .unfMaxsz | .decIsvalid | .decU32
  | .cmpLabel | .horoCmp => true
  | .nop | .unfPush _ | .extPush _ | .extReset | .decClear | .decAppend _ | .decRun
  | .cmpClear | .cmpAppend _ | .horoSave | .blockReset => false

/-- The states a block of any valid build reaches from reset under any host
(70_reset_and_hazards.md R280, R282). -/
inductive Reachable : State → Prop where
  | start (c : Config) (acts : List HostAction) (h : c.valid = true) :
      Reachable { State.resetWith c with host := acts }
  | step (s t : State) (hs : Reachable s) (ht : Machine.step s = .next t) : Reachable t

/-- `s` with the response `{illegal = 0, data = d}` on the response port. -/
def answered (d : Word) (s : State) : State :=
  { s with resp := some { illegal := false, data := d } }

/-- `s` with the response `{illegal = 1, data = 0}` on the response port. -/
def answeredIllegal (s : State) : State :=
  { s with resp := some { illegal := true, data := 0 } }

/-- The encoding of a format N command: its word is its opcode over zeros, and a nonzero
`[23:0]` is refused (30_encoding.md R88, R90, R96 (b)). -/
def encodedN (op : Nat) (i : Instr) : Prop :=
  decode (BitVec.ofNat 32 (op * 2 ^ 24)) = .ok i ∧
  ∀ w s, field w 31 24 = op → field w 23 0 ≠ 0 → runWord w s = .next (answeredIllegal s)

/-- The encoding of a format B command: its word is its opcode over its byte, and a nonzero
`[23:8]` is refused (30_encoding.md R88, R90, R96 (b)). -/
def encodedB (op : Nat) (make : Byte → Instr) : Prop :=
  (∀ b : Byte, decode (BitVec.ofNat 32 (op * 2 ^ 24 + b.toNat)) = .ok (make b)) ∧
  ∀ w s, field w 31 24 = op → field w 23 8 ≠ 0 → runWord w s = .next (answeredIllegal s)

/-- Run commands one after another, each seeing every effect of those before it (20_memory.md
R68). -/
def execAll : List Instr → State → Result
  | [], s => .next s
  | i :: is, s =>
    match exec i s with
    | .next t => execAll is t
    | .fault r => .fault r
    | .refused r => .refused r

/-- The responses of commands run one after another (30_encoding.md R98). -/
def answersAll : List Instr → State → List (Option Response)
  | [], _ => []
  | i :: is, s =>
    match exec i s with
    | .next t => t.resp :: answersAll is t
    | .fault _ => []
    | .refused _ => []

/-- The payload bytes of the `FRAME_BYTES` events of a list, in order. -/
def payloadOf : List Event → List Byte
  | [] => []
  | .frameBytes bs :: es => bs ++ payloadOf es
  | .frameComplete _ _ :: es => payloadOf es
  | .dataset _ _ :: es => payloadOf es
  | .record _ _ _ _ _ _ :: es => payloadOf es

/-- The `FRAME_COMPLETE` events of a list, in order. -/
def closesOf : List Event → List (Cause × Bool)
  | [] => []
  | .frameComplete c d :: es => (c, d) :: closesOf es
  | .frameBytes _ :: es => closesOf es
  | .dataset _ _ :: es => closesOf es
  | .record _ _ _ _ _ _ :: es => closesOf es

/-- The `DATASET` events of a list, in order. -/
def datasetsOf : List Event → List (List Byte × Bool)
  | [] => []
  | .dataset bs d :: es => (bs, d) :: datasetsOf es
  | .frameBytes _ :: es => datasetsOf es
  | .frameComplete _ _ :: es => datasetsOf es
  | .record _ _ _ _ _ _ :: es => datasetsOf es

end Sys2Proof.Machine
end

