-- ==== Sys2Proof/Certificates/Slice0/Obligations.lean ====
section
/-! DEFINITION. The statements for the provers, each with the rule of the spec it formalises or
rests on. -/

open Sys2Proof Sys2Proof.Machine

/-- The all-zero word decodes to NOP; NOP's next state is the old state with the response {0, 0}; a
word with opcode 0x00 and a nonzero [23:0] answers {illegal 1, data 0} with no other change.
(R230) -/
def Obligations.NopAnswersZeroAndNothingElse : Prop :=
  decode 0 = .ok .nop ∧
  (∀ s, exec .nop s = .next (answered 0 s)) ∧
  (∀ w s, field w 31 24 = 0 → field w 23 0 ≠ 0 → runWord w s = .next (answeredIllegal s))

/-- For every state: after ApplyReset every scalar element of R22 has its reset value, the build is
unchanged, and UNF_SYNC, EXT_SYNC, UNF_MAXSZ, DEC_ISVALID and HORO_CMP answer 0 while DEC_U32
answers 0xFFFFFFFF and CMP_LABEL answers 1. The answers are those of the queries' own rules on
these values. The spec marks RES's reset value in R35 as its own inference from Decode of an
empty span. (70_reset_and_hazards.md R280, 10_state.md R35, 10_state.md R37, 42_decoder.md R190,
42_decoder.md R194, 42_decoder.md R197, 40_unframer.md R117, 40_unframer.md R118,
41_extractor.md R147, 42_decoder.md R193, 43_horodate.md R219) -/
def Obligations.ResetLeavesTheSpecValues : Prop :=
  ∀ s : State,
    let t := applyReset s
    (t.unf.sync = false ∧ t.unf.flen = 0 ∧ t.unf.fdrop = false ∧ t.unf.ovf = 0 ∧
      t.unf.hwr = 0 ∧ t.unf.hcnt = 0) ∧
    (t.ext.sync = false ∧ t.ext.len = 0 ∧ t.ext.drop = false ∧ t.ext.ovf = 0) ∧
    (t.hin.len = 0 ∧ t.hin.drop = false) ∧ (t.cmp.len = 0 ∧ t.cmp.overflow = false) ∧
    (t.res.status = .malformed ∧ t.res.src = .dbuf ∧ t.res.labelOff = 0 ∧ t.res.labelLen = 0 ∧
      t.res.valueOff = 0 ∧ t.res.valueLen = 0 ∧ t.res.ckSeen = false ∧ t.res.ckRx = 0 ∧
      t.res.ckCalc = 0 ∧ t.res.horoPresent = false ∧ t.res.horo = t.ref) ∧
    (t.ref.season = .malformed ∧ t.ref.degraded = false ∧ t.ref.year.toNat = 2000 ∧
      t.ref.month = 0 ∧ t.ref.day = 0 ∧ t.ref.hour = 0 ∧ t.ref.minute = 0 ∧ t.ref.second = 0 ∧
      t.ref.valid = false) ∧
    t.cfg = s.cfg ∧
    exec .unfSync t = .next (answered 0 t) ∧ exec .extSync t = .next (answered 0 t) ∧
    exec .unfMaxsz t = .next (answered 0 t) ∧ exec .decIsvalid t = .next (answered 0 t) ∧
    exec .horoCmp t = .next (answered 0 t) ∧ exec .decU32 t = .next (answered 0xFFFFFFFF t) ∧
    exec .cmpLabel t = .next (answered 1 t)

/-- In every state of a valid build, BLOCK_RESET and a step on the reset input leave equal units,
result, REF and compare buffer, every element of every space reads equal after both, and both
keep the build. Equal elements are the model's form of contents that R280 and I3 leave
unspecified: both resets advance the epoch of the free values alike (log entries 2 and 3). The
spec marks R281 as its own inference from R280 and R233. (70_reset_and_hazards.md R280,
44_system.md R233, 93_implementation_defined.md I3) -/
def Obligations.BothResetsAreIndistinguishable : Prop :=
  ∀ (s : State) (rest : List HostAction), s.cfg.valid = true →
    ∃ t u, exec .blockReset s = .next t ∧
      Machine.step { s with host := .resetInput :: rest } = .next u ∧
      t.unf = u.unf ∧ t.ext = u.ext ∧ t.hin = u.hin ∧ t.res = u.res ∧ t.ref = u.ref ∧
      t.cmp = u.cmp ∧ (∀ sp i, elemAt t sp i = elemAt u sp i) ∧
      t.cfg = s.cfg ∧ u.cfg = s.cfg

/-- For every state BLOCK_RESET's next state has every unit as ApplyReset leaves it, the response
{0, 0}, and the event port, the build and the host's script unchanged. The model's form of
'unspecified reset contents' (DESIGN CHOICE, log entries 2 and 3): the five spaces then read as
the free values of the advanced epoch at every index, whatever they held. (44_system.md R233,
70_reset_and_hazards.md R280, 20_memory.md R72, 93_implementation_defined.md I3) -/
def Obligations.BlockResetAppliesReset : Prop :=
  ∀ s : State, ∃ t, exec .blockReset s = .next t ∧
    t.unf = (applyReset s).unf ∧ t.ext = (applyReset s).ext ∧ t.hin = (applyReset s).hin ∧
    t.res = (applyReset s).res ∧ t.ref = (applyReset s).ref ∧ t.cmp = (applyReset s).cmp ∧
    t.resp = some { illegal := false, data := 0 } ∧
    t.evPort = s.evPort ∧ t.cfg = s.cfg ∧ t.host = s.host ∧
    ∀ i : Nat,
      elemAt t .fbuf i = zext32 (Config.freeByte (s.epoch + 1) 0 i).toNat ∧
      elemAt t .dbuf i = zext32 (Config.freeByte (s.epoch + 1) 1 i).toNat ∧
      elemAt t .hin i = zext32 (Config.freeByte (s.epoch + 1) 2 i).toNat ∧
      elemAt t .cmp i = zext32 (Config.freeByte (s.epoch + 1) 4 i).toNat ∧
      elemAt t .hist i = zext32 (Config.freeEntry (s.epoch + 1) i % 2 ^ s.cfg.lenW)

/-- For every read command of R65 and every state there is a response r such that the next state is
the old state with r on the response port, and issuing the command again in that state answers r
again. The spec marks R65 as its own inference from these commands' rules. (44_system.md R231,
44_system.md R232, 40_unframer.md R117, 41_extractor.md R147, 40_unframer.md R118, 42_decoder.md
R193, 42_decoder.md R194, 42_decoder.md R197, 43_horodate.md R219) -/
def Obligations.ReadsHaveNoSideEffect : Prop :=
  ∀ (i : Instr) (s : State), isRead i = true →
    ∃ r : Response, exec i s = .next { s with resp := some r } ∧
      exec i { s with resp := some r } = .next { s with resp := some r }

/-- For every state and register, REG_READ's next state is the old one with RegValue on the response
port; the registers that hold one element read it zero-extended, and CFG_FRAME_MAX reads 0 in
ON_THE_FLY mode. (10_state.md R45, 44_system.md R231) -/
def Obligations.PlainRegistersReadTheirElement : Prop :=
  ∀ s : State,
    (∀ r, exec (.regRead r) s = .next (answered (regValue s r) s)) ∧
    (s.cfg.mode = .cached → regValue s .cfgFrameMax = BitVec.ofNat 32 s.cfg.frameMax) ∧
    (s.cfg.mode = .onTheFly → regValue s .cfgFrameMax = 0) ∧
    regValue s .cfgDsMax = BitVec.ofNat 32 s.cfg.dsMax ∧
    regValue s .cfgHistDepth = BitVec.ofNat 32 s.cfg.histDepth ∧
    regValue s .unfFlen = BitVec.ofNat 32 s.unf.flen ∧
    regValue s .unfHcnt = BitVec.ofNat 32 s.unf.hcnt ∧
    regValue s .unfHwr = BitVec.ofNat 32 s.unf.hwr ∧
    exec .unfMaxsz s = .next (answered (regValue s .unfMaxsz) s) ∧
    regValue s .unfOvf = BitVec.ofNat 32 s.unf.ovf ∧
    regValue s .extLen = BitVec.ofNat 32 s.ext.len ∧
    regValue s .extOvf = BitVec.ofNat 32 s.ext.ovf ∧
    regValue s .hinLen = BitVec.ofNat 32 s.hin.len ∧
    regValue s .resLabelOff = BitVec.ofNat 32 s.res.labelOff ∧
    regValue s .resLabelLen = BitVec.ofNat 32 s.res.labelLen ∧
    regValue s .resValueOff = BitVec.ofNat 32 s.res.valueOff ∧
    regValue s .resValueLen = BitVec.ofNat 32 s.res.valueLen

/-- For every state: each bit of STATUS is its flag; CONFIG (of a valid build), RES_STATUS, RES_CK,
HORO0 to HORO2 of RES and REF and CMP_LEN (when CMP.len is at most 8) hold their fields in the
slots of R45 and read 0 elsewhere. STATUS reads as 0 MALFORMED, 1 WRONG_CRC, 2 VALID_HIST, 3
VALID_STD; SEASON as 0 UNKNOWN, 1 WINTER, 2 SUMMER, 3 MALFORMED; RES.src as 0 DBUF, 1 HIN; MODE
as 0 CACHED, 1 ON_THE_FLY; LF_POLICY as 0 REOPEN, 1 DESYNC, 2 DATA; the frame close causes are 0
END and 1 RESTART. (10_state.md R45, 30_encoding.md R92) -/
def Obligations.PackedRegistersHoldTheirFields : Prop :=
  ∀ s : State,
    let flag : Bool → Nat := fun b => if b then 1 else 0
    let seasonNumber : Season → Nat := fun x => match x with
      | .unknown => 0
      | .winter => 1
      | .summer => 2
      | .malformed => 3
    let statusNumber : Status → Nat := fun x => match x with
      | .malformed => 0
      | .wrongCrc => 1
      | .validHist => 2
      | .validStd => 3
    let horoWords : Horo → Reg → Reg → Reg → Prop := fun h r0 r1 r2 =>
      field (regValue s r0) 1 0 = seasonNumber h.season ∧
      field (regValue s r0) 2 2 = flag h.degraded ∧
      field (regValue s r0) 3 3 = flag h.valid ∧ field (regValue s r0) 15 4 = 0 ∧
      field (regValue s r0) 31 16 = h.year.toNat ∧
      field (regValue s r1) 7 0 = h.month.toNat ∧ field (regValue s r1) 15 8 = h.day.toNat ∧
      field (regValue s r1) 23 16 = h.hour.toNat ∧ field (regValue s r1) 31 24 = h.minute.toNat ∧
      regValue s r2 = BitVec.ofNat 32 h.second.toNat
    (field (regValue s .status) 0 0 = flag s.unf.sync ∧
      field (regValue s .status) 1 1 = flag s.ext.sync ∧
      field (regValue s .status) 2 2 = flag s.unf.fdrop ∧
      field (regValue s .status) 3 3 = flag s.ext.drop ∧
      field (regValue s .status) 4 4 = flag s.hin.drop ∧
      field (regValue s .status) 5 5 = flag s.cmp.overflow ∧
      field (regValue s .status) 31 6 = 0) ∧
    (s.cfg.valid = true →
      field (regValue s .config) 0 0 = (if s.cfg.mode = .cached then 0 else 1) ∧
      field (regValue s .config) 2 1 =
        (if s.cfg.lfPolicy = .reopen then 0 else if s.cfg.lfPolicy = .desync then 1 else 2) ∧
      field (regValue s .config) 7 3 = 0 ∧ field (regValue s .config) 13 8 = s.cfg.lenW ∧
      field (regValue s .config) 19 14 = s.cfg.cntW ∧ field (regValue s .config) 31 20 = 0) ∧
    (field (regValue s .resStatus) 1 0 = statusNumber s.res.status ∧
      field (regValue s .resStatus) 2 2 = (if s.res.src = .dbuf then 0 else 1) ∧
      field (regValue s .resStatus) 3 3 = flag s.res.horoPresent ∧
      field (regValue s .resStatus) 31 4 = 0) ∧
    (field (regValue s .resCk) 7 0 = s.res.ckRx.toNat ∧
      field (regValue s .resCk) 15 8 = s.res.ckCalc.toNat ∧
      field (regValue s .resCk) 16 16 = flag s.res.ckSeen ∧
      field (regValue s .resCk) 31 17 = 0) ∧
    horoWords s.res.horo .resHoro0 .resHoro1 .resHoro2 ∧
    horoWords s.ref .refHoro0 .refHoro1 .refHoro2 ∧
    (s.cmp.len ≤ 8 → regValue s .cmpLen = BitVec.ofNat 32 s.cmp.len) ∧
    (Cause.code .endMarker = 0 ∧ Cause.code .restart = 1)

/-- For every state, space and index: if the space is FBUF in ON_THE_FLY mode or the index is at or
above the capacity of R60, the answer is {illegal 1, data 0} and nothing else changes; otherwise
the answer is the zero-extended element and nothing else changes. Its word is 0x12000000 | sp <<
20 | idx, and a word of its opcode with a space id of 5 or more is refused. (R232) -/
def Obligations.BufReadAnswersTheElementOrRefuses : Prop :=
  (∀ (sp : Space) (idx : Nat), idx < 2 ^ 20 →
    decode (0x12000000#32 ||| BitVec.ofNat 32 (sp.id * 2 ^ 20) ||| BitVec.ofNat 32 idx) =
      .ok (.bufRead sp idx)) ∧
  (∀ (w : Word) (s : State), field w 31 24 = 0x12 → 5 ≤ field w 23 20 →
    runWord w s = .next (answeredIllegal s)) ∧
  ∀ (s : State) (sp : Space) (idx : Nat),
    let cap : Nat := match sp with
      | .fbuf => s.cfg.frameMax
      | .dbuf => s.cfg.dsMax
      | .hin => s.cfg.dsMax
      | .hist => s.cfg.histDepth
      | .cmp => 8
    ((sp = .fbuf ∧ s.cfg.mode = .onTheFly) ∨ cap ≤ idx →
      exec (.bufRead sp idx) s = .next (answeredIllegal s)) ∧
    (¬ (sp = .fbuf ∧ s.cfg.mode = .onTheFly) → idx < cap →
      exec (.bufRead sp idx) s = .next (answered (elemAt s sp idx) s))

/-- In every ready state of a valid build whose host issues word w: if w meets (a), (b), (c) or (d)
of R96 the step answers {illegal 1, data 0} and changes nothing else; otherwise the step answers
a response with illegal 0. (R96) -/
def Obligations.RefusedWordsAnswerIllegal : Prop :=
  ∀ (s : State) (w : Word) (rest : List HostAction),
    s.cfg.valid = true → s.evPort = [] → s.host = .issue w :: rest →
    (refusedWord s.cfg.mode (capacity s.cfg) w = true →
      Machine.step s = .next (answeredIllegal { s with host := rest })) ∧
    (refusedWord s.cfg.mode (capacity s.cfg) w = false →
      ∃ t d, Machine.step s = .next t ∧ t.resp = some { illegal := false, data := d })

/-- For every command whose operands fit their fields, the decoder reads the encoder's word as that
command; a splitting bus delivering the word's bytes, low byte first, gives the same. The spec
marks the exact field assignment (R99) as its own inference from R88 and R90. The splitting bus
rests on R63 (d) and D25, in the form of log entry 13 (DEDUCED). (30_encoding.md R88,
30_encoding.md R90, 20_memory.md R63, 92_eei_decisions.md D25) -/
def Obligations.DecodingAnEncodedCommandGivesItBack : Prop :=
  ∀ i : Instr, i.wf = true →
    decode (encode i) = .ok i ∧ ∀ rest, decodeBus (busOfWord (encode i) ++ rest) = .ok (i, rest)

/-- If decode w is i, then i is well formed and encode i is w. The spec marks R93 (decoding is total
and no word has two meanings) as its own inference from R88, R90 and R96. (30_encoding.md R88,
30_encoding.md R90, 30_encoding.md R96) -/
def Obligations.EveryAcceptedWordIsItsCommandsEncoding : Prop :=
  ∀ (w : Word) (i : Instr), decode w = .ok i → i.wf = true ∧ encode i = w

/-- Each format N command's word is its opcode of R90 over zeros and each format B command's its
opcode over its byte, for every byte, and a nonzero must-be-zero field is refused; 0x11000000 +
n decodes to REG_READ of the n-th register of R45 for n from 0 to 0x19, a larger n or a nonzero
[23:8] is refused; 0x12000000 + sp * 2^20 + idx decodes to BUF_READ of the space with id sp of
R60. unf.push 0x02 is 0x01000002, reg.read UNF_MAXSZ is 0x11000008, buf.read dbuf, 3 is
0x12100003 and dec.run is 0x09000000, both as encoder output and as decoder input; and every
well-formed command's word is its opcode in [31:24] over its 24-bit operand field. The spec
marks R99 as its own inference from R88 and R90. (30_encoding.md R88, 30_encoding.md R90,
30_encoding.md R96, 10_state.md R45, 20_memory.md R60) -/
def Obligations.WordsOfTheSpecDecodeAsWritten : Prop :=
  let registers : List Reg :=
    [.status, .config, .cfgFrameMax, .cfgDsMax, .cfgHistDepth, .unfFlen, .unfHcnt, .unfHwr,
     .unfMaxsz, .unfOvf, .extLen, .extOvf, .hinLen, .resStatus, .resLabelOff, .resLabelLen,
     .resValueOff, .resValueLen, .resCk, .resHoro0, .resHoro1, .resHoro2, .refHoro0,
     .refHoro1, .refHoro2, .cmpLen]
  let spaces : List Space := [.fbuf, .dbuf, .hin, .hist, .cmp]
  (encodedN 0x00 .nop ∧ encodedN 0x02 .unfSync ∧ encodedN 0x03 .unfMaxsz ∧
    encodedN 0x05 .extReset ∧ encodedN 0x06 .extSync ∧ encodedN 0x07 .decClear ∧
    encodedN 0x09 .decRun ∧ encodedN 0x0A .decIsvalid ∧ encodedN 0x0B .decU32 ∧
    encodedN 0x0C .cmpClear ∧ encodedN 0x0E .cmpLabel ∧ encodedN 0x0F .horoSave ∧
    encodedN 0x10 .horoCmp ∧ encodedN 0x13 .blockReset) ∧
  (encodedB 0x01 .unfPush ∧ encodedB 0x04 .extPush ∧ encodedB 0x08 .decAppend ∧
    encodedB 0x0D .cmpAppend) ∧
  ((∀ n r, registers[n]? = some r →
      decode (BitVec.ofNat 32 (0x11000000 + n)) = .ok (.regRead r)) ∧
    ∀ w s, field w 31 24 = 0x11 → field w 23 8 ≠ 0 ∨ 0x1A ≤ field w 7 0 →
      runWord w s = .next (answeredIllegal s)) ∧
  (∀ n sp idx, spaces[n]? = some sp → idx < 2 ^ 20 →
    decode (BitVec.ofNat 32 (0x12000000 + 0x100000 * n + idx)) = .ok (.bufRead sp idx)) ∧
  encode (.unfPush 0x02) = 0x01000002 ∧ decode 0x01000002 = .ok (.unfPush 0x02) ∧
  encode (.regRead .unfMaxsz) = 0x11000008 ∧ decode 0x11000008 = .ok (.regRead .unfMaxsz) ∧
  encode (.bufRead .dbuf 3) = 0x12100003 ∧ decode 0x12100003 = .ok (.bufRead .dbuf 3) ∧
  encode .decRun = 0x09000000 ∧ decode 0x09000000 = .ok .decRun ∧
  (∀ i : Instr, i.wf = true →
    field (encode i) 31 24 = i.opcode ∧ field (encode i) 23 0 = i.operandField)

/-- In a ready state of a valid build whose host issues w: if decode w is i, step is exec i in the
state with that action taken off the host's script; if decode refuses w, step answers {illegal
1, data 0}. A row of the opcode table placed with withFetchWord runs as its decoded command. The
spec marks R93 (every word is one command or refused) as its own inference from R88, R90 and
R96. The host's script and withFetchWord are the model's (log entry 4, DESIGN CHOICE), and so is
the word of a table row (log entry 15, DEDUCED). (30_encoding.md R87, 00_scope.md R11,
30_encoding.md R88, 30_encoding.md R90, 30_encoding.md R96) -/
def Obligations.StepRunsTheDecodedCommand : Prop :=
  (∀ (s : State) (w : Word) (rest : List HostAction),
    s.cfg.valid = true → s.evPort = [] → s.host = .issue w :: rest →
    (∀ i, decode w = .ok i → Machine.step s = exec i { s with host := rest }) ∧
    (∀ e, decode w = .error e →
      Machine.step s = .next (answeredIllegal { s with host := rest }))) ∧
  (∀ (s : State) (nbits w : Nat) (i : Instr), s.cfg.valid = true →
    decodeTableWord nbits w = some i →
    Machine.step (s.withFetchWord nbits w) = exec i { s with evPort := [] })

/-- In a valid build with events pending, a step on an offered command changes nothing, however
often it is repeated; a step on takeEvent removes the oldest event; with nothing to do the state
holds; the reset input applies the reset without a response or an event. The host script and the
ports are the model's (log entries 4, 5 and 7). (70_reset_and_hazards.md R285,
70_reset_and_hazards.md R284) -/
def Obligations.CommandsWaitForTheEventDrain : Prop :=
  ∀ (s : State) (rest : List HostAction), s.cfg.valid = true →
    (∀ w e es, s.evPort = e :: es → s.host = .issue w :: rest → Machine.step s = .next s) ∧
    (∀ e es, s.evPort = e :: es → s.host = .takeEvent :: rest →
      Machine.step s = .next { s with evPort := es, host := rest }) ∧
    (s.evPort = [] → s.host = .takeEvent :: rest →
      Machine.step s = .next { s with host := rest }) ∧
    (s.host = [] → Machine.step s = .next s) ∧
    (s.host = .resetInput :: rest →
      Machine.step s = .next { applyReset s with resp := none, host := rest })

/-- For every command and state exec answers a next state with a response; for every state of a
valid build step answers a next state. It states the first two sentences of R250.
(60_exceptions.md R250, 60_exceptions.md R252) -/
def Obligations.NoCommandEverStops : Prop :=
  (∀ (i : Instr) (s : State), ∃ t r, exec i s = .next t ∧ t.resp = some r) ∧
  (∀ s : State, s.cfg.valid = true → ∃ t, Machine.step s = .next t)

/-- A build is valid exactly when it meets the five bounds of R283, and step refuses every state of
an invalid build as invalidBuild (the model's form of I9, log entry 8).
(93_implementation_defined.md I9, 70_reset_and_hazards.md R283) -/
def Obligations.InvalidBuildIsRefused : Prop :=
  (∀ c : Config, c.valid = true ↔
    1 ≤ c.frameMax ∧ c.frameMax ≤ min (2 ^ c.lenW - 1) (2 ^ 20) ∧
    1 ≤ c.dsMax ∧ c.dsMax ≤ min (2 ^ c.lenW - 1) (2 ^ 20) ∧
    1 ≤ c.histDepth ∧ c.histDepth ≤ 2 ^ 20 ∧
    8 ≤ c.lenW ∧ c.lenW ≤ 32 ∧ 1 ≤ c.cntW ∧ c.cntW ≤ 32) ∧
  (∀ s : State, s.cfg.valid = false → Machine.step s = .refused .invalidBuild)

/-- If a step answers a next state its build is the old one; if a command does, its build and the
host's script are the old ones. The script is the model's own field State.host (log entry 4,
DESIGN CHOICE); R41 and R7 give the build part. (10_state.md R41, 00_scope.md R7) -/
def Obligations.NoStepChangesTheBuild : Prop :=
  (∀ s t : State, Machine.step s = .next t → t.cfg = s.cfg) ∧
  (∀ (i : Instr) (s t : State), exec i s = .next t → t.cfg = s.cfg ∧ t.host = s.host)

/-- For every command the events on the port before it stay, in order and first, and its own follow,
exactly these: DEC_RUN the RECORD of its decode; EXT_PUSH of an end marker InSync the DATASET of
DBUF[0 .. EXT.len) and then its RECORD; UNF_PUSH of payload in ON_THE_FLY mode FRAME_BYTES([b])
and then the events of EXT_PUSH b; UNF_PUSH of a marker InSync FRAME_BYTES of the stored payload
unless it is empty (CACHED mode), then the events of EXT_PUSH of its bytes one by one, then
FRAME_COMPLETE; every other command, and every other byte, none. The port as a list is the
model's (log entry 5, DESIGN CHOICE). The spec marks R255 as its own inference from R111, R113,
R141, R143 and R170. (00_scope.md R14, 40_unframer.md R111, 40_unframer.md R113, 41_extractor.md
R141, 41_extractor.md R143, 42_decoder.md R170, 42_decoder.md R186) -/
def Obligations.CommandsOnlyAppendEvents : Prop :=
  ∀ (i : Instr) (s t : State), exec i s = .next t →
    ∃ es, t.evPort = s.evPort ++ es ∧
      ((∀ b, i ≠ .unfPush b ∧ i ≠ .extPush b) → i ≠ .decRun → es = []) ∧
      (i = .decRun →
        let d := srcSpan s .hin 0 s.hin.len
        es = [recordEvent d (decodeDataset .hin d)]) ∧
      (∀ b, i = .extPush b →
        let d := srcSpan s .dbuf 0 s.ext.len
        es = if s.ext.sync = true ∧ (b = 0x0D ∨ (b = 0x0A ∧ s.cfg.lfPolicy ≠ .data)) then
            [.dataset d s.ext.drop, recordEvent d (decodeDataset .dbuf d)]
          else []) ∧
      (∀ b, i = .unfPush b →
        (s.unf.sync = false → es = []) ∧
        (s.unf.sync = true → b ≠ 0x02 → b ≠ 0x03 →
          (s.cfg.mode = .cached → es = []) ∧
          (s.cfg.mode = .onTheFly → ∃ u own, exec (.extPush b) s = .next u ∧
            u.evPort = s.evPort ++ own ∧ es = .frameBytes [b] :: own)) ∧
        (s.unf.sync = true → b = 0x02 ∨ b = 0x03 →
          let payload := if s.cfg.mode = .cached then fbufSpan s s.unf.flen else []
          ∃ u own, execAll (payload.map .extPush) s = .next u ∧ u.evPort = s.evPort ++ own ∧
            es = (if payload = [] then [] else [.frameBytes payload]) ++ own ++
              [.frameComplete (if b = 0x03 then .endMarker else .restart) s.unf.fdrop]))

/-- For every state UNF_SYNC answers UNF.sync, EXT_SYNC answers EXT.sync, and DEC_ISVALID answers 1
exactly for the statuses VALID_HIST and VALID_STD; nothing but the response port changes. Their
words and the refusal of a nonzero must-be-zero field are stated as well. (R117, R147, R193) -/
def Obligations.FlagQueriesAnswerTheirFlag : Prop :=
  encodedN 0x02 .unfSync ∧ encodedN 0x06 .extSync ∧ encodedN 0x0A .decIsvalid ∧
  ∀ s : State,
    exec .unfSync s = .next (answered (if s.unf.sync then 1 else 0) s) ∧
    exec .extSync s = .next (answered (if s.ext.sync then 1 else 0) s) ∧
    exec .decIsvalid s = .next (answered
      (if s.res.status = .validHist ∨ s.res.status = .validStd then 1 else 0) s)

/-- For every state UNF_MAXSZ answers a number m and changes nothing: m is 0 if UNF.hcnt is 0;
otherwise m is one of HIST[0 .. hcnt) and no entry there exceeds it. Its word and the refusal of
a nonzero must-be-zero field are stated as well. (40_unframer.md R118) -/
def Obligations.MaxSizeIsTheMaximumOfTheHistory : Prop :=
  encodedN 0x03 .unfMaxsz ∧
  ∀ s : State, ∃ m : Nat, exec .unfMaxsz s = .next (answered (BitVec.ofNat 32 m) s) ∧
    (s.unf.hcnt = 0 → m = 0) ∧
    (s.unf.hcnt ≠ 0 → (∃ i, i < s.unf.hcnt ∧ histEntry s i = m) ∧
      ∀ i, i < s.unf.hcnt → histEntry s i ≤ m)

/-- For every state with UNF.sync = 0 and every byte other than 0x02, UNF_PUSH answers consumed = 1
and changes nothing but the response port. The spec marks R112 as its own inference from R111.
(40_unframer.md R111) -/
def Obligations.NoiseOutOfSyncChangesNothing : Prop :=
  ∀ (s : State) (b : Byte), s.unf.sync = false → b ≠ 0x02 →
    exec (.unfPush b) s = .next (answered 1 s)

/-- For every state with UNF.sync = 0, UNF_PUSH 0x02 answers 1, sets UNF.sync, clears UNF.flen and
UNF.fdrop and changes nothing else. (40_unframer.md R111) -/
def Obligations.StartMarkerOpensAFrame : Prop :=
  ∀ s : State, s.unf.sync = false →
    exec (.unfPush 0x02) s =
      .next (answered 1 { s with unf.sync := true, unf.flen := 0, unf.fdrop := false })

/-- For every state with UNF.sync = 1, UNF_PUSH 0x02 answers 1, its last event is
FRAME_COMPLETE(RESTART, UNF.fdrop), no other event of the step is a frame close, and afterwards
UNF.sync = 1, UNF.flen = 0 and UNF.fdrop = 0. The spec marks the net state of R114 as its own
inference from R111 and R113. (40_unframer.md R111, 40_unframer.md R113, 40_unframer.md R114) -/
def Obligations.RestartReentersWithAnEmptyFrame : Prop :=
  ∀ s : State, s.unf.sync = true →
    ∃ t es, exec (.unfPush 0x02) s = .next t ∧ t.resp = some { illegal := false, data := 1 } ∧
      t.evPort = s.evPort ++ es ++ [.frameComplete .restart s.unf.fdrop] ∧ closesOf es = [] ∧
      t.unf.sync = true ∧ t.unf.flen = 0 ∧ t.unf.fdrop = false

/-- For every ON_THE_FLY state with UNF.sync = 1 and b = 0x03 or 0x02: UNF_PUSH b answers 1, emits
exactly FRAME_COMPLETE(END or RESTART, UNF.fdrop), leaves UNF.sync 0 or 1, flen and fdrop 0, the
extractor OutOfSync and empty with DBUF and EXT.ovf as they were, and RES, HIN, REF and CMP
unchanged. The spec marks the event order of R255 as its own inference from these rules.
(40_unframer.md R113, 41_extractor.md R146) -/
def Obligations.OnTheFlyCloseSignalsAndResetsTheExtractor : Prop :=
  ∀ (s : State) (b : Byte), s.cfg.mode = .onTheFly → s.unf.sync = true →
    b = 0x03 ∨ b = 0x02 →
    ∃ t, exec (.unfPush b) s = .next t ∧ t.resp = some { illegal := false, data := 1 } ∧
      t.evPort = s.evPort ++
        [.frameComplete (if b = 0x03 then .endMarker else .restart) s.unf.fdrop] ∧
      t.unf.sync = decide (b = 0x02) ∧ t.unf.flen = 0 ∧ t.unf.fdrop = false ∧
      t.unf.ovf = s.unf.ovf ∧ t.unf.fbuf = s.unf.fbuf ∧
      t.ext = { s.ext with sync := false, len := 0, drop := false } ∧
      t = { s with unf := t.unf, ext := t.ext, evPort := t.evPort, resp := t.resp }

/-- For every CACHED state with UNF.sync = 1 and b = 0x03 or 0x02, let F be FBUF[0 .. flen).
UNF_PUSH b answers 1 and emits FRAME_BYTES(F) if F is not empty, then exactly the events that
EXT_PUSH of F's bytes emits, then FRAME_COMPLETE; RES and DBUF are as those pushes leave them;
the extractor ends OutOfSync and empty; FBUF is unchanged. The spec marks the event order of
R255 as its own inference from these rules. (40_unframer.md R113, 41_extractor.md R146) -/
def Obligations.CachedCloseDeliversThenSignals : Prop :=
  ∀ (s : State) (b : Byte), s.cfg.mode = .cached → s.unf.sync = true →
    b = 0x03 ∨ b = 0x02 →
    let payload := fbufSpan s s.unf.flen
    ∃ t u es, exec (.unfPush b) s = .next t ∧ t.resp = some { illegal := false, data := 1 } ∧
      execAll (payload.map .extPush) s = .next u ∧ u.evPort = s.evPort ++ es ∧
      t.evPort = s.evPort ++ (if s.unf.flen = 0 then [] else [.frameBytes payload]) ++ es ++
        [.frameComplete (if b = 0x03 then .endMarker else .restart) s.unf.fdrop] ∧
      t.res = u.res ∧ t.ext = { u.ext with sync := false, len := 0, drop := false } ∧
      t.unf.sync = decide (b = 0x02) ∧ t.unf.flen = 0 ∧ t.unf.fdrop = false ∧
      t.unf.ovf = s.unf.ovf ∧ t.unf.fbuf = s.unf.fbuf ∧
      t = { s with unf := t.unf, ext := t.ext, res := t.res, evPort := t.evPort, resp := t.resp }

/-- For every state with UNF.sync = 1 and b = 0x03 or 0x02: after UNF_PUSH b, HIST[old hwr] is the
old flen, every other entry reads as before, hwr is advanced modulo HIST_DEPTH, and hcnt is
incremented up to HIST_DEPTH. (40_unframer.md R116, 40_unframer.md R113) -/
def Obligations.FrameCloseRecordsTheSizeInTheRing : Prop :=
  ∀ (s : State) (b : Byte), s.unf.sync = true → b = 0x03 ∨ b = 0x02 →
    ∃ t, exec (.unfPush b) s = .next t ∧
      histEntry t s.unf.hwr = s.unf.flen ∧
      (∀ i, i ≠ s.unf.hwr → histEntry t i = histEntry s i) ∧
      t.unf.hwr = (s.unf.hwr + 1) % s.cfg.histDepth ∧
      t.unf.hcnt = min (s.unf.hcnt + 1) s.cfg.histDepth

/-- For every ON_THE_FLY state with UNF.sync = 1 and every byte that is no frame marker: UNF_PUSH b
answers 1 whatever the extractor does, emits FRAME_BYTES([b]) and then the events EXT_PUSH b
emits, leaves EXT and RES as EXT_PUSH b does, and in UNF changes only flen, incremented and
saturating at 2^LEN_W - 1. The spec marks the event order of R255 as its own inference from
these rules. (40_unframer.md R111, 40_unframer.md R115) -/
def Obligations.OnTheFlyPayloadIsForwardedToTheExtractor : Prop :=
  ∀ (s : State) (b : Byte), s.cfg.mode = .onTheFly → s.unf.sync = true →
    b ≠ 0x02 → b ≠ 0x03 →
    ∃ t u es, exec (.unfPush b) s = .next t ∧ t.resp = some { illegal := false, data := 1 } ∧
      exec (.extPush b) s = .next u ∧ u.evPort = s.evPort ++ es ∧
      t.evPort = s.evPort ++ .frameBytes [b] :: es ∧ t.ext = u.ext ∧ t.res = u.res ∧
      t.unf = { s.unf with flen :=
        if s.unf.flen < 2 ^ s.cfg.lenW - 1 then s.unf.flen + 1 else s.unf.flen } ∧
      t = { s with unf := t.unf, ext := t.ext, res := t.res, evPort := t.evPort, resp := t.resp }

/-- For every CACHED state with UNF.sync = 1 and every byte that is no frame marker. With flen <
FRAME_MAX: UNF_PUSH b answers 1, FBUF[flen] reads b, every other element of every space reads as
before, flen is incremented, and nothing else changes. Otherwise it answers 0, sets UNF.fdrop,
increments UNF.ovf saturating at 2^CNT_W - 1, and nothing else changes. (40_unframer.md R111,
10_state.md R24, 60_exceptions.md R253) -/
def Obligations.CachedPayloadIsStoredOrDropped : Prop :=
  ∀ (s : State) (b : Byte), s.cfg.mode = .cached → s.unf.sync = true → b ≠ 0x02 → b ≠ 0x03 →
    (∀ a, unfAction s.cfg s.unf b = .store a →
      ∃ t, exec (.unfPush b) s = .next t ∧ a = s.unf.flen ∧ s.unf.flen < s.cfg.frameMax ∧
        t.resp = some { illegal := false, data := 1 } ∧
        elemAt t .fbuf a = BitVec.ofNat 32 b.toNat ∧
        (∀ sp i, ¬ (sp = .fbuf ∧ i = a) → elemAt t sp i = elemAt s sp i) ∧
        t = { s with unf.fbuf := t.unf.fbuf, unf.flen := s.unf.flen + 1, resp := t.resp }) ∧
    (s.unf.flen < s.cfg.frameMax → unfAction s.cfg s.unf b = .store s.unf.flen) ∧
    (s.cfg.frameMax ≤ s.unf.flen →
      exec (.unfPush b) s = .next (answered 0 { s with
        unf.fdrop := true
        unf.ovf := if s.unf.ovf < 2 ^ s.cfg.cntW - 1 then s.unf.ovf + 1 else s.unf.ovf }))

/-- For every state and byte UNF_PUSH answers a next state in which only UNF, EXT, RES and the two
ports may differ; FBUF differs only at the stored index, HIST only at hwr on a close, DBUF only
at the index the forwarded byte is stored to or those the delivered span is stored to; HIN and
CMP not at all; RES only when a dataset may be delivered; and EXT only when a byte is forwarded
or a frame closes. (40_unframer.md R110, 40_unframer.md R111, 20_memory.md R60) -/
def Obligations.UnfPushLeavesTheRestAlone : Prop :=
  ∀ (s : State) (b : Byte), ∃ t, exec (.unfPush b) s = .next t ∧
    t = { s with unf := t.unf, ext := t.ext, res := t.res, evPort := t.evPort, resp := t.resp } ∧
    (∀ i, (∀ a, unfAction s.cfg s.unf b = .store a → i ≠ a) →
      elemAt t .fbuf i = elemAt s .fbuf i) ∧
    (∀ i, (∀ c, unfAction s.cfg s.unf b = .close c → i ≠ s.unf.hwr) →
      elemAt t .hist i = elemAt s .hist i) ∧
    (∀ i, (unfAction s.cfg s.unf b = .forward →
        ∀ a, extAction s.cfg s.ext b = .store a → i ≠ a) →
      (∀ c, unfAction s.cfg s.unf b = .close c →
        i ∉ feedStores (closePayload s) (emit (.frameBytes (closePayload s)) s)) →
      elemAt t .dbuf i = elemAt s .dbuf i) ∧
    (∀ i, elemAt t .hin i = elemAt s .hin i ∧ elemAt t .cmp i = elemAt s .cmp i) ∧
    ((∀ c, unfAction s.cfg s.unf b ≠ .close c) →
      (unfAction s.cfg s.unf b = .forward → ∀ r, extAction s.cfg s.ext b ≠ .closeDataset r) →
      t.res = s.res) ∧
    ((∀ c, unfAction s.cfg s.unf b ≠ .close c) → unfAction s.cfg s.unf b ≠ .forward →
      t.ext = s.ext ∧ t.evPort = s.evPort)

/-- For every state and byte UNF_PUSH answers consumed = 0 exactly when UNF.sync = 1, the build is
CACHED, the byte is no frame marker and UNF.flen is at or above FRAME_MAX; in every other case,
an extractor drop included, it answers 1. (40_unframer.md R110, 92_eei_decisions.md D3,
92_eei_decisions.md D36) -/
def Obligations.UnfPushAnswersZeroOnlyWhenTheFrameBufferIsFull : Prop :=
  ∀ (s : State) (b : Byte), ∃ t, exec (.unfPush b) s = .next t ∧
    ((s.unf.sync = true ∧ s.cfg.mode = .cached ∧ b ≠ 0x02 ∧ b ≠ 0x03 ∧
        s.cfg.frameMax ≤ s.unf.flen) →
      t.resp = some { illegal := false, data := 0 }) ∧
    (¬ (s.unf.sync = true ∧ s.cfg.mode = .cached ∧ b ≠ 0x02 ∧ b ≠ 0x03 ∧
        s.cfg.frameMax ≤ s.unf.flen) →
      t.resp = some { illegal := false, data := 1 })

/-- For every state and every P without frame markers (of at most FRAME_MAX bytes in CACHED mode):
UNF_PUSH 0x02 emits a frame close only if a frame was open, then with cause RESTART; then
UNF_PUSH of P's bytes and 0x03 emits FRAME_BYTES events whose bytes are P in all and exactly one
close, FRAME_COMPLETE(END, 0), as the last event, and leaves the unframer OutOfSync. The spec
marks R119 as its own inference from R111, R113 and R114. (40_unframer.md R111, 40_unframer.md
R113, 40_unframer.md R114) -/
def Obligations.ResynchronizationDeliversTheFrame : Prop :=
  ∀ (s : State) (payload : List Byte), (∀ b ∈ payload, b ≠ 0x02 ∧ b ≠ 0x03) →
    (s.cfg.mode = .cached → payload.length ≤ s.cfg.frameMax) →
    ∃ s1 es1 t es, exec (.unfPush 0x02) s = .next s1 ∧ s1.evPort = s.evPort ++ es1 ∧
      closesOf es1 = (if s.unf.sync then [(.restart, s.unf.fdrop)] else []) ∧
      execAll (Pseudo.expand (.unfPushs (payload ++ [0x03]))) s1 = .next t ∧
      t.evPort = s1.evPort ++ es ++ [.frameComplete .endMarker false] ∧
      payloadOf es = payload ∧ closesOf es = [] ∧ t.unf.sync = false

/-- From every state, UNF_PUSH 0x03 then 0x02 leaves the unframer InSync at an empty frame and the
extractor OutOfSync, and then EXT_PUSH 0x0a opens a dataset. The derived rule overlooks a state
with UNF OutOfSync and EXT InSync (EXT_PUSH 0x0a alone reaches it from reset), where by R111 no
frame closes and the extractor is not reset, as R40 (no command writes a flag as a side effect
other than those listed), 90_conflicts.md C7 and R146 (b) say, and R290 gives a host that mixes
EXT_PUSH with UNF_PUSH no other guarantee than R141 on the merged bytes; log entry 23. The spec
marks R258 as its own inference from R111 and R141. (40_unframer.md R111, 41_extractor.md R141) -/
def Obligations.RecoveryFromEveryStateAsWritten : Prop :=
  ∀ s : State, ∃ t u, execAll [.unfPush 0x03, .unfPush 0x02] s = .next t ∧
    t.unf.sync = true ∧ t.unf.flen = 0 ∧ t.ext.sync = false ∧
    exec (.extPush 0x0A) t = .next u ∧ u.ext.sync = true

/-- From every state with UNF.sync = 1 or EXT.sync = 0: UNF_PUSH 0x03 then 0x02 leaves UNF.sync = 1,
flen = 0, fdrop = 0 and EXT OutOfSync and, when a frame was open, empty; EXT_PUSH 0x0a then
answers 1 and opens an empty dataset. From every state the unframer part holds. No command but
EXT_PUSH leads out of these states, in which reset starts, so a stream that reaches the
extractor through UNF_PUSH alone is recovered as R258 says. The two bytes sent twice leave UNF
InSync at an empty frame and EXT OutOfSync and empty from every state whatever, and 0x0a then
opens an empty dataset, so no state is stuck (R258's first and last sentence; log entry 23).
(40_unframer.md R111, 40_unframer.md R113, 41_extractor.md R141) -/
def Obligations.RecoveryWhenAFrameIsOpenOrTheExtractorIdle : Prop :=
  (∀ s : State, ∃ t, execAll [.unfPush 0x03, .unfPush 0x02] s = .next t ∧
    t.unf.sync = true ∧ t.unf.flen = 0 ∧ t.unf.fdrop = false ∧
    (s.unf.sync = true ∨ s.ext.sync = false →
      t.ext.sync = false ∧
      exec (.extPush 0x0A) t =
        .next (answered 1 { t with ext.sync := true, ext.len := 0, ext.drop := false })) ∧
    (s.unf.sync = true → t.ext.len = 0 ∧ t.ext.drop = false)) ∧
  (∀ (i : Instr) (s t : State), (∀ b, i ≠ .extPush b) →
    (s.unf.sync = true ∨ s.ext.sync = false) → exec i s = .next t →
    t.unf.sync = true ∨ t.ext.sync = false) ∧
  ∀ s : State, ∃ t,
    execAll [.unfPush 0x03, .unfPush 0x02, .unfPush 0x03, .unfPush 0x02] s = .next t ∧
    t.unf.sync = true ∧ t.unf.flen = 0 ∧ t.unf.fdrop = false ∧
    t.ext.sync = false ∧ t.ext.len = 0 ∧ t.ext.drop = false ∧
    exec (.extPush 0x0A) t =
      .next (answered 1 { t with ext.sync := true, ext.len := 0, ext.drop := false })

/-- For every state and byte: OutOfSync a byte other than LF answers 1 and changes nothing; LF opens
an empty dataset; InSync a data byte (no CR, and LF only under DATA) with EXT.len < DS_MAX
answers 1, DBUF[EXT.len] reads it and EXT.len is incremented; with EXT.len at or above DS_MAX it
answers 0, sets EXT.drop and increments EXT.ovf saturating at 2^CNT_W - 1. (41_extractor.md
R141, 41_extractor.md R142) -/
def Obligations.ExtPushByCases : Prop :=
  ∀ (s : State) (b : Byte),
    (s.ext.sync = false → b ≠ 0x0A → exec (.extPush b) s = .next (answered 1 s)) ∧
    (s.ext.sync = false → b = 0x0A → exec (.extPush b) s =
      .next (answered 1 { s with ext.sync := true, ext.len := 0, ext.drop := false })) ∧
    (s.ext.sync = true → b ≠ 0x0D → (b = 0x0A → s.cfg.lfPolicy = .data) →
      (s.ext.len < s.cfg.dsMax →
        ∃ t, exec (.extPush b) s = .next t ∧ t.resp = some { illegal := false, data := 1 } ∧
          elemAt t .dbuf s.ext.len = BitVec.ofNat 32 b.toNat ∧
          t = { s with
            ext.dbuf := t.ext.dbuf, ext.len := s.ext.len + 1, resp := t.resp }) ∧
      (s.cfg.dsMax ≤ s.ext.len →
        exec (.extPush b) s = .next (answered 0 { s with
          ext.drop := true
          ext.ovf := if s.ext.ovf < 2 ^ s.cfg.cntW - 1 then s.ext.ovf + 1 else s.ext.ovf })))

/-- For every state with EXT.sync = 1 and b = CR, or b = LF when LF_POLICY is not DATA, let D be
DBUF[0 .. EXT.len). EXT_PUSH b answers 1, emits DATASET(D, EXT.drop) at once followed by the
RECORD of Decode(D), RES becomes that decode, EXT.len and EXT.drop become 0, EXT.sync is 1 only
for LF under REOPEN, DBUF and EXT.ovf are unchanged, and nothing else changes. The spec marks
the event order of R255 as its own inference from these rules. (41_extractor.md R142,
41_extractor.md R143) -/
def Obligations.EndMarkerDeliversTheDataset : Prop :=
  ∀ (s : State) (b : Byte), s.ext.sync = true →
    b = 0x0D ∨ (b = 0x0A ∧ s.cfg.lfPolicy ≠ .data) →
    let d := srcSpan s .dbuf 0 s.ext.len
    let r := decodeDataset .dbuf d
    exec (.extPush b) s = .next (answered 1 { s with
      ext.sync := decide (b = 0x0A) && decide (s.cfg.lfPolicy = .reopen)
      ext.len := 0
      ext.drop := false
      res := r
      evPort := s.evPort ++
        [.dataset d s.ext.drop,
         .record .dbuf r.status ((d.drop r.labelOff).take r.labelLen)
           ((d.drop r.valueOff).take r.valueLen) r.horoPresent r.horo] })

/-- For every state and byte EXT_PUSH answers a next state in which only EXT, RES and the two ports
may differ; every element of every space reads as before except DBUF at the index the byte is
stored to; RES and the event port change only when a dataset is delivered. (41_extractor.md
R140, 41_extractor.md R141, 20_memory.md R60) -/
def Obligations.ExtPushLeavesTheRestAlone : Prop :=
  ∀ (s : State) (b : Byte), ∃ t, exec (.extPush b) s = .next t ∧
    t = { s with ext := t.ext, res := t.res, evPort := t.evPort, resp := t.resp } ∧
    (∀ sp i, (∀ a, extAction s.cfg s.ext b = .store a → ¬ (sp = .dbuf ∧ i = a)) →
      elemAt t sp i = elemAt s sp i) ∧
    ((∀ r, extAction s.cfg s.ext b ≠ .closeDataset r) → t.res = s.res ∧ t.evPort = s.evPort)

/-- For every state EXT_RESET clears EXT.sync, EXT.len and EXT.drop, DEC_CLEAR clears HIN.len and
HIN.drop, and CMP_CLEAR clears CMP.len and CMP.over; each answers 0, emits nothing and changes
nothing else, so DBUF, EXT.ovf, HIN, CMP and RES stay. Their words and the refusal of a nonzero
must-be-zero field are stated as well. (R144, R145, R184, R195) -/
def Obligations.ClearsAndExtResetWriteOnlyTheirFields : Prop :=
  encodedN 0x05 .extReset ∧ encodedN 0x07 .decClear ∧ encodedN 0x0C .cmpClear ∧
  ∀ s : State,
    exec .extReset s =
      .next (answered 0 { s with ext.sync := false, ext.len := 0, ext.drop := false }) ∧
    exec .decClear s = .next (answered 0 { s with hin.len := 0, hin.drop := false }) ∧
    exec .cmpClear s = .next (answered 0 { s with cmp.len := 0, cmp.overflow := false })

/-- For every state with a frame open and the extractor OutOfSync (and, in CACHED mode, nothing
stored yet): UNF_PUSH of LF, 0x03, 0x02, CR, 0x03 emits no DATASET event. EXT_PUSH of LF and CR
alone from an OutOfSync extractor emits exactly DATASET([], 0). The spec marks R148 as its own
inference from R141, R143 and R146. (41_extractor.md R141, 41_extractor.md R143, 41_extractor.md
R146) -/
def Obligations.TheFrameBoundaryResetRemovesTheSpuriousDataset : Prop :=
  (∀ s : State, s.unf.sync = true → s.ext.sync = false →
    (s.cfg.mode = .cached → s.unf.flen = 0) →
    ∃ t es, execAll (Pseudo.expand (.unfPushs [0x0A, 0x03, 0x02, 0x0D, 0x03])) s = .next t ∧
      t.evPort = s.evPort ++ es ∧ datasetsOf es = []) ∧
  (∀ s : State, s.ext.sync = false →
    ∃ t es, execAll (Pseudo.expand (.extPushs [0x0A, 0x0D])) s = .next t ∧
      t.evPort = s.evPort ++ es ∧ datasetsOf es = [([], false)])

/-- For every state with EXT OutOfSync and EXT.ovf below 2^CNT_W, and data bytes D more than DS_MAX
long: EXT_PUSH of LF, D, CR emits exactly one DATASET, D's first DS_MAX bytes with dropped = 1;
the answers are 1 for the markers and the stored bytes and 0 for each dropped byte; EXT.ovf
grows by the number of dropped bytes up to 2^CNT_W - 1; the extractor ends OutOfSync with an
empty cursor and a clear flag. The spec marks R150 as its own inference from R141 and R143.
(41_extractor.md R141, 41_extractor.md R143) -/
def Obligations.OversizedDatasetIsTruncatedAndCounted : Prop :=
  ∀ (s : State) (data : List Byte), s.ext.sync = false → s.ext.ovf < 2 ^ s.cfg.cntW →
    (∀ b ∈ data, datasetByte s.cfg b) → s.cfg.dsMax < data.length →
    let program := Pseudo.expand (.extPushs (0x0A :: data ++ [0x0D]))
    ∃ t es, execAll program s = .next t ∧ t.evPort = s.evPort ++ es ∧
      datasetsOf es = [(data.take s.cfg.dsMax, true)] ∧
      answersAll program s =
        List.replicate (s.cfg.dsMax + 1) (some { illegal := false, data := 1 }) ++
        List.replicate (data.length - s.cfg.dsMax) (some { illegal := false, data := 0 }) ++
        [some { illegal := false, data := 1 }] ∧
      t.ext.ovf = min (s.ext.ovf + (data.length - s.cfg.dsMax)) (2 ^ s.cfg.cntW - 1) ∧
      t.ext.sync = false ∧ t.ext.len = 0 ∧ t.ext.drop = false

/-- For every state with EXT OutOfSync and data bytes D at most DS_MAX long: EXT_PUSH of LF, D, CR
emits exactly DATASET(D, 0) and the RECORD of Decode(D), and leaves RES = Decode(D) and EXT.ovf
unchanged. The spec marks R200 (a 109-byte value under the default build) as its own inference
from R141 and R180. (41_extractor.md R141, 41_extractor.md R143, 42_decoder.md R180) -/
def Obligations.ExtractedDatasetIsDecodedWhole : Prop :=
  ∀ (s : State) (data : List Byte), s.ext.sync = false →
    (∀ b ∈ data, datasetByte s.cfg b) → data.length ≤ s.cfg.dsMax →
    ∃ t, execAll (Pseudo.expand (.extPushs (0x0A :: data ++ [0x0D]))) s = .next t ∧
      t.evPort = s.evPort ++
        [.dataset data false, recordEvent data (decodeDataset .dbuf data)] ∧
      t.res = decodeDataset .dbuf data ∧ t.ext.ovf = s.ext.ovf ∧ t.ext.sync = false

/-- For every state and byte: if HIN.len < DS_MAX, DEC_APPEND stores at HIN.len, answers 1, that
element reads the byte, every other element of every space reads as before, HIN.len is
incremented and nothing else changes; otherwise it answers 0, sets HIN.drop and changes nothing
else. Its word and the refusal of a nonzero must-be-zero field are stated as well. (R185) -/
def Obligations.DecAppendStoresOrDrops : Prop :=
  encodedB 0x08 .decAppend ∧
  ∀ (s : State) (b : Byte),
    (∀ a, hinStore s = some a →
      ∃ t, exec (.decAppend b) s = .next t ∧ a = s.hin.len ∧
        t.resp = some { illegal := false, data := 1 } ∧
        elemAt t .hin a = BitVec.ofNat 32 b.toNat ∧
        (∀ sp i, ¬ (sp = .hin ∧ i = a) → elemAt t sp i = elemAt s sp i) ∧
        t = { s with hin.buf := t.hin.buf, hin.len := s.hin.len + 1, resp := t.resp }) ∧
    (s.hin.len < s.cfg.dsMax → hinStore s = some s.hin.len) ∧
    (s.cfg.dsMax ≤ s.hin.len →
      exec (.decAppend b) s = .next (answered 0 { s with hin.drop := true }))

/-- For every state and byte: if CMP.len < 8, CMP_APPEND stores at CMP.len, answers 1, that element
reads the byte, every other element of every space reads as before, CMP.len is incremented and
nothing else changes; otherwise it answers 0, sets CMP.over, and changes nothing else. With
CMP.over set, CMP_LABEL answers 0, and every command but CMP_CLEAR and BLOCK_RESET keeps it set.
Its word and the refusal of a nonzero must-be-zero field are stated as well. (R196) -/
def Obligations.CmpAppendStoresOrOverflows : Prop :=
  encodedB 0x0D .cmpAppend ∧
  ∀ (s : State) (b : Byte),
    (∀ a, cmpStore s = some a →
      ∃ t, exec (.cmpAppend b) s = .next t ∧ a = s.cmp.len ∧
        t.resp = some { illegal := false, data := 1 } ∧
        elemAt t .cmp a = BitVec.ofNat 32 b.toNat ∧
        (∀ sp i, ¬ (sp = .cmp ∧ i = a) → elemAt t sp i = elemAt s sp i) ∧
        t = { s with cmp.buf := t.cmp.buf, cmp.len := s.cmp.len + 1, resp := t.resp }) ∧
    (s.cmp.len < 8 → cmpStore s = some s.cmp.len) ∧
    (8 ≤ s.cmp.len →
      exec (.cmpAppend b) s = .next (answered 0 { s with cmp.overflow := true })) ∧
    (s.cmp.overflow = true → exec .cmpLabel s = .next (answered 0 s) ∧
      ∀ i t, i ≠ .cmpClear → i ≠ .blockReset → exec i s = .next t → t.cmp.overflow = true)

/-- For every state CMP_LABEL changes nothing but the response port and answers 1 if CMP.over = 0,
CMP.len = RES.label_len and for every i below CMP.len CMP[i] equals the byte RES.label_off + i
of the result's source buffer as it now stands; otherwise it answers 0. Its word and the refusal
of a nonzero must-be-zero field are stated as well. (R197) -/
def Obligations.CmpLabelComparesByteForByte : Prop :=
  encodedN 0x0E .cmpLabel ∧
  ∀ s : State,
    let same : Prop := s.cmp.overflow = false ∧ s.cmp.len = s.res.labelLen ∧
      ∀ i, i < s.cmp.len →
        elemAt s .cmp i = elemAt s (if s.res.src = .hin then .hin else .dbuf) (s.res.labelOff + i)
    (same → exec .cmpLabel s = .next (answered 1 s)) ∧
    (¬ same → exec .cmpLabel s = .next (answered 0 s))

/-- For every state let v be the current bytes of the value span. DEC_U32 changes nothing but the
response port and answers 0xFFFFFFFF if v is empty or holds a byte outside 0x30..0x39; otherwise
the decimal number v spells, most significant digit first, leading zeros accepted, if it is
below 2^32, and 0xFFFFFFFF if not. The digit codes are ASCII, which the spec marks as general
knowledge (R15, log entry 21). Its word and the refusal of a nonzero must-be-zero field are
stated as well. (42_decoder.md R190, 42_decoder.md R194) -/
def Obligations.DecU32ReadsAnUnsignedDecimal : Prop :=
  encodedN 0x0B .decU32 ∧
  ∀ s : State,
    let v : List Byte := (List.range s.res.valueLen).map fun i =>
      srcByte s s.res.src (s.res.valueOff + i)
    let digits : Prop := ∀ c ∈ v, 0x30 ≤ c.toNat ∧ c.toNat ≤ 0x39
    let number : Nat := Nat.ofDigits 10 (v.reverse.map fun c => c.toNat - 0x30)
    (v = [] → exec .decU32 s = .next (answered 0xFFFFFFFF s)) ∧
    (¬ digits → exec .decU32 s = .next (answered 0xFFFFFFFF s)) ∧
    (v ≠ [] → digits → number ≤ 0xFFFFFFFF →
      exec .decU32 s = .next (answered (BitVec.ofNat 32 number) s)) ∧
    (v ≠ [] → digits → 0xFFFFFFFF < number →
      exec .decU32 s = .next (answered 0xFFFFFFFF s))

/-- For every state let d be HIN[0 .. HIN.len) and r its decode with src HIN. DEC_RUN answers r's
status code (0 MALFORMED, 1 WRONG_CRC, 2 VALID_HIST, 3 VALID_STD), RES becomes r, exactly the
RECORD of r with the label and value bytes of d is emitted, and UNF, EXT, HIN, REF, CMP and
every buffer are unchanged. Its word and the refusal of a nonzero must-be-zero field are stated
as well. (R186) -/
def Obligations.DecRunDecodesTheHostBuffer : Prop :=
  encodedN 0x09 .decRun ∧
  ∀ s : State,
    let d := srcSpan s .hin 0 s.hin.len
    let r := decodeDataset .hin d
    let code : Nat := match r.status with
      | .malformed => 0
      | .wrongCrc => 1
      | .validHist => 2
      | .validStd => 3
    exec .decRun s = .next (answered (BitVec.ofNat 32 code) { s with
      res := r
      evPort := s.evPort ++
        [.record .hin r.status ((d.drop r.labelOff).take r.labelLen)
          ((d.drop r.valueOff).take r.valueLen) r.horoPresent r.horo] }) ∧
    r.src = .hin

/-- For every state and byte string d of at most DS_MAX bytes, DEC_CLEAR, DEC_APPEND of each byte of
d, DEC_RUN leaves RES = Decode(d) with src HIN, emits exactly its RECORD, answers its status
last as the code of R92, and leaves HIN.len = the length of d, HIN.drop = 0, and UNF, EXT, REF
and CMP unchanged. (30_encoding.md R98, 42_decoder.md R184, 42_decoder.md R185, 42_decoder.md
R186, 30_encoding.md R92) -/
def Obligations.LoadingAndRunningDecodesTheGivenBytes : Prop :=
  ∀ (s : State) (d : List Byte), d.length ≤ s.cfg.dsMax →
    let code : Nat := match (decodeDataset .hin d).status with
      | .malformed => 0
      | .wrongCrc => 1
      | .validHist => 2
      | .validStd => 3
    ∃ t, execAll (Pseudo.expand (.decDecode d)) s = .next t ∧
      t.res = decodeDataset .hin d ∧ t.res.src = .hin ∧
      t.evPort = s.evPort ++ [recordEvent d (decodeDataset .hin d)] ∧
      t.resp = some { illegal := false, data := BitVec.ofNat 32 code } ∧
      t.hin.len = d.length ∧ t.hin.drop = false ∧
      t = { s with hin := t.hin, res := t.res, evPort := t.evPort, resp := t.resp }

/-- For any two states, sources and a length n: if the two spans of n bytes are equal, the decodes
leave equal RES contents other than src, and each emits one RECORD, equal other than src. The
spec marks R183 as its own inference from R170 to R182. (42_decoder.md R170, 42_decoder.md R182) -/
def Obligations.DecodeIsAPureFunctionOfTheSpan : Prop :=
  ∀ (s u : State) (a b : Src) (n : Nat), srcSpan s a 0 n = srcSpan u b 0 n →
    (runDecode a n s).res = { (runDecode b n u).res with src := a } ∧
    (runDecode b n u).res.src = b ∧
    ∃ status label value present horo,
      (runDecode a n s).evPort = s.evPort ++ [.record a status label value present horo] ∧
      (runDecode b n u).evPort = u.evPort ++ [.record b status label value present horo]

/-- For every span d: let s be 1 if d starts with LF and else 0, e the index of the checksum byte
after at most one trailing CR, v the byte before it, and the sum run over d[s ..) to e for a tab
and to e - 1 for a space. The status is MALFORMED if d has fewer than 5 bytes or v is neither
tab nor space; else WRONG_CRC if the checksum of the covered bytes differs from d[e]; else
MALFORMED if the body d[s .. e-1) has no v or its first v is at s or more than 8 bytes after it;
else VALID_STD for a tab and VALID_HIST for a space. From step 5 on RES.ck_seen is 1, RES.ck_rx
is d[e] and RES.ck_calc is the computed checksum; before it they are 0. Under MALFORMED and
WRONG_CRC all four span fields are 0 and the horodate is absent and H_INVALID. RES.src is always
the source given. Under VALID, with k the first v at or after s and j the first v after k in the
body, RES.label_off is s and RES.label_len is k - s, counted in the span as given, a stripped LF
and CR included; with j the horodate is present and is ParseHorodate(d[k+1 .. j)) and the value
is d[j+1 .. e-1); without j the horodate is absent and H_INVALID and the value is d[k+1 .. e-1).
(42_decoder.md R171, 42_decoder.md R172, 42_decoder.md R173, 42_decoder.md R175, 42_decoder.md
R176, 42_decoder.md R177, 42_decoder.md R178, 42_decoder.md R179, 42_decoder.md R180,
42_decoder.md R181, 60_exceptions.md R251) -/
def Obligations.StatusOfEverySpan : Prop :=
  ∀ (src : Src) (d : List Byte),
    let st := if byteAt d 0 = 0x0A then 1 else 0
    let e := (if byteAt d (d.length - 1) = 0x0D then d.length - 1 else d.length) - 1
    let v := byteAt d (e - 1)
    let covered := (d.drop st).take ((if v = 0x09 then e else e - 1) - st)
    let matched : Prop :=
      (byteSum covered % 256 &&& 0x3F) + 0x20 = (byteAt d e).toNat
    let first : Nat → Nat → Prop := fun lo k => lo ≤ k ∧ k < e - 1 ∧ byteAt d k = v ∧
      ∀ i, lo ≤ i → i < k → byteAt d i ≠ v
    let labelled : Prop := ∃ k, first st k ∧ st < k ∧ k ≤ st + 8
    let r := decodeDataset src d
    let empty : Prop := r.labelOff = 0 ∧ r.labelLen = 0 ∧ r.valueOff = 0 ∧ r.valueLen = 0 ∧
      r.horoPresent = false ∧ r.horo = Horo.invalid
    let unseen : Prop := r.status = .malformed ∧ empty ∧
      r.ckSeen = false ∧ r.ckRx = 0 ∧ r.ckCalc = 0
    r.src = src ∧
    (d.length < 5 → unseen) ∧
    (5 ≤ d.length → v ≠ 0x09 → v ≠ 0x20 → unseen) ∧
    (5 ≤ d.length → v = 0x09 ∨ v = 0x20 →
      (r.ckSeen = true ∧ r.ckRx = byteAt d e ∧
        r.ckCalc.toNat = (byteSum covered % 256 &&& 0x3F) + 0x20) ∧
      (¬ matched → r.status = .wrongCrc ∧ empty) ∧
      (matched → ¬ labelled → r.status = .malformed ∧ empty) ∧
      (matched → labelled → r.status = if v = 0x09 then .validStd else .validHist) ∧
      (matched → ∀ k, first st k → st < k → k ≤ st + 8 →
        r.labelOff = st ∧ r.labelLen = k - st ∧
        ((¬ ∃ j, first (k + 1) j) → r.valueOff = k + 1 ∧ r.valueLen = (e - 1) - (k + 1) ∧
          r.horoPresent = false ∧ r.horo = Horo.invalid) ∧
        (∀ j, first (k + 1) j → r.valueOff = j + 1 ∧ r.valueLen = (e - 1) - (j + 1) ∧
          r.horoPresent = true ∧
          r.horo = parseHorodate ((d.drop (k + 1)).take (j - (k + 1))))))

/-- For every source, variant with delimiter dl, label L of 1 to 8 bytes without dl that does not
start with LF, and value V without dl, with |L| + |V| at least 2: the dataset L dl V dl c with c
the checksum of R198 decodes VALID_HIST or VALID_STD by the delimiter, label L, value V, no
horodate. The spec marks R198 as its own inference from R171 to R180. (42_decoder.md R171,
42_decoder.md R172, 42_decoder.md R173, 42_decoder.md R175, 42_decoder.md R176, 42_decoder.md
R177, 42_decoder.md R178, 42_decoder.md R179, 42_decoder.md R180) -/
def Obligations.RoundTripOfABuiltDataset : Prop :=
  ∀ (src : Src) (std : Bool) (label value : List Byte),
    let dl : Byte := if std then 0x09 else 0x20
    let c : Byte := BitVec.ofNat 8 (((byteSum label + dl.toNat + byteSum value +
      (if std then dl.toNat else 0)) &&& 0x3F) + 0x20)
    let d := label ++ dl :: value ++ [dl, c]
    let r := decodeDataset src d
    1 ≤ label.length → label.length ≤ 8 → dl ∉ label → label.head? ≠ some 0x0A →
    dl ∉ value → 2 ≤ label.length + value.length →
      r.status = (if std then .validStd else .validHist) ∧
      (d.drop r.labelOff).take r.labelLen = label ∧
      (d.drop r.valueOff).take r.valueLen = value ∧ r.horoPresent = false

/-- For every source, variant with delimiter dl, label L as in the round trip, field H without dl
and any value V (delimiters allowed): the dataset L dl H dl V dl c with its right checksum
decodes VALID, label L, value V, horodate present and equal to ParseHorodate(H), whether H is a
valid horodate or not. (42_decoder.md R179, 42_decoder.md R180, 43_horodate.md R215) -/
def Obligations.SecondDelimiterSplitsOffTheHorodate : Prop :=
  ∀ (src : Src) (std : Bool) (label stamp value : List Byte),
    let dl : Byte := if std then 0x09 else 0x20
    let c : Byte := BitVec.ofNat 8 (((byteSum label + dl.toNat + byteSum stamp + dl.toNat +
      byteSum value + (if std then dl.toNat else 0)) &&& 0x3F) + 0x20)
    let d := label ++ dl :: stamp ++ dl :: value ++ [dl, c]
    let r := decodeDataset src d
    1 ≤ label.length → label.length ≤ 8 → dl ∉ label → label.head? ≠ some 0x0A →
    dl ∉ stamp →
      r.status = (if std then .validStd else .validHist) ∧
      (d.drop r.labelOff).take r.labelLen = label ∧
      (d.drop r.valueOff).take r.valueLen = value ∧
      r.horoPresent = true ∧ r.horo = parseHorodate stamp

/-- If d followed by ck decodes VALID (ck itself being the checksum byte, not a stripped CR), then d
followed by any c other than ck and 0x0d decodes WRONG_CRC; if d, ck, CR decodes VALID, then d,
c, CR decodes WRONG_CRC for every c other than ck. The spec marks R199 as its own inference from
R173, R176 and R177. (42_decoder.md R173, 42_decoder.md R176, 42_decoder.md R177) -/
def Obligations.ChangingTheChecksumByteIsDetected : Prop :=
  ∀ (src : Src) (d : List Byte) (ck c : Byte), c ≠ ck →
    (ck ≠ 0x0D → (decodeDataset src (d ++ [ck])).status.isValid = true → c ≠ 0x0D →
      (decodeDataset src (d ++ [c])).status = .wrongCrc) ∧
    ((decodeDataset src (d ++ [ck, 0x0D])).status.isValid = true →
      (decodeDataset src (d ++ [c, 0x0D])).status = .wrongCrc)

/-- For every byte string the model's checksum is ((S mod 256) & 0x3F) + 0x20, S the exact sum of
its bytes, and lies in 0x20..0x5F. The spec marks the range as its own inference from the
formula. (30_encoding.md R83) -/
def Obligations.ChecksumByteRange : Prop :=
  ∀ bs : List Byte,
    (checksum bs).toNat = ((bs.map BitVec.toNat).sum % 256 &&& 0x3F) + 0x20 ∧
    0x20 ≤ (checksum bs).toNat ∧ (checksum bs).toNat ≤ 0x5F

/-- For every 13-byte span the parsed horodate is valid exactly when byte 0 is H, h, E, e or space,
bytes 1 to 12 are ASCII digits, month is 1..12, day 1..31, hour 0..24, minute 0..59 and second
0..59; neither the day against the month nor the year is checked further. The codes of the
letters and digits are ASCII, which the spec marks as general knowledge (R15, log entry 21).
(43_horodate.md R210, 43_horodate.md R211, 43_horodate.md R212, 43_horodate.md R213) -/
def Obligations.HorodateIsValidExactlyWhen : Prop :=
  ∀ h : List Byte, h.length = 13 →
    let two : Nat → Nat := fun i =>
      ((byteAt h i).toNat - 0x30) * 10 + ((byteAt h (i + 1)).toNat - 0x30)
    ((parseHorodate h).valid = true ↔
      (byteAt h 0 = 0x48 ∨ byteAt h 0 = 0x68 ∨ byteAt h 0 = 0x45 ∨ byteAt h 0 = 0x65 ∨
        byteAt h 0 = 0x20) ∧
      (∀ i, 1 ≤ i → i < 13 → 0x30 ≤ (byteAt h i).toNat ∧ (byteAt h i).toNat ≤ 0x39) ∧
      1 ≤ two 3 ∧ two 3 ≤ 12 ∧ 1 ≤ two 5 ∧ two 5 ≤ 31 ∧ two 7 ≤ 24 ∧ two 9 ≤ 59 ∧
      two 11 ≤ 59)

/-- For every span: if its length is not 13 the result is H_INVALID; otherwise the year is 2000 plus
the two-digit value of bytes 1-2, month, day, hour, minute and second are those of bytes 3-4,
5-6, 7-8, 9-10 and 11-12, a pair that is not two digits counting 0, and the season and degraded
flag are those of byte 0's row in R211. The field values of an invalid horodate are the spec's
own choice (D14, D15; its I6 lets a claim rely on valid = 0 only; log entry 12). The codes of
the season letters and digits are ASCII, which the spec marks as general knowledge (R15, log
entry 21). (43_horodate.md R211, 43_horodate.md R212, 43_horodate.md R214, 43_horodate.md R215) -/
def Obligations.HorodateFieldsAreAlwaysStored : Prop :=
  ∀ h : List Byte,
    let digit : Byte → Prop := fun c => 0x30 ≤ c.toNat ∧ c.toNat ≤ 0x39
    let holds : Nat → Nat → Prop := fun i n =>
      (digit (byteAt h i) ∧ digit (byteAt h (i + 1)) →
        n = ((byteAt h i).toNat - 0x30) * 10 + ((byteAt h (i + 1)).toNat - 0x30)) ∧
      (¬ (digit (byteAt h i) ∧ digit (byteAt h (i + 1))) → n = 0)
    let p := parseHorodate h
    (h.length ≠ 13 → p = Horo.invalid) ∧
    (h.length = 13 →
      2000 ≤ p.year.toNat ∧ holds 1 (p.year.toNat - 2000) ∧ holds 3 p.month.toNat ∧
      holds 5 p.day.toNat ∧ holds 7 p.hour.toNat ∧ holds 9 p.minute.toNat ∧
      holds 11 p.second.toNat ∧
      (byteAt h 0 = 0x48 → p.season = .winter ∧ p.degraded = false) ∧
      (byteAt h 0 = 0x68 → p.season = .winter ∧ p.degraded = true) ∧
      (byteAt h 0 = 0x45 → p.season = .summer ∧ p.degraded = false) ∧
      (byteAt h 0 = 0x65 → p.season = .summer ∧ p.degraded = true) ∧
      (byteAt h 0 = 0x20 → p.season = .unknown ∧ p.degraded = false) ∧
      (byteAt h 0 ≠ 0x48 → byteAt h 0 ≠ 0x68 → byteAt h 0 ≠ 0x45 → byteAt h 0 ≠ 0x65 →
        byteAt h 0 ≠ 0x20 → p.season = .malformed ∧ p.degraded = false ∧ p.valid = false))

/-- For all horodates: swapping the operands swaps the answer; not-greater is transitive; EQUAL
holds exactly when year, month, day, hour, minute and second agree, whatever season, degraded
flag and validity; so invalid horodates compare by their stored fields like any other. The
horodate H081225223518 compares LESS than e081225223519. The spec marks R217 as its own
inference from R216. The field values of an invalid horodate are the spec's own choice (D14,
D15, log entry 12). The worked example reads its characters as ASCII bytes (R15, G2, log entry
21, PRESUMED). (43_horodate.md R216) -/
def Obligations.HorodateOrderIsATotalPreorder : Prop :=
  (∀ a b : Horo, (horoCompare a b).swap = horoCompare b a) ∧
  (∀ a b c : Horo, horoCompare a b ≠ .gt → horoCompare b c ≠ .gt → horoCompare a c ≠ .gt) ∧
  (∀ a b : Horo, horoCompare a b = .eq ↔
    a.year = b.year ∧ a.month = b.month ∧ a.day = b.day ∧ a.hour = b.hour ∧
    a.minute = b.minute ∧ a.second = b.second) ∧
  horoCompare
    (parseHorodate [0x48, 0x30, 0x38, 0x31, 0x32, 0x32, 0x35, 0x32, 0x32, 0x33, 0x35, 0x31, 0x38])
    (parseHorodate [0x65, 0x30, 0x38, 0x31, 0x32, 0x32, 0x35, 0x32, 0x32, 0x33, 0x35, 0x31, 0x39])
    = .lt

/-- For every state HORO_SAVE answers 0 and writes REF only. HORO_CMP changes nothing but the
response port: with f and g the six fields of RES.horo and REF in the order year to second, it
answers 0 if they agree, 1 if f is smaller at the first place where they differ, and 2 if it is
greater there. Their words and the refusal of a nonzero must-be-zero field are stated as well.
(R216, R218, R219) -/
def Obligations.HoroSaveAndHoroCmp : Prop :=
  encodedN 0x0F .horoSave ∧ encodedN 0x10 .horoCmp ∧
  ∀ s : State,
    let key : Horo → List Nat := fun h =>
      [h.year.toNat, h.month.toNat, h.day.toNat, h.hour.toNat, h.minute.toNat, h.second.toNat]
    let f := key s.res.horo
    let g := key s.ref
    exec .horoSave s = .next (answered 0 { s with ref := s.res.horo }) ∧
    (f = g → exec .horoCmp s = .next (answered 0 s)) ∧
    (∀ i, i < 6 → f.take i = g.take i → f.getD i 0 < g.getD i 0 →
      exec .horoCmp s = .next (answered 1 s)) ∧
    (∀ i, i < 6 → f.take i = g.take i → g.getD i 0 < f.getD i 0 →
      exec .horoCmp s = .next (answered 2 s))

/-- For every valid build the state after reset meets the machine's invariant, and the default
build's reset state does; the event port is then empty (log entry 5). The spec marks R43 as its
own inference from its units' rules and R280. (10_state.md R43, 70_reset_and_hazards.md R280) -/
def Obligations.ResetStateMeetsTheInvariant : Prop :=
  (∀ c : Config, c.valid = true →
    (State.resetWith c).Inv ∧ (State.resetWith c).evPort = []) ∧
  State.reset.Inv ∧ State.reset.evPort = []

/-- For every state with the invariant (R43's seven items with the register widths, the canonical
form and bounds of every buffer, the written extents, marker-free FBUF and DBUF contents, and
result spans inside written bytes), a step's next state has it, whatever the host does; and so
has every command's. The spec marks R43 as its own inference from its units' rules. R174's
bounds are marked so too. Its companion about the event port is EventsNeverHoldTheirOwnMarkers.
(10_state.md R43, 20_memory.md R64, 42_decoder.md R174) -/
def Obligations.EveryStepKeepsTheInvariant : Prop :=
  (∀ s t : State, s.Inv → Machine.step s = .next t → t.Inv) ∧
  (∀ (i : Instr) (s t : State), s.Inv → exec i s = .next t → t.Inv)

/-- For every state reachable from reset in any valid build under any host script, items 1 to 7 of
R43 hold as written. The spec marks R43 as its own inference from these rules. (40_unframer.md
R111, 40_unframer.md R113, 40_unframer.md R116, 41_extractor.md R141, 41_extractor.md R143,
41_extractor.md R144, 70_reset_and_hazards.md R280) -/
def Obligations.ReachableStatesSatisfyTheSpecInvariants : Prop :=
  ∀ s : State, Reachable s →
    (s.unf.sync = false → s.unf.flen = 0 ∧ s.unf.fdrop = false) ∧
    (s.cfg.mode = .cached → s.unf.flen ≤ s.cfg.frameMax) ∧
    (s.ext.sync = false → s.ext.len = 0 ∧ s.ext.drop = false) ∧
    (s.ext.len ≤ s.cfg.dsMax ∧ s.hin.len ≤ s.cfg.dsMax ∧ s.cmp.len ≤ 8) ∧
    (s.unf.hcnt ≤ s.cfg.histDepth ∧ s.unf.hwr < s.cfg.histDepth ∧
      (s.unf.hcnt < s.cfg.histDepth → s.unf.hwr = s.unf.hcnt)) ∧
    (s.res.status = .malformed ∨ s.res.status = .wrongCrc →
      s.res.labelLen = 0 ∧ s.res.valueLen = 0 ∧ s.res.horoPresent = false) ∧
    (s.res.status = .validHist ∨ s.res.status = .validStd →
      1 ≤ s.res.labelLen ∧ s.res.labelLen ≤ 8 ∧
      (s.res.labelOff + s.res.labelLen ≤ s.res.valueOff ∨
        s.res.valueOff + s.res.valueLen ≤ s.res.labelOff))

/-- For every state with State.Inv and eventOk of every event on the port, the next state of a step,
whatever the host does, and of every command has both. eventOk: a FRAME_BYTES event is not empty
and holds neither 0x02 nor 0x03; FRAME_COMPLETE reports a drop only in CACHED mode; a DATASET
event holds no 0x0d, and 0x0a only under LF_POLICY = DATA, is at most DS_MAX long, and is
reported dropped only at DS_MAX; a failed RECORD is empty, a valid one has a label of 1 to 8
bytes, and one without a horodate reports H_INVALID. No command but EXT_PUSH brings 0x02 or 0x03
into DBUF[0 .. EXT.len) or, with none there, into a DATASET event. In every reachable state the
events on the port are so, and FBUF[0 .. UNF.flen) of a CACHED build holds no frame marker.
RECORD events may hold any byte that DEC_APPEND brought, and a DATASET event 0x02 or 0x03 that
EXT_PUSH brought. The spec marks R120 as its own inference from R111, and R149 from R141.
(40_unframer.md R111, 40_unframer.md R113, 40_unframer.md R115, 41_extractor.md R141,
41_extractor.md R142, 41_extractor.md R143, 41_extractor.md R146, 42_decoder.md R178,
42_decoder.md R181, 42_decoder.md R182) -/
def Obligations.EventsNeverHoldTheirOwnMarkers : Prop :=
  (∀ s t : State, s.Inv → (∀ e ∈ s.evPort, eventOk s.cfg e) → Machine.step s = .next t →
    t.Inv ∧ ∀ e ∈ t.evPort, eventOk t.cfg e) ∧
  (∀ (i : Instr) (s t : State), s.Inv → (∀ e ∈ s.evPort, eventOk s.cfg e) → exec i s = .next t →
    t.Inv ∧ ∀ e ∈ t.evPort, eventOk t.cfg e) ∧
  (∀ (i : Instr) (s t : State), s.Inv → (∀ b, i ≠ .extPush b) →
    (∀ k, k < s.ext.len → elemAt s .dbuf k ≠ 0x02 ∧ elemAt s .dbuf k ≠ 0x03) →
    exec i s = .next t →
      (∀ k, k < t.ext.len → elemAt t .dbuf k ≠ 0x02 ∧ elemAt t .dbuf k ≠ 0x03) ∧
      ∃ es, t.evPort = s.evPort ++ es ∧
        ∀ p ∈ datasetsOf es, (0x02 : Byte) ∉ p.1 ∧ (0x03 : Byte) ∉ p.1) ∧
  (∀ s : State, Reachable s →
    (∀ bs, Event.frameBytes bs ∈ s.evPort → bs ≠ [] ∧ (0x02 : Byte) ∉ bs ∧ (0x03 : Byte) ∉ bs) ∧
    (s.cfg.mode = .cached → ∀ i, i < s.unf.flen →
      elemAt s .fbuf i ≠ 0x02 ∧ elemAt s .fbuf i ≠ 0x03) ∧
    (∀ bs dropped, Event.dataset bs dropped ∈ s.evPort →
      (0x0D : Byte) ∉ bs ∧ ((0x0A : Byte) ∈ bs → s.cfg.lfPolicy = .data) ∧
      bs.length ≤ s.cfg.dsMax))
end

