-- ==== Sys2Proof/Laws/Cells.lean ====
section
/-! SUPPORT. Reading and writing one element of a buffer space, and the canonical form that
every memory operation keeps. -/

namespace Sys2Proof.Machine

variable {α : Type}

/-- A read after a write to the same index gives the value written. -/
@[simp] theorem cellGet?_cellSet_same (m : Cells α) (i : Nat) (v : α) :
    cellGet? (cellSet m i v) i = some v := by
  induction m with
  | nil => simp [cellSet, cellGet?]
  | cons e rest ih =>
    obtain ⟨j, u⟩ := e
    simp only [cellSet]
    split
    · simp [cellGet?]
    · split
      · simp [cellGet?]
      · rename_i h1 h2
        simp [cellGet?, h2, ih]

/-- A write leaves every other index alone. -/
theorem cellGet?_cellSet_other (m : Cells α) (i k : Nat) (v : α) (h : k ≠ i) :
    cellGet? (cellSet m i v) k = cellGet? m k := by
  induction m with
  | nil => simp [cellSet, cellGet?, h]
  | cons e rest ih =>
    obtain ⟨j, u⟩ := e
    simp only [cellSet]
    split
    · simp [cellGet?, h]
    · split
      · rename_i h1 h2
        subst h2
        simp [cellGet?, h]
      · simp [cellGet?, ih]

/-- The elements of a written space: the new one, and old ones. -/
theorem mem_cellSet (m : Cells α) (i : Nat) (v : α) (e : Nat × α) (h : e ∈ cellSet m i v) :
    e = (i, v) ∨ e ∈ m := by
  induction m with
  | nil => simpa [cellSet] using h
  | cons f rest ih =>
    obtain ⟨j, u⟩ := f
    simp only [cellSet] at h
    split at h
    · simpa using h
    · split at h
      · rcases List.mem_cons.1 h with h | h
        · exact .inl h
        · exact .inr (List.mem_cons_of_mem _ h)
      · rcases List.mem_cons.1 h with h | h
        · exact .inr (by simp [h])
        · rcases ih h with h | h
          · exact .inl h
          · exact .inr (List.mem_cons_of_mem _ h)

/-- The canonical form as a proposition. -/
theorem cellsWf_iff (m : Cells α) :
    cellsWf m = true ↔ (m.map Prod.fst).Pairwise (· < ·) := by
  simp [cellsWf]

/-- Every write keeps the canonical form. -/
theorem cellsWf_cellSet (m : Cells α) (i : Nat) (v : α) (h : cellsWf m = true) :
    cellsWf (cellSet m i v) = true := by
  rw [cellsWf_iff] at *
  induction m with
  | nil => simp [cellSet]
  | cons e rest ih =>
    obtain ⟨j, u⟩ := e
    simp only [List.map_cons, List.pairwise_cons, List.mem_map] at h
    obtain ⟨hj, hr⟩ := h
    simp only [cellSet]
    split
    · rename_i hij
      simp only [List.map_cons, List.pairwise_cons, List.mem_cons, List.mem_map]
      refine ⟨?_, hj, hr⟩
      rintro a (rfl | ha)
      · exact hij
      · exact Nat.lt_trans hij (hj a ha)
    · split
      · rename_i h1 h2
        subst h2
        simpa using ⟨fun a b hb => hj a ⟨(a, b), hb, rfl⟩, hr⟩
      · rename_i h1 h2
        simp only [List.map_cons, List.pairwise_cons, List.mem_map]
        refine ⟨?_, ih hr⟩
        rintro a ⟨e, he, rfl⟩
        rcases mem_cellSet rest i v e he with rfl | he
        · exact Nat.lt_of_le_of_ne (Nat.le_of_not_lt h1) (Ne.symm h2)
        · exact hj _ ⟨e, he, rfl⟩

/-- Every byte write keeps the canonical form of a byte space. -/
theorem Memory_wf_cellSet (m : Memory) (i : Nat) (b : Byte) (h : Memory.wf m = true) :
    Memory.wf (cellSet m i b) = true :=
  cellsWf_cellSet m i b h

/-- Every space of a freshly reset block is in canonical form. -/
theorem resetWith_wf (c : Config) :
    Memory.wf (State.resetWith c).unf.fbuf = true ∧ cellsWf (State.resetWith c).unf.hist = true ∧
    Memory.wf (State.resetWith c).ext.dbuf = true ∧ Memory.wf (State.resetWith c).hin.buf = true ∧
    Memory.wf (State.resetWith c).cmp.buf = true := by
  simp [State.resetWith, Unf.reset, Ext.reset, Hin.reset, Cmp.reset, Memory.wf, cellsWf]

/-- What a byte reads as after a write. -/
theorem memByte_cellSet (m : Memory) (ep : Nat) (sp : Space) (i k : Nat) (b : Byte) :
    memByte (cellSet m i b) ep sp k = if k = i then b else memByte m ep sp k := by
  unfold memByte
  split
  · rename_i h
    subst h
    simp
  · rename_i h
    rw [cellGet?_cellSet_other _ _ _ _ h]

/-- A write of an index inside the capacity keeps the elements inside it. -/
theorem cellsIn_cellSet (m : Cells α) (n i : Nat) (v : α) (p : α → Prop) (hm : cellsIn m n p)
    (hi : i < n) (hv : p v) : cellsIn (cellSet m i v) n p := by
  intro e he
  rcases mem_cellSet m i v e he with rfl | he
  · exact ⟨hi, hv⟩
  · exact hm e he

/-- A written index stays written. -/
theorem cellGet?_cellSet_isSome (m : Cells α) (i k : Nat) (v : α)
    (h : (cellGet? m k).isSome = true) : (cellGet? (cellSet m i v) k).isSome = true := by
  by_cases hk : k = i
  · subst hk
    simp
  · rwa [cellGet?_cellSet_other _ _ _ _ hk]

/-- Writing the next index extends the written extent by one. -/
theorem writtenBelow_cellSet (m : Cells α) (n : Nat) (v : α) (h : writtenBelow m n) :
    writtenBelow (cellSet m n v) (n + 1) := by
  intro k hk
  by_cases hkn : k = n
  · subst hkn
    simp
  · exact cellGet?_cellSet_isSome m n k v (h k (by omega))

/-- A written extent survives any write. -/
theorem writtenBelow_mono (m : Cells α) (n i : Nat) (v : α) (h : writtenBelow m n) :
    writtenBelow (cellSet m i v) n :=
  fun k hk => cellGet?_cellSet_isSome m i k v (h k hk)

/-- A listed element is in the list. -/
theorem cellGet?_mem (m : Cells α) (i : Nat) (v : α) (h : cellGet? m i = some v) :
    (i, v) ∈ m := by
  induction m with
  | nil => simp [cellGet?] at h
  | cons e rest ih =>
    obtain ⟨j, u⟩ := e
    simp only [cellGet?] at h
    split at h
    · rename_i hij
      simp_all
    · exact List.mem_cons_of_mem _ (ih h)

end Sys2Proof.Machine
end

