-- ==== Sys2Proof/Laws/State.lean ====
section
/-! SUPPORT. One lemma per field for each named update of the state, so that no later proof
unfolds a record update. -/

namespace Sys2Proof.Machine

@[simp] theorem emit_cfg (e : Event) (s : State) :
    (emit e s).cfg = s.cfg := rfl

@[simp] theorem emit_unf (e : Event) (s : State) :
    (emit e s).unf = s.unf := rfl

@[simp] theorem emit_ext (e : Event) (s : State) :
    (emit e s).ext = s.ext := rfl

@[simp] theorem emit_hin (e : Event) (s : State) :
    (emit e s).hin = s.hin := rfl

@[simp] theorem emit_res (e : Event) (s : State) :
    (emit e s).res = s.res := rfl

@[simp] theorem emit_ref (e : Event) (s : State) :
    (emit e s).ref = s.ref := rfl

@[simp] theorem emit_cmp (e : Event) (s : State) :
    (emit e s).cmp = s.cmp := rfl

@[simp] theorem emit_resp (e : Event) (s : State) :
    (emit e s).resp = s.resp := rfl

@[simp] theorem emit_evPort (e : Event) (s : State) :
    (emit e s).evPort = s.evPort ++ [e] := rfl

@[simp] theorem emit_epoch (e : Event) (s : State) :
    (emit e s).epoch = s.epoch := rfl

@[simp] theorem emit_host (e : Event) (s : State) :
    (emit e s).host = s.host := rfl

@[simp] theorem histPush_cfg (v : Nat) (s : State) :
    (histPush v s).cfg = s.cfg := rfl

@[simp] theorem histPush_ext (v : Nat) (s : State) :
    (histPush v s).ext = s.ext := rfl

@[simp] theorem histPush_hin (v : Nat) (s : State) :
    (histPush v s).hin = s.hin := rfl

@[simp] theorem histPush_res (v : Nat) (s : State) :
    (histPush v s).res = s.res := rfl

@[simp] theorem histPush_ref (v : Nat) (s : State) :
    (histPush v s).ref = s.ref := rfl

@[simp] theorem histPush_cmp (v : Nat) (s : State) :
    (histPush v s).cmp = s.cmp := rfl

@[simp] theorem histPush_resp (v : Nat) (s : State) :
    (histPush v s).resp = s.resp := rfl

@[simp] theorem histPush_evPort (v : Nat) (s : State) :
    (histPush v s).evPort = s.evPort := rfl

@[simp] theorem histPush_epoch (v : Nat) (s : State) :
    (histPush v s).epoch = s.epoch := rfl

@[simp] theorem histPush_host (v : Nat) (s : State) :
    (histPush v s).host = s.host := rfl

@[simp] theorem extReset_cfg (s : State) :
    (extReset s).cfg = s.cfg := rfl

@[simp] theorem extReset_unf (s : State) :
    (extReset s).unf = s.unf := rfl

@[simp] theorem extReset_ext (s : State) :
    (extReset s).ext = { s.ext with sync := false, len := 0, drop := false } := rfl

@[simp] theorem extReset_hin (s : State) :
    (extReset s).hin = s.hin := rfl

@[simp] theorem extReset_res (s : State) :
    (extReset s).res = s.res := rfl

@[simp] theorem extReset_ref (s : State) :
    (extReset s).ref = s.ref := rfl

@[simp] theorem extReset_cmp (s : State) :
    (extReset s).cmp = s.cmp := rfl

@[simp] theorem extReset_resp (s : State) :
    (extReset s).resp = s.resp := rfl

@[simp] theorem extReset_evPort (s : State) :
    (extReset s).evPort = s.evPort := rfl

@[simp] theorem extReset_epoch (s : State) :
    (extReset s).epoch = s.epoch := rfl

@[simp] theorem extReset_host (s : State) :
    (extReset s).host = s.host := rfl

@[simp] theorem applyReset_cfg (s : State) :
    (applyReset s).cfg = s.cfg := rfl

@[simp] theorem applyReset_unf (s : State) :
    (applyReset s).unf = Unf.reset := rfl

@[simp] theorem applyReset_ext (s : State) :
    (applyReset s).ext = Ext.reset := rfl

@[simp] theorem applyReset_hin (s : State) :
    (applyReset s).hin = Hin.reset := rfl

@[simp] theorem applyReset_res (s : State) :
    (applyReset s).res = Res.reset := rfl

@[simp] theorem applyReset_ref (s : State) :
    (applyReset s).ref = Horo.invalid := rfl

@[simp] theorem applyReset_cmp (s : State) :
    (applyReset s).cmp = Cmp.reset := rfl

@[simp] theorem applyReset_resp (s : State) :
    (applyReset s).resp = s.resp := rfl

@[simp] theorem applyReset_evPort (s : State) :
    (applyReset s).evPort = s.evPort := rfl

@[simp] theorem applyReset_epoch (s : State) :
    (applyReset s).epoch = s.epoch + 1 := rfl

@[simp] theorem applyReset_host (s : State) :
    (applyReset s).host = s.host := rfl

@[simp] theorem resetInput_cfg (s : State) :
    (resetInput s).cfg = s.cfg := rfl

@[simp] theorem resetInput_unf (s : State) :
    (resetInput s).unf = Unf.reset := rfl

@[simp] theorem resetInput_ext (s : State) :
    (resetInput s).ext = Ext.reset := rfl

@[simp] theorem resetInput_hin (s : State) :
    (resetInput s).hin = Hin.reset := rfl

@[simp] theorem resetInput_res (s : State) :
    (resetInput s).res = Res.reset := rfl

@[simp] theorem resetInput_ref (s : State) :
    (resetInput s).ref = Horo.invalid := rfl

@[simp] theorem resetInput_cmp (s : State) :
    (resetInput s).cmp = Cmp.reset := rfl

@[simp] theorem resetInput_resp (s : State) :
    (resetInput s).resp = none := rfl

@[simp] theorem resetInput_evPort (s : State) :
    (resetInput s).evPort = s.evPort := rfl

@[simp] theorem resetInput_epoch (s : State) :
    (resetInput s).epoch = s.epoch + 1 := rfl

@[simp] theorem resetInput_host (s : State) :
    (resetInput s).host = s.host := rfl

@[simp] theorem takeEvent_cfg (s : State) :
    (takeEvent s).cfg = s.cfg := rfl

@[simp] theorem takeEvent_unf (s : State) :
    (takeEvent s).unf = s.unf := rfl

@[simp] theorem takeEvent_ext (s : State) :
    (takeEvent s).ext = s.ext := rfl

@[simp] theorem takeEvent_hin (s : State) :
    (takeEvent s).hin = s.hin := rfl

@[simp] theorem takeEvent_res (s : State) :
    (takeEvent s).res = s.res := rfl

@[simp] theorem takeEvent_ref (s : State) :
    (takeEvent s).ref = s.ref := rfl

@[simp] theorem takeEvent_cmp (s : State) :
    (takeEvent s).cmp = s.cmp := rfl

@[simp] theorem takeEvent_resp (s : State) :
    (takeEvent s).resp = s.resp := rfl

@[simp] theorem takeEvent_evPort (s : State) :
    (takeEvent s).evPort = s.evPort.tail := rfl

@[simp] theorem takeEvent_epoch (s : State) :
    (takeEvent s).epoch = s.epoch := rfl

@[simp] theorem takeEvent_host (s : State) :
    (takeEvent s).host = s.host := rfl

@[simp] theorem runDecode_cfg (src : Src) (n : Nat) (s : State) :
    (runDecode src n s).cfg = s.cfg := rfl

@[simp] theorem runDecode_unf (src : Src) (n : Nat) (s : State) :
    (runDecode src n s).unf = s.unf := rfl

@[simp] theorem runDecode_ext (src : Src) (n : Nat) (s : State) :
    (runDecode src n s).ext = s.ext := rfl

@[simp] theorem runDecode_hin (src : Src) (n : Nat) (s : State) :
    (runDecode src n s).hin = s.hin := rfl

@[simp] theorem runDecode_res (src : Src) (n : Nat) (s : State) :
    (runDecode src n s).res = decodeDataset src (srcSpan s src 0 n) := rfl

@[simp] theorem runDecode_ref (src : Src) (n : Nat) (s : State) :
    (runDecode src n s).ref = s.ref := rfl

@[simp] theorem runDecode_cmp (src : Src) (n : Nat) (s : State) :
    (runDecode src n s).cmp = s.cmp := rfl

@[simp] theorem runDecode_resp (src : Src) (n : Nat) (s : State) :
    (runDecode src n s).resp = s.resp := rfl

@[simp] theorem runDecode_evPort (src : Src) (n : Nat) (s : State) :
    (runDecode src n s).evPort = s.evPort ++ [recordEvent (srcSpan s src 0 n) (decodeDataset src (srcSpan s src 0 n))] := rfl

@[simp] theorem runDecode_epoch (src : Src) (n : Nat) (s : State) :
    (runDecode src n s).epoch = s.epoch := rfl

@[simp] theorem runDecode_host (src : Src) (n : Nat) (s : State) :
    (runDecode src n s).host = s.host := rfl

@[simp] theorem histPush_hist (v : Nat) (s : State) :
    (histPush v s).unf.hist = cellSet s.unf.hist s.unf.hwr v := rfl

@[simp] theorem histPush_hwr (v : Nat) (s : State) :
    (histPush v s).unf.hwr = (s.unf.hwr + 1) % s.cfg.histDepth := rfl

@[simp] theorem histPush_hcnt (v : Nat) (s : State) :
    (histPush v s).unf.hcnt = min (s.unf.hcnt + 1) s.cfg.histDepth := rfl

@[simp] theorem histPush_sync (v : Nat) (s : State) :
    (histPush v s).unf.sync = s.unf.sync := rfl

@[simp] theorem histPush_flen (v : Nat) (s : State) :
    (histPush v s).unf.flen = s.unf.flen := rfl

@[simp] theorem histPush_fdrop (v : Nat) (s : State) :
    (histPush v s).unf.fdrop = s.unf.fdrop := rfl

@[simp] theorem histPush_ovf (v : Nat) (s : State) :
    (histPush v s).unf.ovf = s.unf.ovf := rfl

@[simp] theorem histPush_fbuf (v : Nat) (s : State) :
    (histPush v s).unf.fbuf = s.unf.fbuf := rfl

@[simp] theorem stx_ne_etx : Wire.stx ≠ Wire.etx := by decide

@[simp] theorem etx_ne_stx : Wire.etx ≠ Wire.stx := by decide

@[simp] theorem lf_ne_cr : Wire.lf ≠ Wire.cr := by decide

@[simp] theorem cr_ne_lf : Wire.cr ≠ Wire.lf := by decide

@[simp] theorem tab_ne_space : Wire.tab ≠ Wire.space := by decide

@[simp] theorem space_ne_tab : Wire.space ≠ Wire.tab := by decide

/-- What `respond` answers, whatever the state. -/
theorem respond_eq (d : Word) (s : State) :
    respond d s = .next { s with resp := some { illegal := false, data := d } } := rfl

/-- What `refuse` answers, whatever the state. -/
theorem refuse_eq (s : State) :
    refuse s = .next { s with resp := some { illegal := true, data := 0 } } := rfl

/-- The reset state of a build holds the reset values (70_reset_and_hazards.md R280). -/
theorem failResult_dbuf : failResult .dbuf = Res.reset := rfl

end Sys2Proof.Machine
end

