-- ==== Sys2Proof/Laws/Dataset.lean ====
section
/-! SUPPORT. One specification lemma for each function of the dataset decoder and the horodate
parser: what it can answer, so that later proofs need not unfold it. -/

namespace Sys2Proof.Machine

/-- A span's byte inside the span. -/
theorem byteAt_of_lt (d : List Byte) (i : Nat) (h : i < d.length) : byteAt d i = d[i] := by
  simp [byteAt, h]

/-- The length of a slice that lies inside its span. -/
theorem length_slice (d : List Byte) (off len : Nat) (h : off + len ≤ d.length) :
    (slice d off len).length = len := by
  simp [slice]
  omega

@[simp] theorem slice_zero (d : List Byte) (off : Nat) : slice d off 0 = [] := by
  simp [slice]

/-- A buffer span has the length asked for. -/
@[simp] theorem length_srcSpan (s : State) (src : Src) (off len : Nat) :
    (srcSpan s src off len).length = len := by
  simp [srcSpan]

/-- The delimiter search answers the least index in range. -/
theorem findDelim_some (d : List Byte) (dl : Byte) (lo hi k : Nat)
    (h : findDelim d dl lo hi = some k) :
    lo ≤ k ∧ k < hi ∧ byteAt d k = dl ∧ ∀ i, lo ≤ i → i < k → byteAt d i ≠ dl := by
  unfold findDelim at h
  rw [List.find?_range'_eq_some] at h
  obtain ⟨hk, hm, hall⟩ := h
  simp only [beq_iff_eq] at hk
  simp only [List.mem_range'_1] at hm
  refine ⟨by omega, by omega, hk, fun i hi1 hi2 => ?_⟩
  have := hall i hi1 hi2
  simpa using this

/-- The delimiter search answers none exactly when the range holds no delimiter. -/
theorem findDelim_none (d : List Byte) (dl : Byte) (lo hi : Nat) :
    findDelim d dl lo hi = none ↔ ∀ i, lo ≤ i → i < hi → byteAt d i ≠ dl := by
  unfold findDelim
  rw [List.find?_eq_none]
  simp only [List.mem_range'_1, beq_iff_eq]
  constructor
  · intro h i h1 h2
    exact h i (by omega)
  · intro h i hi
    exact h i hi.1 (by omega)

/-- How to establish an answer of the delimiter search. -/
theorem findDelim_eq_some (d : List Byte) (dl : Byte) (lo hi k : Nat) (h1 : lo ≤ k) (h2 : k < hi)
    (h3 : byteAt d k = dl) (h4 : ∀ i, lo ≤ i → i < k → byteAt d i ≠ dl) :
    findDelim d dl lo hi = some k := by
  cases h : findDelim d dl lo hi with
  | none => exact absurd h3 ((findDelim_none d dl lo hi).1 h k h1 h2)
  | some j =>
    obtain ⟨j1, j2, j3, j4⟩ := findDelim_some d dl lo hi j h
    rcases Nat.lt_trichotomy j k with hjk | hjk | hjk
    · exact absurd j3 (h4 j j1 hjk)
    · rw [hjk]
    · exact absurd h3 (j4 k h1 hjk)

/-- The computed checksum byte as a number (30_encoding.md R83). -/
theorem checksum_toNat (bs : List Byte) : (checksum bs).toNat = byteSum bs % 64 + 32 := by
  have h : byteSum bs % 256 &&& 63 = byteSum bs % 64 := by
    rw [Nat.and_two_pow_sub_one_eq_mod _ 6]
    omega
  simp only [checksum, h, BitVec.toNat_ofNat]
  omega

/-- The variant is decided by the byte alone (42_decoder.md R176). -/
theorem variantOf_eq_some (b : Byte) (v : Variant) : variantOf b = some v ↔ b = v.delim := by
  cases v <;> simp only [variantOf, Variant.delim] <;> split <;> simp_all

/-- The span start is 0 or 1 (42_decoder.md R172). -/
theorem spanStart_le (d : List Byte) : spanStart d ≤ 1 := by
  unfold spanStart
  split <;> omega

/-- The span end drops at most one byte (42_decoder.md R173). -/
theorem spanEnd_cases (d : List Byte) :
    spanEnd d = d.length - 1 ∧ byteAt d (d.length - 1) = Wire.cr ∨
    spanEnd d = d.length ∧ byteAt d (d.length - 1) ≠ Wire.cr := by
  unfold spanEnd
  split
  · exact .inl ⟨rfl, by assumption⟩
  · exact .inr ⟨rfl, by assumption⟩

/-- Everything a split can answer: unchanged, or a valid dataset with or without a horodate
(42_decoder.md R178 to R180). -/
theorem splitLabel_cases (v : Variant) (d : List Byte) (st bodyEnd : Nat) (r : Res) :
    splitLabel v d st bodyEnd r = r ∨
    ∃ k, findDelim d v.delim st bodyEnd = some k ∧ 1 ≤ k - st ∧ k - st ≤ Wire.labelMax ∧
      splitLabel v d st bodyEnd r = splitValue v d st k bodyEnd r := by
  unfold splitLabel
  split
  · exact .inl rfl
  · rename_i k hk
    split
    · exact .inl rfl
    · rename_i h
      exact .inr ⟨k, hk, by omega, by omega, rfl⟩

/-- Everything `Decode` can answer (42_decoder.md R170): the failure result, a checksum
mismatch, or the split of a dataset whose checksum is right. -/
theorem decodeDataset_cases (src : Src) (d : List Byte) :
    decodeDataset src d = failResult src ∨
    ∃ v, Wire.minSpan ≤ d.length ∧ byteAt d (spanEnd d - 1 - 1) = v.delim ∧
      let e := spanEnd d - 1
      let computed := checksum (slice d (spanStart d) (sumEnd v e - spanStart d))
      let seen := { failResult src with
        ckSeen := true, ckRx := byteAt d e, ckCalc := computed }
      (computed ≠ byteAt d e ∧ decodeDataset src d = { seen with status := .wrongCrc } ∨
       computed = byteAt d e ∧
        decodeDataset src d = splitLabel v d (spanStart d) (e - 1) seen) := by
  unfold decodeDataset
  split
  · exact .inl rfl
  · rename_i hlen
    simp only
    split
    · exact .inl rfl
    · rename_i v hv
      refine .inr ⟨v, by omega, (variantOf_eq_some _ _).1 hv, ?_⟩
      simp only [checkSum]
      split
      · rename_i hc
        exact .inr ⟨hc, rfl⟩
      · rename_i hc
        exact .inl ⟨hc, rfl⟩

/-- The lexicographic order is reflexive. -/
@[simp] theorem lexCompare_self (k : List Nat) : lexCompare k k = .eq := by
  induction k with
  | nil => rfl
  | cons a as ih => simp [lexCompare, ih]

/-- Swapping the tuples swaps the answer. -/
theorem lexCompare_swap (a b : List Nat) : (lexCompare a b).swap = lexCompare b a := by
  induction a generalizing b with
  | nil => cases b <;> rfl
  | cons x xs ih =>
    cases b with
    | nil => rfl
    | cons y ys =>
      simp only [lexCompare]
      split
      · rename_i h
        simp [Nat.not_lt_of_gt h]
      · split
        · rfl
        · exact ih ys

/-- A two-digit field is at most 99 (43_horodate.md R212). -/
theorem field2_le (a b : Byte) : (field2 a b).1 ≤ 99 := by
  unfold field2
  split
  · rename_i h
    simp only [Bool.and_eq_true, isDigit, decide_eq_true_eq, digitValue] at *
    omega
  · simp

end Sys2Proof.Machine
end

