-- ==== Sys2Proof/Laws/Decode.lean ====
section
/-! SUPPORT. The decoder over a splitting bus: four bytes are one word, and the bytes of a word
make that word again. -/

namespace Sys2Proof

/-- Four bytes on the bus decode as their word does. -/
theorem decodeBus_cons (b0 b1 b2 b3 : Byte) (rest : List Byte) :
    decodeBus (b0 :: b1 :: b2 :: b3 :: rest) =
      (decode (wordOfBus b0 b1 b2 b3)).map fun i => (i, rest) := rfl

/-- The bytes of a word, low byte first, make the word (20_memory.md R63 (d)). -/
theorem wordOfBus_fields (w : Word) :
    wordOfBus (BitVec.ofNat 8 (field w 7 0)) (BitVec.ofNat 8 (field w 15 8))
      (BitVec.ofNat 8 (field w 23 16)) (BitVec.ofNat 8 (field w 31 24)) = w := by
  have hw := w.isLt
  apply BitVec.eq_of_toNat_eq
  simp only [wordOfBus, field, BitVec.toNat_ofNat]
  norm_num
  generalize w.toNat = n at *
  have h2 := Nat.div_add_mod (n / 256) 256
  have h3 := Nat.div_add_mod (n / 65536) 256
  have h4 : n / 65536 = n / 256 / 256 := by omega
  have h5 : n / 16777216 = n / 65536 / 256 := by omega
  omega

/-- The parts of a word built from an opcode and an operand field in range. -/
theorem fields_of_word (op x : Nat) (ho : op < 2 ^ 8) (hx : x < 2 ^ 24) :
    field (BitVec.ofNat 32 (2 ^ 24 * op + x)) 31 24 = op ∧
    field (BitVec.ofNat 32 (2 ^ 24 * op + x)) 23 8 = x / 256 ∧
    field (BitVec.ofNat 32 (2 ^ 24 * op + x)) 7 0 = x % 256 ∧
    field (BitVec.ofNat 32 (2 ^ 24 * op + x)) 23 20 = x / 2 ^ 20 ∧
    field (BitVec.ofNat 32 (2 ^ 24 * op + x)) 19 0 = x % 2 ^ 20 := by
  simp only [field, BitVec.toNat_ofNat]
  omega

end Sys2Proof
end

