-- ==== Sys2Proof/Laws/PerInstr.lean ====
section
/-! SUPPORT. Statements about every command as syntax, one lemma per constructor. -/

namespace Sys2Proof.Laws.Encoding

/-- The command word of a well-formed command is `{op[7:0], 24-bit operand field}`: both parts
can be read back from it (30_encoding.md R99). -/
def Statement (i : Instr) : Prop :=
  i.wf = true → field (encode i) 31 24 = i.opcode ∧ field (encode i) 23 0 = i.operandField

/-- The two parts of a word built from an opcode and an operand field in range. -/
theorem fields_of_parts (op x : Nat) (ho : op < 2 ^ 8) (hx : x < 2 ^ 24) :
    field (BitVec.ofNat 32 (2 ^ 24 * op + x)) 31 24 = op ∧
    field (BitVec.ofNat 32 (2 ^ 24 * op + x)) 23 0 = x := by
  simp only [field, BitVec.toNat_ofNat]
  omega

/-- A constructor whose opcode and operand field are in range satisfies the statement. -/
theorem of_ranges (i : Instr) (ho : i.opcode < 2 ^ 8)
    (hx : i.wf = true → i.operandField < 2 ^ 24) : Statement i :=
  fun h => fields_of_parts _ _ ho (hx h)

theorem byte_range (b : Byte) : b.toNat < 2 ^ 24 :=
  Nat.lt_trans b.isLt (by decide)

theorem nop : Statement .nop := of_ranges _ (by simp [Instr.opcode]) fun _ => by simp [Instr.operandField]

theorem unfPush (b : Byte) : Statement (.unfPush b) :=
  of_ranges _ (by simp [Instr.opcode]) fun _ => byte_range b

theorem unfSync : Statement .unfSync := of_ranges _ (by simp [Instr.opcode]) fun _ => by simp [Instr.operandField]

theorem unfMaxsz : Statement .unfMaxsz := of_ranges _ (by simp [Instr.opcode]) fun _ => by simp [Instr.operandField]

theorem extPush (b : Byte) : Statement (.extPush b) :=
  of_ranges _ (by simp [Instr.opcode]) fun _ => byte_range b

theorem extReset : Statement .extReset := of_ranges _ (by simp [Instr.opcode]) fun _ => by simp [Instr.operandField]

theorem extSync : Statement .extSync := of_ranges _ (by simp [Instr.opcode]) fun _ => by simp [Instr.operandField]

theorem decClear : Statement .decClear := of_ranges _ (by simp [Instr.opcode]) fun _ => by simp [Instr.operandField]

theorem decAppend (b : Byte) : Statement (.decAppend b) :=
  of_ranges _ (by simp [Instr.opcode]) fun _ => byte_range b

theorem decRun : Statement .decRun := of_ranges _ (by simp [Instr.opcode]) fun _ => by simp [Instr.operandField]

theorem decIsvalid : Statement .decIsvalid := of_ranges _ (by simp [Instr.opcode]) fun _ => by simp [Instr.operandField]

theorem decU32 : Statement .decU32 := of_ranges _ (by simp [Instr.opcode]) fun _ => by simp [Instr.operandField]

theorem cmpClear : Statement .cmpClear := of_ranges _ (by simp [Instr.opcode]) fun _ => by simp [Instr.operandField]

theorem cmpAppend (b : Byte) : Statement (.cmpAppend b) :=
  of_ranges _ (by simp [Instr.opcode]) fun _ => byte_range b

theorem cmpLabel : Statement .cmpLabel := of_ranges _ (by simp [Instr.opcode]) fun _ => by simp [Instr.operandField]

theorem horoSave : Statement .horoSave := of_ranges _ (by simp [Instr.opcode]) fun _ => by simp [Instr.operandField]

theorem horoCmp : Statement .horoCmp := of_ranges _ (by simp [Instr.opcode]) fun _ => by simp [Instr.operandField]

theorem regRead (r : Reg) : Statement (.regRead r) :=
  of_ranges _ (by simp [Instr.opcode]) fun _ => by cases r <;> decide

theorem bufRead (sp : Space) (idx : Nat) : Statement (.bufRead sp idx) :=
  of_ranges _ (by simp [Instr.opcode]) fun h => by
    have hi : idx < 2 ^ 20 := by simpa [Instr.wf] using h
    cases sp <;> simp only [Instr.operandField, Space.id] <;> omega

theorem blockReset : Statement .blockReset := of_ranges _ (by simp [Instr.opcode]) fun _ => by simp [Instr.operandField]

end Sys2Proof.Laws.Encoding
end

