-- ==== Sys2Proof/Laws/Pipeline.lean ====
section
/-! SUPPORT. What the pipeline can do: one inversion lemma for each byte operation, and what
each leaves alone. -/

namespace Sys2Proof.Machine

/-- Everything the extractor can do with a byte (41_extractor.md R141). -/
theorem extAction_cases (c : Config) (x : Ext) (b : Byte) :
    (x.sync = false ∧ b ≠ Wire.lf ∧ extAction c x b = .discard) ∨
    (x.sync = false ∧ b = Wire.lf ∧ extAction c x b = .openDataset) ∨
    (x.sync = true ∧ b = Wire.cr ∧ extAction c x b = .closeDataset false) ∨
    (x.sync = true ∧ b = Wire.lf ∧ c.lfPolicy ≠ .data ∧
      extAction c x b = .closeDataset (c.lfPolicy == .reopen)) ∨
    (x.sync = true ∧ datasetByte c b ∧ x.len < c.dsMax ∧ extAction c x b = .store x.len) ∨
    (x.sync = true ∧ datasetByte c b ∧ c.dsMax ≤ x.len ∧ extAction c x b = .drop) := by
  unfold extAction
  cases hs : x.sync with
  | false =>
    by_cases hb : b = Wire.lf <;> simp [hb]
  | true =>
    by_cases h1 : b = Wire.cr
    · simp [h1]
    · by_cases h2 : b = Wire.lf ∧ c.lfPolicy ≠ .data
      · simp [h2]
      · have hd : datasetByte c b := ⟨h1, fun hb => by
          by_contra hp
          exact h2 ⟨hb, hp⟩⟩
        by_cases h4 : x.len < c.dsMax
        · simp [h1, h2, hd, h4]
        · simp [h1, h2, hd, h4, Nat.le_of_not_lt h4]

/-- Everything the unframer can do with a byte (40_unframer.md R111). -/
theorem unfAction_cases (c : Config) (u : Unf) (b : Byte) :
    (u.sync = false ∧ b ≠ Wire.stx ∧ unfAction c u b = .discard) ∨
    (u.sync = false ∧ b = Wire.stx ∧ unfAction c u b = .openFrame) ∨
    (u.sync = true ∧ b = Wire.etx ∧ unfAction c u b = .close .endMarker) ∨
    (u.sync = true ∧ b = Wire.stx ∧ unfAction c u b = .close .restart) ∨
    (u.sync = true ∧ notFrameMarker b ∧ c.mode = .onTheFly ∧ unfAction c u b = .forward) ∨
    (u.sync = true ∧ notFrameMarker b ∧ c.mode = .cached ∧ u.flen < c.frameMax ∧
      unfAction c u b = .store u.flen) ∨
    (u.sync = true ∧ notFrameMarker b ∧ c.mode = .cached ∧ c.frameMax ≤ u.flen ∧
      unfAction c u b = .drop) := by
  unfold unfAction
  cases hs : u.sync with
  | false =>
    by_cases hb : b = Wire.stx <;> simp [hb]
  | true =>
    by_cases h1 : b = Wire.etx
    · simp [h1]
    · by_cases h2 : b = Wire.stx
      · simp [h2]
      · have hm : notFrameMarker b := ⟨h2, h1⟩
        cases hc : c.mode with
        | onTheFly => simp [h1, h2, hm]
        | cached =>
          by_cases h4 : u.flen < c.frameMax
          · simp [h1, h2, hm, h4]
          · simp [h1, h2, hm, h4, Nat.le_of_not_lt h4]

@[simp] theorem extDeliver_cfg (s : State) : (extDeliver s).cfg = s.cfg := rfl

@[simp] theorem extDeliver_unf (s : State) : (extDeliver s).unf = s.unf := rfl

@[simp] theorem extDeliver_hin (s : State) : (extDeliver s).hin = s.hin := rfl

@[simp] theorem extDeliver_ref (s : State) : (extDeliver s).ref = s.ref := rfl

@[simp] theorem extDeliver_cmp (s : State) : (extDeliver s).cmp = s.cmp := rfl

@[simp] theorem extDeliver_resp (s : State) : (extDeliver s).resp = s.resp := rfl

@[simp] theorem extDeliver_epoch (s : State) : (extDeliver s).epoch = s.epoch := rfl

@[simp] theorem extDeliver_host (s : State) : (extDeliver s).host = s.host := rfl

/-- What a delivery does to the extractor: only the cursor and the flag (41_extractor.md
R143). -/
@[simp] theorem extDeliver_ext (s : State) :
    (extDeliver s).ext = { s.ext with len := 0, drop := false } := rfl

/-- The result a delivery latches (41_extractor.md R143). -/
theorem extDeliver_res (s : State) :
    (extDeliver s).res = decodeDataset .dbuf (srcSpan s .dbuf 0 s.ext.len) := rfl

/-- The events of a delivery: `DATASET` at once followed by its `RECORD` (60_exceptions.md
R255 (d)). -/
theorem extDeliver_evPort (s : State) :
    (extDeliver s).evPort = s.evPort ++
      [.dataset (srcSpan s .dbuf 0 s.ext.len) s.ext.drop,
       recordEvent (srcSpan s .dbuf 0 s.ext.len)
         (decodeDataset .dbuf (srcSpan s .dbuf 0 s.ext.len))] := by
  simp only [extDeliver, runDecode_evPort, emit_evPort, List.append_assoc, List.cons_append,
    List.nil_append]
  rfl

@[simp] theorem extByte_cfg (b : Byte) (s : State) : (extByte b s).1.cfg = s.cfg := by
  unfold extByte
  split <;> rfl

@[simp] theorem extByte_unf (b : Byte) (s : State) : (extByte b s).1.unf = s.unf := by
  unfold extByte
  split <;> rfl

@[simp] theorem extByte_hin (b : Byte) (s : State) : (extByte b s).1.hin = s.hin := by
  unfold extByte
  split <;> rfl

@[simp] theorem extByte_ref (b : Byte) (s : State) : (extByte b s).1.ref = s.ref := by
  unfold extByte
  split <;> rfl

@[simp] theorem extByte_cmp (b : Byte) (s : State) : (extByte b s).1.cmp = s.cmp := by
  unfold extByte
  split <;> rfl

@[simp] theorem extByte_resp (b : Byte) (s : State) : (extByte b s).1.resp = s.resp := by
  unfold extByte
  split <;> rfl

@[simp] theorem extByte_epoch (b : Byte) (s : State) : (extByte b s).1.epoch = s.epoch := by
  unfold extByte
  split <;> rfl

@[simp] theorem extByte_host (b : Byte) (s : State) : (extByte b s).1.host = s.host := by
  unfold extByte
  split <;> rfl

/-- What a byte does to `DBUF`: a store at the index of `extAction`, or nothing. -/
theorem extByte_dbuf (b : Byte) (s : State) :
    (extByte b s).1.ext.dbuf =
      match extAction s.cfg s.ext b with
      | .store idx => cellSet s.ext.dbuf idx b
      | _ => s.ext.dbuf := by
  unfold extByte
  split <;> rename_i h <;> simp [h]

@[simp] theorem feed_cfg (bs : List Byte) (s : State) : (feed bs s).cfg = s.cfg := by
  induction bs generalizing s with
  | nil => rfl
  | cons b bs ih => simp [feed, ih]

@[simp] theorem feed_unf (bs : List Byte) (s : State) : (feed bs s).unf = s.unf := by
  induction bs generalizing s with
  | nil => rfl
  | cons b bs ih => simp [feed, ih]

@[simp] theorem feed_hin (bs : List Byte) (s : State) : (feed bs s).hin = s.hin := by
  induction bs generalizing s with
  | nil => rfl
  | cons b bs ih => simp [feed, ih]

@[simp] theorem feed_ref (bs : List Byte) (s : State) : (feed bs s).ref = s.ref := by
  induction bs generalizing s with
  | nil => rfl
  | cons b bs ih => simp [feed, ih]

@[simp] theorem feed_cmp (bs : List Byte) (s : State) : (feed bs s).cmp = s.cmp := by
  induction bs generalizing s with
  | nil => rfl
  | cons b bs ih => simp [feed, ih]

@[simp] theorem feed_resp (bs : List Byte) (s : State) : (feed bs s).resp = s.resp := by
  induction bs generalizing s with
  | nil => rfl
  | cons b bs ih => simp [feed, ih]

@[simp] theorem feed_epoch (bs : List Byte) (s : State) : (feed bs s).epoch = s.epoch := by
  induction bs generalizing s with
  | nil => rfl
  | cons b bs ih => simp [feed, ih]

@[simp] theorem feed_host (bs : List Byte) (s : State) : (feed bs s).host = s.host := by
  induction bs generalizing s with
  | nil => rfl
  | cons b bs ih => simp [feed, ih]

/-- Feeding a string and then another is feeding both. -/
theorem feed_append (as bs : List Byte) (s : State) :
    feed (as ++ bs) s = feed bs (feed as s) := by
  induction as generalizing s with
  | nil => rfl
  | cons a as ih => simp [feed, ih]

@[simp] theorem deliverPayload_cfg (s : State) : (deliverPayload s).cfg = s.cfg := by
  unfold deliverPayload
  split <;> simp

@[simp] theorem deliverPayload_unf (s : State) : (deliverPayload s).unf = s.unf := by
  unfold deliverPayload
  split <;> simp

@[simp] theorem deliverPayload_hin (s : State) : (deliverPayload s).hin = s.hin := by
  unfold deliverPayload
  split <;> simp

@[simp] theorem deliverPayload_ref (s : State) : (deliverPayload s).ref = s.ref := by
  unfold deliverPayload
  split <;> simp

@[simp] theorem deliverPayload_cmp (s : State) : (deliverPayload s).cmp = s.cmp := by
  unfold deliverPayload
  split <;> simp

@[simp] theorem deliverPayload_resp (s : State) : (deliverPayload s).resp = s.resp := by
  unfold deliverPayload
  split <;> simp

@[simp] theorem deliverPayload_epoch (s : State) : (deliverPayload s).epoch = s.epoch := by
  unfold deliverPayload
  split <;> simp

@[simp] theorem deliverPayload_host (s : State) : (deliverPayload s).host = s.host := by
  unfold deliverPayload
  split <;> simp

@[simp] theorem closeFrame_cfg (c : Cause) (s : State) : (closeFrame c s).cfg = s.cfg := by
  simp [closeFrame]

@[simp] theorem closeFrame_hin (c : Cause) (s : State) : (closeFrame c s).hin = s.hin := by
  simp [closeFrame]

@[simp] theorem closeFrame_ref (c : Cause) (s : State) : (closeFrame c s).ref = s.ref := by
  simp [closeFrame]

@[simp] theorem closeFrame_cmp (c : Cause) (s : State) : (closeFrame c s).cmp = s.cmp := by
  simp [closeFrame]

@[simp] theorem closeFrame_resp (c : Cause) (s : State) : (closeFrame c s).resp = s.resp := by
  simp [closeFrame]

@[simp] theorem closeFrame_epoch (c : Cause) (s : State) : (closeFrame c s).epoch = s.epoch := by
  simp [closeFrame]

@[simp] theorem closeFrame_host (c : Cause) (s : State) : (closeFrame c s).host = s.host := by
  simp [closeFrame]

/-- What a frame close does to the unframer (40_unframer.md R113). -/
theorem closeFrame_unf (c : Cause) (s : State) :
    (closeFrame c s).unf = { (histPush s.unf.flen s).unf with flen := 0, fdrop := false } := by
  simp [closeFrame, histPush]

/-- A frame close leaves the extractor OutOfSync (41_extractor.md R146). -/
theorem closeFrame_ext (c : Cause) (s : State) :
    (closeFrame c s).ext =
      { (deliverPayload s).ext with sync := false, len := 0, drop := false } := by
  simp [closeFrame, histPush]

/-- A frame close latches what its payload's datasets decode to. -/
theorem closeFrame_res (c : Cause) (s : State) :
    (closeFrame c s).res = (deliverPayload s).res := by
  simp [closeFrame, histPush]

/-- The last event of a frame close is its `FRAME_COMPLETE` (40_unframer.md R113). -/
theorem closeFrame_evPort (c : Cause) (s : State) :
    (closeFrame c s).evPort = (deliverPayload s).evPort ++ [.frameComplete c s.unf.fdrop] := by
  simp [closeFrame]

@[simp] theorem unfByte_cfg (b : Byte) (s : State) : (unfByte b s).1.cfg = s.cfg := by
  unfold unfByte
  split <;> simp

@[simp] theorem unfByte_hin (b : Byte) (s : State) : (unfByte b s).1.hin = s.hin := by
  unfold unfByte
  split <;> simp

@[simp] theorem unfByte_ref (b : Byte) (s : State) : (unfByte b s).1.ref = s.ref := by
  unfold unfByte
  split <;> simp

@[simp] theorem unfByte_cmp (b : Byte) (s : State) : (unfByte b s).1.cmp = s.cmp := by
  unfold unfByte
  split <;> simp

@[simp] theorem unfByte_resp (b : Byte) (s : State) : (unfByte b s).1.resp = s.resp := by
  unfold unfByte
  split <;> simp

@[simp] theorem unfByte_epoch (b : Byte) (s : State) : (unfByte b s).1.epoch = s.epoch := by
  unfold unfByte
  split <;> simp

@[simp] theorem unfByte_host (b : Byte) (s : State) : (unfByte b s).1.host = s.host := by
  unfold unfByte
  split <;> simp

end Sys2Proof.Machine
end

