-- ==== Sys2Proof/Tests/Slice0.lean ====
section
/-! SUPPORT. The model's own tests. Every expected value is written out from the spec: the
encoding tables of 30_encoding.md and the vectors of 95_test_vectors.md. The last part shows,
for every statement with hypotheses, a concrete state and operands that meet them. -/

namespace Sys2Proof.Tests

open Sys2Proof.Machine

/-! Ill-formed commands (30_encoding.md R89: an index has 20 bits; every other operand fits). -/

theorem test_wf_refuses_an_index_of_21_bits : (Instr.bufRead .dbuf (2 ^ 20)).wf = false := by decide

theorem test_wf_accepts_the_largest_index : (Instr.bufRead .cmp (2 ^ 20 - 1)).wf = true := by decide

/-! Decoding: words written out from the tables of 30_encoding.md R88 and R90. -/

theorem test_decode_unframer :
    decode 0x01000002 = .ok (.unfPush 0x02) ∧ decode 0x02000000 = .ok .unfSync ∧
    decode 0x03000000 = .ok .unfMaxsz := by decide

theorem test_decode_extractor :
    decode 0x040000FF = .ok (.extPush 0xFF) ∧ decode 0x05000000 = .ok .extReset ∧
    decode 0x06000000 = .ok .extSync := by decide

theorem test_decode_decoder :
    decode 0x07000000 = .ok .decClear ∧ decode 0x08000056 = .ok (.decAppend 0x56) ∧
    decode 0x09000000 = .ok .decRun ∧ decode 0x0A000000 = .ok .decIsvalid ∧
    decode 0x0B000000 = .ok .decU32 := by decide

theorem test_decode_compare :
    decode 0x0C000000 = .ok .cmpClear ∧ decode 0x0D000041 = .ok (.cmpAppend 0x41) ∧
    decode 0x0E000000 = .ok .cmpLabel := by decide

theorem test_decode_horodate :
    decode 0x0F000000 = .ok .horoSave ∧ decode 0x10000000 = .ok .horoCmp := by decide

theorem test_decode_system :
    decode 0x00000000 = .ok .nop ∧ decode 0x11000019 = .ok (.regRead .cmpLen) ∧
    decode 0x12300001 = .ok (.bufRead .hist 1) ∧
    decode 0x124FFFFF = .ok (.bufRead .cmp 0xFFFFF) ∧
    decode 0x13000000 = .ok .blockReset := by decide

/-- 95_test_vectors.md 2.1, each refusal by its name (30_encoding.md R96). -/
theorem test_decode_rejects_by_name :
    decode 0x14000000 = .error .reservedOpcode ∧ decode 0xFF000000 = .error .reservedOpcode ∧
    decode 0x01000100 = .error .mbzNonzero ∧ decode 0x00000001 = .error .mbzNonzero ∧
    decode 0x0900FF00 = .error .mbzNonzero ∧ decode 0x13000001 = .error .mbzNonzero ∧
    decode 0x1100001A = .error .reservedRegister ∧
    decode 0x12500000 = .error .reservedSpace := by decide

/-- 20_memory.md R63 (d): a splitting bus delivers bits [7:0] first. -/
theorem test_decode_bus :
    decodeBus [0x03, 0x00, 0x10, 0x12, 0x77] = .ok (.bufRead .dbuf 3, [0x77]) ∧
    decodeBus [0x03, 0x00, 0x10] = .error .truncatedWord := by decide

/-- The table's word numbers bit 0 as the least significant bit (log entry 15). -/
theorem test_decode_table_word :
    decodeTableWord 32 0x11000008 = some (.regRead .unfMaxsz) ∧
    decodeTableWord 32 0x14000000 = none := by decide

/-- 30_encoding.md R97 and R98, the spec's own examples. -/
theorem test_assemble_commands :
    assemble "unf.push 0x02" = some [0x01000002] ∧
    assemble "buf.read dbuf, 3" = some [0x12100003] ∧
    assemble "dec.append 'V' ; a comment" = some [0x08000056] ∧
    assemble "reg.read UNF_MAXSZ" = some [0x11000008] := by decide

/-- 95_test_vectors.md P4: the expansion of `label.eq`. -/
theorem test_assemble_pseudo :
    assemble "label.eq \"A\"" = some [0x0C000000, 0x0D000041, 0x0E000000] ∧
    assemble "ext.pushs [0x0a, 0x0d]" = some [0x0400000A, 0x0400000D] := by decide

/-- 95_test_vectors.md 2.8, a list with a string in it; and a comma and a `;` between quotes. -/
theorem test_assemble_list :
    (parseLine "unf.pushs [02, 0a, \"VTIC\\t02\\tJ\", 0d]".toList =
      some ([0x02, 0x0A, 0x56, 0x54, 0x49, 0x43, 0x09, 0x30, 0x32, 0x09, 0x4A, 0x0D].map
        Instr.unfPush)) ∧
    (parseLine "ext.pushs [',', \"a,b;\"] ; a comment".toList =
      some ([0x2C, 0x61, 0x2C, 0x62, 0x3B].map Instr.extPush)) := by decide

/-- 95_test_vectors.md P2: a list that goes on in the next line. -/
theorem test_assemble_two_lines :
    assemble "unf.pushs [30,32, 0d,\n           0a, 03]" =
      some [0x01000030, 0x01000032, 0x0100000D, 0x0100000A, 0x01000003] := by decide

/-! Small states. -/

/-- The cells of a buffer that holds `bs` from index 0. -/
def cellsOf {α : Type} (bs : List α) : Cells α := (List.range bs.length).zip bs

/-- The bytes of a text. -/
def text (t : String) : List Byte := t.toList.map fun c => BitVec.ofNat 8 c.toNat

/-- A small build for tests: three of everything. -/
def small (m : Mode) : Config :=
  { Config.default with mode := m, frameMax := 2, dsMax := 3, histDepth := 3 }

/-- A frame is open; in `CACHED` mode `bs` is stored of it. -/
def frameOpen (c : Config) (bs : List Byte) : State :=
  { State.resetWith c with
    unf := { Unf.reset with
      sync := true
      flen := bs.length
      fbuf := if c.mode = .cached then cellsOf bs else [] } }

/-- A dataset is open and holds `bs`. -/
def datasetOpen (c : Config) (bs : List Byte) : State :=
  { State.resetWith c with
    ext := { Ext.reset with sync := true, len := bs.length, dbuf := cellsOf bs } }

/-- The host buffer holds `bs`. -/
def hostSpan (bs : List Byte) : State :=
  { State.reset with hin := { Hin.reset with len := bs.length, buf := cellsOf bs } }

/-- A valid result with label `VTIC` and value `02`, as 95_test_vectors.md 2.5 row 1 gives, and
`candidate` in the compare buffer. -/
def resultState (candidate : List Byte) : State :=
  { hostSpan (text "VTIC\t02\tJ") with
    res := { Res.reset with
      status := .validStd, src := .hin, labelLen := 4, valueOff := 5, valueLen := 2,
      ckSeen := true, ckRx := 0x4A, ckCalc := 0x4A }
    cmp := { Cmp.reset with len := candidate.length, buf := cellsOf candidate } }

/-- The state after a command (every command answers a next state). -/
def after (i : Instr) (s : State) : State :=
  match exec i s with
  | .next t => t
  | .fault _ => s
  | .refused _ => s

/-- The response of a command. -/
def answer (i : Instr) (s : State) : Option Response := (after i s).resp

/-- A response that is not a refusal. -/
def ok (d : Word) : Option Response := some { illegal := false, data := d }

/-! One step of each command, against 95_test_vectors.md. -/

theorem test_nop : after .nop State.reset = { State.reset with resp := ok 0 } := by decide

/-- 2.3 "STATUS during overflow" and "cached overflow": the third byte is dropped. -/
theorem test_unfPush_cached_overflow :
    answer (.unfPush 0x43) (frameOpen (small .cached) [0x41, 0x42]) = ok 0 ∧
    regValue (after (.unfPush 0x43) (frameOpen (small .cached) [0x41, 0x42])) .status = 5 := by
  decide

/-- 2.3 "restart, cached": the second 02 delivers and closes with RESTART. -/
theorem test_unfPush_restart :
    (after (.unfPush 0x02) (frameOpen (small .cached) [0x41])).evPort =
      [.frameBytes [0x41], .frameComplete .restart false] ∧
    (after (.unfPush 0x02) (frameOpen (small .cached) [0x41])).unf.hist = [(0, 1)] := by decide

/-- 2.3 "sync query". -/
theorem test_unfSync :
    answer .unfSync (frameOpen Config.default []) = ok 1 ∧ answer .unfSync State.reset = ok 0 := by
  decide

/-- 2.3 "history, depth 3". -/
theorem test_unfMaxsz :
    answer .unfMaxsz { State.resetWith (small .onTheFly) with
      unf := { Unf.reset with hcnt := 3, hist := cellsOf [2, 5, 1] } } = ok 5 := by decide

/-- 2.4 "`DS_MAX` = 3": the fourth byte is dropped and counted. -/
theorem test_extPush_overflow :
    answer (.extPush 0x44) (datasetOpen (small .onTheFly) (text "ABC")) = ok 0 ∧
    regValue (after (.extPush 0x44) (datasetOpen (small .onTheFly) (text "ABC"))) .extOvf = 1 ∧
    regValue (after (.extPush 0x44) (datasetOpen (small .onTheFly) (text "ABC"))) .status = 10 := by
  decide

/-- 2.4 "LF mid-dataset", `REOPEN`: delivered, decoded, reopened. -/
theorem test_extPush_lf_reopens :
    (after (.extPush 0x0A) (datasetOpen (small .onTheFly) (text "A"))).evPort =
      [.dataset [0x41] false, .record .dbuf .malformed [] [] false Horo.invalid] ∧
    (after (.extPush 0x0A) (datasetOpen (small .onTheFly) (text "A"))).ext.sync = true := by decide

/-- 2.4 "`EXT_RESET` mid-dataset": nothing is delivered. -/
theorem test_extReset :
    (after .extReset (datasetOpen Config.default (text "A"))).evPort = [] ∧
    regValue (after .extReset (datasetOpen Config.default (text "A"))) .status = 0 ∧
    regValue (after .extReset (datasetOpen Config.default (text "A"))) .extLen = 0 := by decide

theorem test_extSync : answer .extSync (datasetOpen Config.default []) = ok 1 := by decide

/-- 2.6: after an overflow `dec.clear` answers 0 and STATUS reads 0. -/
theorem test_decClear :
    regValue (after .decClear { State.reset with hin := { Hin.reset with len := 4, drop := true } })
      .status = 0 := by decide

/-- 2.6 "`HIN` fill and overflow": full at `DS_MAX`, STATUS 0x10. -/
theorem test_decAppend_overflow :
    answer (.decAppend 0x09)
      { State.resetWith (small .onTheFly) with hin := { Hin.reset with len := 3 } } = ok 0 ∧
    regValue (after (.decAppend 0x09)
      { State.resetWith (small .onTheFly) with hin := { Hin.reset with len := 3 } })
      .status = 0x10 := by decide

theorem test_decAppend_stores :
    answer (.decAppend 0x49) (hostSpan (text "VT")) = ok 1 ∧
    (after (.decAppend 0x49) (hostSpan (text "VT"))).hin.buf =
      [(0, 0x56), (1, 0x54), (2, 0x49)] := by decide

/-- 2.5 row 1: VALID_STD, `VTIC` and `02`. -/
theorem test_decRun_standard :
    answer .decRun (hostSpan (text "VTIC\t02\tJ")) = ok 3 ∧
    (after .decRun (hostSpan (text "VTIC\t02\tJ"))).evPort =
      [.record .hin .validStd (text "VTIC") (text "02") false Horo.invalid] ∧
    regValue (after .decRun (hostSpan (text "VTIC\t02\tJ"))) .resCk = 0x00014A4A := by decide

/-- 2.5, a span with both markers: offsets count in the span as given. -/
theorem test_decode_stripped_markers :
    (let r := decodeDataset .hin (text "\nVTIC\t02\tJ\r")
     (r.labelOff, r.labelLen, r.valueOff, r.valueLen)) = (1, 4, 6, 2) := by decide

/-- 2.5, a historical dataset with a horodate span that is not 13 bytes. -/
theorem test_decRun_historical :
    answer .decRun (hostSpan (text "ADCO 12 34 A")) = ok 2 ∧
    regValue (after .decRun (hostSpan (text "ADCO 12 34 A"))) .resStatus = 0xE ∧
    regValue (after .decRun (hostSpan (text "ADCO 12 34 A"))) .resValueOff = 8 ∧
    regValue (after .decRun (hostSpan (text "ADCO 12 34 A"))) .resHoro0 = 0x07D00003 := by decide

theorem test_decIsvalid :
    answer .decIsvalid (resultState []) = ok 1 ∧ answer .decIsvalid State.reset = ok 0 := by decide

theorem test_decU32 :
    answer .decU32 (resultState []) = ok 2 ∧ answer .decU32 State.reset = ok 0xFFFFFFFF := by decide

/-- 2.6, the rows 4294967294, 4294967296 and 12a. -/
theorem test_toU32_limits :
    toU32 (text "4294967294") = 0xFFFFFFFE ∧ toU32 (text "4294967296") = 0xFFFFFFFF ∧
    toU32 (text "12a") = 0xFFFFFFFF ∧ toU32 (text "0000000000042") = 42 := by decide

theorem test_cmpClear :
    regValue (after .cmpClear (resultState (text "VT"))) .cmpLen = 0 := by decide

/-- 2.6 "`ABCDEFGHI`": the ninth byte answers 0 and sets `CMP.over`. -/
theorem test_cmpAppend_overflow :
    answer (.cmpAppend 0x49) (resultState (text "ABCDEFGH")) = ok 0 ∧
    (after (.cmpAppend 0x49) (resultState (text "ABCDEFGH"))).cmp.len = 8 ∧
    (after (.cmpAppend 0x49) (resultState (text "ABCDEFGH"))).cmp.overflow = true := by decide

/-- 2.6: the exact label, a prefix, another case, the empty candidate. -/
theorem test_cmpLabel :
    answer .cmpLabel (resultState (text "VTIC")) = ok 1 ∧
    answer .cmpLabel (resultState (text "VTI")) = ok 0 ∧
    answer .cmpLabel (resultState (text "vtic")) = ok 0 ∧
    answer .cmpLabel (resultState []) = ok 0 := by decide

/-- P3: the winter horodate saved reads as the listing says. -/
theorem test_horoSave :
    let s := after .horoSave { State.reset with
      res := { Res.reset with horo := parseHorodate (text "H081225223518") } }
    regValue s .refHoro0 = 0x07D80009 ∧ regValue s .refHoro1 = 0x2316190C ∧
    regValue s .refHoro2 = 0x12 := by decide

/-- P3 and 2.7: later is GREATER, February 31 is LESS than March 1, reset is EQUAL. -/
theorem test_horoCmp :
    answer .horoCmp { State.reset with
      res := { Res.reset with horo := parseHorodate (text "e081225223519") }
      ref := parseHorodate (text "H081225223518") } = ok 2 ∧
    answer .horoCmp { State.reset with
      res := { Res.reset with horo := parseHorodate (text "E230231240000") }
      ref := parseHorodate (text "E230301000000") } = ok 1 ∧
    answer .horoCmp State.reset = ok 0 := by decide

/-- 2.7, "E23010112X000": a non-digit minute counts 0 and the later fields are still parsed. -/
theorem test_horodate_stores_every_field :
    horo0Fields (parseHorodate (text "E23010112X000")) = 0x07E70002 ∧
    horo1Fields (parseHorodate (text "E23010112X000")) = 0x000C0101 := by decide

/-- 2.2: CONFIG of the default build and of another one; `RES_HORO0` after reset. -/
theorem test_regRead :
    answer (.regRead .config) State.reset = ok 0x00041001 ∧
    answer (.regRead .config) (State.resetWith { Config.default with
      mode := .cached, frameMax := 11, lfPolicy := .desync, lenW := 12, cntW := 8 }) =
      ok 0x00020C02 ∧
    answer (.regRead .resHoro0) State.reset = ok 0x07D00003 := by decide

/-- 2.1 and 2.8: an element, the capacity, and `FBUF` in `ON_THE_FLY` mode. -/
theorem test_bufRead :
    answer (.bufRead .hin 0) (resultState []) = ok 0x56 ∧
    answer (.bufRead .dbuf 128) State.reset = some { illegal := true, data := 0 } ∧
    answer (.bufRead .fbuf 0) State.reset = some { illegal := true, data := 0 } ∧
    answer (.bufRead .cmp 10) State.reset = some { illegal := true, data := 0 } := by decide

/-- 2.8: every value of 2.2 is restored and the parameters are unchanged. -/
theorem test_blockReset :
    after .blockReset (frameOpen (small .cached) [0x41]) =
      { State.resetWith (small .cached) with resp := ok 0, epoch := 1 } := by decide

/-! Steps (30_encoding.md R87, 70_reset_and_hazards.md R284, R285). -/

/-- The state after one step of a valid build. -/
def stepped (s : State) : State :=
  match step s with
  | .next t => t
  | .fault _ => s
  | .refused _ => s

/-- 2.1: a refused word answers 1/0 and nothing else changes. -/
theorem test_step_refused_word :
    stepped (State.reset.withFetchWord 32 0x01000100) =
      { State.reset with resp := some { illegal := true, data := 0 } } := by decide

/-- With an event on the port a command waits; taking the event ends the wait. -/
theorem test_step_waits :
    stepped { State.reset with evPort := [.frameBytes [0x41]], host := [.issue 0] } =
      { State.reset with evPort := [.frameBytes [0x41]], host := [.issue 0] } ∧
    stepped { State.reset with evPort := [.frameBytes [0x41]], host := [.takeEvent] } =
      State.reset := by decide

/-! Witnesses: for each statement with hypotheses, a state and operands that meet them, clause by
clause, at the boundary values. -/

/-- A ready block whose host issues `w`. -/
def issuing (c : Config) (w : Word) : State := { State.resetWith c with host := [.issue w] }

/-- Words of an opcode with the smallest and the largest nonzero must-be-zero field. -/
def mbzWords (op : Nat) : Bool :=
  let least := BitVec.ofNat 32 (op * 2 ^ 24 + 1)
  let least8 := BitVec.ofNat 32 (op * 2 ^ 24 + 0x100)
  let most := BitVec.ofNat 32 (op * 2 ^ 24 + 0xFFFFFF)
  field least 31 24 == op && field least 23 0 != 0 &&
  field least8 31 24 == op && field least8 23 8 != 0 &&
  field most 31 24 == op && field most 23 8 != 0 && field most 23 0 != 0

/-- The encoding clauses of every statement that has them, at each opcode they name. -/
theorem witness_encoding_clauses :
    ((List.range 0x12 ++ [0x13]).all mbzWords) = true := by decide

theorem witness_FlagQueriesAnswerTheirFlag :
    mbzWords 0x02 ∧ mbzWords 0x06 ∧ mbzWords 0x0A := by decide

theorem witness_ClearsAndExtResetWriteOnlyTheirFields :
    mbzWords 0x05 ∧ mbzWords 0x07 ∧ mbzWords 0x0C := by decide

theorem witness_DecRunDecodesTheHostBuffer : mbzWords 0x09 := by decide

theorem witness_NopAnswersZeroAndNothingElse :
    (field 0x00000001 31 24 = 0 ∧ field 0x00000001 23 0 ≠ 0) ∧
    (field 0x00FFFFFF 31 24 = 0 ∧ field 0x00FFFFFF 23 0 ≠ 0) := by decide

theorem witness_BothResetsAreIndistinguishable :
    (frameOpen (small .cached) [0x41]).cfg.valid = true := by decide

theorem witness_ReadsHaveNoSideEffect :
    isRead .unfSync = true ∧ isRead .unfMaxsz = true ∧ isRead .extSync = true ∧
    isRead .decIsvalid = true ∧ isRead .decU32 = true ∧ isRead .cmpLabel = true ∧
    isRead .horoCmp = true ∧ isRead (.regRead .status) = true ∧
    isRead (.bufRead .cmp 7) = true ∧ isRead (.bufRead .cmp 8) = true := by decide

theorem witness_PlainRegistersReadTheirElement :
    (State.resetWith (small .cached)).cfg.mode = .cached ∧ State.reset.cfg.mode = .onTheFly := by
  decide

/-- The widest registers and the fullest compare buffer. -/
theorem witness_PackedRegistersHoldTheirFields :
    (State.resetWith { Config.default with lenW := 32, cntW := 32 }).cfg.valid = true ∧
    (resultState (text "ABCDEFGH")).cmp.len = 8 := by decide

/-- The last legal index of each space and the first refused one. -/
theorem witness_BufReadAnswersTheElementOrRefuses :
    (State.reset.cfg.mode = .onTheFly) ∧
    (let c := (State.resetWith (small .cached)).cfg
     ¬ (c.mode = .onTheFly) ∧ 1 < c.frameMax ∧ c.frameMax ≤ 2 ∧ 2 < c.dsMax ∧ c.dsMax ≤ 3 ∧
     2 < c.histDepth ∧ c.histDepth ≤ 3) ∧
    (7 < 8 ∧ 8 ≤ 8) ∧ 2 ^ 20 - 1 < 2 ^ 20 ∧
    (field 0x12500000 31 24 = 0x12 ∧ 5 ≤ field 0x12500000 23 20) := by decide

/-- Each of R96 (a) to (d) at its boundary, and words just inside. -/
theorem witness_RefusedWordsAnswerIllegal :
    (∀ w : Word, let s := issuing Config.default w
      s.cfg.valid = true ∧ s.evPort = [] ∧ s.host = .issue w :: [] ∧ s.cfg = Config.default) ∧
    ([0x14000000, 0xFF000000, 0x01000100, 0x00000001, 0x1100001A, 0x110000FF, 0x12500000,
      0x12F00000, 0x12000000, 0x12100080, 0x12400008].all fun w : Word =>
      refusedWord Config.default.mode (capacity Config.default) w) = true ∧
    ([0x13000000, 0x010000FF, 0x11000019, 0x1210007F, 0x12400007].all fun w : Word =>
      !refusedWord Config.default.mode (capacity Config.default) w) = true :=
  ⟨fun _ => ⟨rfl, rfl, rfl, rfl⟩, by decide, by decide⟩

theorem witness_DecodingAnEncodedCommandGivesItBack :
    (Instr.bufRead .hist (2 ^ 20 - 1)).wf = true ∧ (Instr.unfPush 0xFF).wf = true := by decide

theorem witness_EveryAcceptedWordIsItsCommandsEncoding :
    decode 0x124FFFFF = .ok (.bufRead .cmp 0xFFFFF) := by decide

/-- Every format N and B opcode, the least register number and must-be-zero field of `REG_READ`
that are refused and the largest, the largest `BUF_READ` index. -/
theorem witness_WordsOfTheSpecDecodeAsWritten :
    ((List.range 0x11 ++ [0x13]).all mbzWords) = true ∧
    (field 0x1100001A 31 24 = 0x11 ∧ 0x1A ≤ field 0x1100001A 7 0) ∧
    (field 0x110000FF 31 24 = 0x11 ∧ 0x1A ≤ field 0x110000FF 7 0) ∧
    (field 0x11000100 31 24 = 0x11 ∧ field 0x11000100 23 8 ≠ 0) ∧
    ([Space.fbuf, .dbuf, .hin, .hist, .cmp][4]? = some .cmp ∧ 2 ^ 20 - 1 < 2 ^ 20) ∧
    (Instr.regRead .cmpLen).wf = true := by decide

theorem witness_StepRunsTheDecodedCommand :
    (let s := issuing Config.default 0x09000000
     s.cfg.valid = true ∧ s.evPort = [] ∧ s.host = .issue 0x09000000 :: [] ∧
     decode 0x09000000 = .ok .decRun) ∧
    (let s := issuing Config.default 0x14000000
     s.cfg.valid = true ∧ s.evPort = [] ∧ s.host = .issue 0x14000000 :: [] ∧
     decode 0x14000000 = .error .reservedOpcode) ∧
    decodeTableWord 32 0x09000000 = some .decRun := by decide

theorem witness_CommandsWaitForTheEventDrain :
    let e := Event.frameBytes [0x41]
    let busy : State := { State.reset with evPort := [e], host := [.issue 0] }
    let drain : State := { State.reset with evPort := [e], host := [.takeEvent] }
    let empty : State := { State.reset with host := [.takeEvent] }
    let off : State := { State.reset with host := [.resetInput] }
    busy.cfg.valid = true ∧ busy.evPort = e :: [] ∧ busy.host = .issue 0 :: [] ∧
    drain.evPort = e :: [] ∧ drain.host = .takeEvent :: [] ∧
    empty.evPort = [] ∧ empty.host = .takeEvent :: [] ∧ State.reset.host = [] ∧
    off.host = .resetInput :: [] := by decide

theorem witness_NoCommandEverStops : State.reset.cfg.valid = true := by decide

/-- A build on every upper bound, and builds just outside one bound each. -/
theorem witness_InvalidBuildIsRefused :
    (Config.valid { Config.default with
      frameMax := 2 ^ 20, dsMax := 2 ^ 20, histDepth := 2 ^ 20, lenW := 32, cntW := 32 } = true) ∧
    ({ State.reset with cfg := { Config.default with frameMax := 2 ^ 16 } } : State).cfg.valid =
      false ∧
    ({ State.reset with cfg := { Config.default with lenW := 7 } } : State).cfg.valid = false ∧
    ({ State.reset with cfg := { Config.default with cntW := 33 } } : State).cfg.valid = false ∧
    ({ State.reset with cfg := { Config.default with histDepth := 0 } } : State).cfg.valid =
      false := by decide

theorem witness_NoStepChangesTheBuild :
    step State.reset = .next State.reset ∧
    exec .nop State.reset = .next { State.reset with resp := ok 0 } := ⟨rfl, rfl⟩

/-- A command of each kind; `DEC_RUN`; an end marker with a dataset open; a payload byte in each
mode, and a frame close. -/
theorem witness_CommandsOnlyAppendEvents :
    (exec .nop State.reset = .next { State.reset with resp := ok 0 } ∧
      (∀ b, Instr.nop ≠ .unfPush b ∧ Instr.nop ≠ .extPush b) ∧ Instr.nop ≠ .decRun) ∧
    (∃ t, exec .decRun State.reset = .next t) ∧
    (let s := datasetOpen (small .onTheFly) [0x41]
     s.ext.sync = true ∧ ∃ t, exec (.extPush 0x0D) s = .next t) ∧
    (State.reset.unf.sync = false ∧ ∃ t, exec (.unfPush 0x41) State.reset = .next t) ∧
    (let s := frameOpen (small .cached) [0x41]
     s.unf.sync = true ∧ s.cfg.mode = .cached ∧ (0x41 : Byte) ≠ 0x02 ∧ (0x41 : Byte) ≠ 0x03 ∧
     (∃ t, exec (.unfPush 0x41) s = .next t) ∧ ∃ t, exec (.unfPush 0x03) s = .next t) ∧
    (let s := frameOpen (small .onTheFly) [0x41]
     s.unf.sync = true ∧ s.cfg.mode = .onTheFly ∧ ∃ t, exec (.unfPush 0x41) s = .next t) :=
  ⟨⟨rfl, by simp, by simp⟩, ⟨_, rfl⟩, ⟨by decide, _, rfl⟩, ⟨by decide, _, rfl⟩,
   ⟨by decide, by decide, by decide, by decide, ⟨_, rfl⟩, _, rfl⟩, ⟨by decide, by decide, _, rfl⟩⟩

theorem witness_MaxSizeIsTheMaximumOfTheHistory :
    State.reset.unf.hcnt = 0 ∧
    (after (.unfPush 0x03) (frameOpen (small .cached) [0x41])).unf.hcnt = 1 := by decide

theorem witness_NoiseOutOfSyncChangesNothing :
    State.reset.unf.sync = false ∧ (0x03 : Byte) ≠ 0x02 := by decide

theorem witness_StartMarkerOpensAFrame : State.reset.unf.sync = false := by decide

theorem witness_RestartReentersWithAnEmptyFrame :
    (frameOpen (small .cached) [0x41]).unf.sync = true ∧
    (frameOpen (small .onTheFly) []).unf.sync = true := by decide

theorem witness_OnTheFlyCloseSignalsAndResetsTheExtractor :
    let s := frameOpen (small .onTheFly) [0x41]
    s.cfg.mode = .onTheFly ∧ s.unf.sync = true ∧
    ((0x03 : Byte) = 0x03 ∨ (0x03 : Byte) = 0x02) ∧
    ((0x02 : Byte) = 0x03 ∨ (0x02 : Byte) = 0x02) := by decide

theorem witness_CachedCloseDeliversThenSignals :
    let s := frameOpen (small .cached) [0x0A, 0x41]
    let empty := frameOpen (small .cached) []
    s.cfg.mode = .cached ∧ s.unf.sync = true ∧ s.unf.flen = 2 ∧
    empty.cfg.mode = .cached ∧ empty.unf.sync = true ∧ empty.unf.flen = 0 ∧
    ((0x03 : Byte) = 0x03 ∨ (0x03 : Byte) = 0x02) := by decide

theorem witness_FrameCloseRecordsTheSizeInTheRing :
    (frameOpen (small .cached) [0x41]).unf.sync = true ∧
    ((0x02 : Byte) = 0x03 ∨ (0x02 : Byte) = 0x02) := by decide

theorem witness_OnTheFlyPayloadIsForwardedToTheExtractor :
    let s := frameOpen (small .onTheFly) []
    s.cfg.mode = .onTheFly ∧ s.unf.sync = true ∧ (0x0A : Byte) ≠ 0x02 ∧ (0x0A : Byte) ≠ 0x03 := by
  decide

/-- One byte of room, and none. -/
theorem witness_CachedPayloadIsStoredOrDropped :
    let s := frameOpen (small .cached) [0x41]
    let full := frameOpen (small .cached) [0x41, 0x42]
    s.cfg.mode = .cached ∧ s.unf.sync = true ∧ (0x43 : Byte) ≠ 0x02 ∧ (0x43 : Byte) ≠ 0x03 ∧
    unfAction s.cfg s.unf 0x43 = .store 1 ∧ s.unf.flen < s.cfg.frameMax ∧
    full.cfg.mode = .cached ∧ full.unf.sync = true ∧ full.cfg.frameMax ≤ full.unf.flen := by decide

/-- Each kind of byte that the frame's clauses tell apart. -/
theorem witness_UnfPushLeavesTheRestAlone :
    unfAction (small .cached) (frameOpen (small .cached) [0x41]).unf 0x43 = .store 1 ∧
    unfAction (small .cached) (frameOpen (small .cached) [0x41]).unf 0x03 = .close .endMarker ∧
    unfAction (small .onTheFly) (frameOpen (small .onTheFly) []).unf 0x41 = .forward ∧
    extAction (small .onTheFly) (datasetOpen (small .onTheFly) [0x41]).ext 0x42 = .store 1 ∧
    unfAction (small .onTheFly) State.reset.unf 0x41 = .discard ∧
    feedStores [0x0A, 0x41, 0x42] (State.resetWith (small .cached)) = [0, 1] := by decide

theorem witness_UnfPushAnswersZeroOnlyWhenTheFrameBufferIsFull :
    let full := frameOpen (small .cached) [0x41, 0x42]
    let room := frameOpen (small .cached) [0x41]
    (full.unf.sync = true ∧ full.cfg.mode = .cached ∧ (0x43 : Byte) ≠ 0x02 ∧
      (0x43 : Byte) ≠ 0x03 ∧ full.cfg.frameMax ≤ full.unf.flen) ∧
    ¬ (room.cfg.frameMax ≤ room.unf.flen) := by decide

/-- A payload of exactly `FRAME_MAX` bytes, from an open frame and from OutOfSync. -/
theorem witness_ResynchronizationDeliversTheFrame :
    (∀ b ∈ ([0x31, 0x32] : List Byte), b ≠ 0x02 ∧ b ≠ 0x03) ∧
    ((small .cached).mode = .cached → ([0x31, 0x32] : List Byte).length ≤ (small .cached).frameMax) ∧
    (frameOpen (small .cached) [0x41]).cfg = small .cached ∧
    (frameOpen (small .cached) [0x41]).unf.sync = true ∧ State.reset.unf.sync = false := by decide

/-- A state of the kind log entry 23 names is one `EXT_PUSH 0x0a` away from reset. -/
theorem witness_RecoveryFromEveryStateAsWritten :
    let s := after (.extPush 0x0A) State.reset
    s.unf.sync = false ∧ s.ext.sync = true := by decide

theorem witness_RecoveryWhenAFrameIsOpenOrTheExtractorIdle :
    (frameOpen (small .cached) [0x41]).unf.sync = true ∧
    (State.reset.unf.sync = false ∧ State.reset.ext.sync = false) ∧
    ((∀ b, Instr.unfPush 0x03 ≠ .extPush b) ∧
      ∃ t, exec (.unfPush 0x03) (frameOpen (small .cached) [0x41]) = .next t) :=
  ⟨by decide, by decide, by simp, _, rfl⟩

/-- OutOfSync noise and LF; InSync a data byte and an LF of a `DATA` build, with room and
without. -/
theorem witness_ExtPushByCases :
    let dataBuild : Config := { small .onTheFly with lfPolicy := .data }
    let s := datasetOpen dataBuild [0x41, 0x42]
    let full := datasetOpen dataBuild [0x41, 0x42, 0x43]
    (State.reset.ext.sync = false ∧ (0x0D : Byte) ≠ 0x0A) ∧
    (s.ext.sync = true ∧ (0x0A : Byte) ≠ 0x0D ∧ ((0x0A : Byte) = 0x0A → s.cfg.lfPolicy = .data) ∧
      s.ext.len < s.cfg.dsMax) ∧
    (full.ext.sync = true ∧ full.cfg.dsMax ≤ full.ext.len) := by decide

theorem witness_EndMarkerDeliversTheDataset :
    let s := datasetOpen (small .onTheFly) [0x41]
    let d := datasetOpen { small .onTheFly with lfPolicy := .desync } []
    s.ext.sync = true ∧ ((0x0D : Byte) = 0x0D ∨ ((0x0D : Byte) = 0x0A ∧ s.cfg.lfPolicy ≠ .data)) ∧
    s.cfg.lfPolicy ≠ .data ∧ d.ext.sync = true ∧ d.cfg.lfPolicy ≠ .data := by decide

theorem witness_ExtPushLeavesTheRestAlone :
    let s := datasetOpen (small .onTheFly) [0x41]
    extAction s.cfg s.ext 0x42 = .store 1 ∧ extAction s.cfg s.ext 0x0D = .closeDataset false ∧
    extAction s.cfg State.reset.ext 0x41 = .discard := by decide

theorem witness_TheFrameBoundaryResetRemovesTheSpuriousDataset :
    let fly := frameOpen (small .onTheFly) [0x41]
    let cached := frameOpen (small .cached) []
    (fly.unf.sync = true ∧ fly.ext.sync = false ∧ (fly.cfg.mode = .cached → fly.unf.flen = 0)) ∧
    (cached.unf.sync = true ∧ cached.ext.sync = false ∧
      (cached.cfg.mode = .cached → cached.unf.flen = 0)) := by decide

/-- One byte more than `DS_MAX`; and the counter at its last value. -/
theorem witness_OversizedDatasetIsTruncatedAndCounted :
    let c := small .onTheFly
    let s := State.resetWith c
    let last : State := { s with ext := { s.ext with ovf := 2 ^ 16 - 1 } }
    (s.ext.sync = false ∧ s.ext.ovf < 2 ^ s.cfg.cntW ∧ last.ext.sync = false ∧
      last.ext.ovf < 2 ^ last.cfg.cntW) ∧
    (∀ b ∈ text "ABCD", b ≠ Wire.cr ∧ (b = Wire.lf → c.lfPolicy = .data)) ∧
    s.cfg.dsMax < (text "ABCD").length := by decide

/-- Exactly `DS_MAX` bytes, an LF among them in a `DATA` build. -/
theorem witness_ExtractedDatasetIsDecodedWhole :
    let c : Config := { small .onTheFly with lfPolicy := .data }
    (State.resetWith c).ext.sync = false ∧
    (∀ b ∈ text "A\nB", b ≠ Wire.cr ∧ (b = Wire.lf → c.lfPolicy = .data)) ∧
    (text "A\nB").length ≤ c.dsMax := by decide

/-- The last element, and a full buffer. -/
theorem witness_DecAppendStoresOrDrops :
    let s : State :=
      { State.resetWith (small .cached) with hin := { Hin.reset with len := 2, buf := cellsOf [1, 2] } }
    let full : State := { s with hin := { s.hin with len := 3 } }
    hinStore s = some 2 ∧ s.hin.len < s.cfg.dsMax ∧ full.cfg.dsMax ≤ full.hin.len := by decide

theorem witness_CmpAppendStoresOrOverflows :
    cmpStore (resultState (text "ABCDEFG")) = some 7 ∧
    (resultState (text "ABCDEFG")).cmp.len < 8 ∧ 8 ≤ (resultState (text "ABCDEFGH")).cmp.len ∧
    (after (.cmpAppend 0x49) (resultState (text "ABCDEFGH"))).cmp.overflow = true ∧
    Instr.horoSave ≠ .cmpClear ∧ Instr.horoSave ≠ .blockReset ∧
    exec .nop State.reset = .next { State.reset with resp := ok 0 } :=
  ⟨by decide, by decide, by decide, by decide, by decide, by decide, rfl⟩

/-- An equal candidate, a shorter one, an overflowed one. -/
theorem witness_CmpLabelComparesByteForByte :
    let same : State → Prop := fun s =>
      s.cmp.overflow = false ∧ s.cmp.len = s.res.labelLen ∧
      ∀ i, i < s.cmp.len →
        elemAt s .cmp i = elemAt s (if s.res.src = .hin then .hin else .dbuf) (s.res.labelOff + i)
    same (resultState (text "VTIC")) ∧ ¬ same (resultState (text "VTI")) ∧
    ¬ same (after (.cmpAppend 0x41) (resultState (text "ABCDEFGH"))) := by
  refine ⟨⟨rfl, rfl, by decide⟩, fun h => absurd h.2.1 (by decide), fun h => absurd h.1 (by decide)⟩

/-- A result whose value is a text. -/
def valueState (v : List Byte) : State :=
  { hostSpan v with res := { Res.reset with src := .hin, valueLen := v.length } }

/-- No byte, no digit, the largest number, and the one after it. -/
theorem witness_DecU32ReadsAnUnsignedDecimal :
    let value : State → List Byte := fun s =>
      (List.range s.res.valueLen).map fun i => srcByte s s.res.src (s.res.valueOff + i)
    let digits : List Byte → Bool := fun v =>
      v.all fun c => decide (0x30 ≤ c.toNat) && decide (c.toNat ≤ 0x39)
    let number : List Byte → Nat := fun v => Nat.ofDigits 10 (v.reverse.map fun c => c.toNat - 0x30)
    value (valueState []) = [] ∧ digits (value (valueState (text "12a"))) = false ∧
    (digits (value (valueState (text "4294967295"))) = true ∧
      number (value (valueState (text "4294967295"))) = 0xFFFFFFFF) ∧
    (digits (value (valueState (text "4294967296"))) = true ∧
      0xFFFFFFFF < number (value (valueState (text "4294967296")))) := by decide

theorem witness_LoadingAndRunningDecodesTheGivenBytes :
    (text "ABC").length ≤ (State.resetWith (small .cached)).cfg.dsMax := by decide

theorem witness_DecodeIsAPureFunctionOfTheSpan :
    srcSpan (hostSpan (text "VTIC\t02\tJ")) .hin 0 9 =
      srcSpan (datasetOpen Config.default (text "VTIC\t02\tJ")) .dbuf 0 9 := by decide

/-- The parts of a span that the statement's clauses name: its length, the byte before the
checksum, whether the checksum matches, and the statement's label position. -/
def spanParts (d : List Byte) : Nat × Nat × Byte × Bool :=
  let st := if byteAt d 0 = 0x0A then 1 else 0
  let e := (if byteAt d (d.length - 1) = 0x0D then d.length - 1 else d.length) - 1
  let v := byteAt d (e - 1)
  let covered := (d.drop st).take ((if v = 0x09 then e else e - 1) - st)
  (d.length, st, v, (byteSum covered % 256 &&& 0x3F) + 0x20 == (byteAt d e).toNat)

/-- 2.5: four bytes; no delimiter before the checksum; a wrong checksum; a right one with no
label, with nine bytes of label, and with eight; a stripped LF and CR without a second delimiter,
and one with. -/
theorem witness_StatusOfEverySpan :
    spanParts (text "A\tB\t") = (4, 0, 0x42, false) ∧
    spanParts (text "VTIC\t02xJ") = (9, 0, 0x78, false) ∧
    spanParts (text "ADCO 012345678901 F") = (19, 0, 0x20, false) ∧
    spanParts (text "\tVAL\tU") = (6, 0, 0x09, true) ∧
    spanParts (text "ABCDEFGHI\t1\tP") = (13, 0, 0x09, true) ∧
    (spanParts (text "ABCDEFGH\t1\tG") = (12, 0, 0x09, true) ∧ 0 < 8 ∧ 8 ≤ 0 + 8 ∧ 8 < 10 ∧
      byteAt (text "ABCDEFGH\t1\tG") 8 = 0x09 ∧
      ∀ i, i < 8 → byteAt (text "ABCDEFGH\t1\tG") i ≠ 0x09) ∧
    (let d := text "\nVTIC\t02\tJ\r"
     spanParts d = (11, 1, 0x09, true) ∧ (1 < 5 ∧ 5 ≤ 1 + 8 ∧ 5 < 8 ∧ byteAt d 5 = 0x09) ∧
     (∀ i, 1 ≤ i → i < 5 → byteAt d i ≠ 0x09) ∧ ∀ j, 6 ≤ j → j < 8 → byteAt d j ≠ 0x09) ∧
    (let d := text "ADCO 12 34 A"
     spanParts d = (12, 0, 0x20, true) ∧ (0 < 4 ∧ 4 ≤ 0 + 8 ∧ 4 < 10 ∧ byteAt d 4 = 0x20) ∧
     (∀ i, i < 4 → byteAt d i ≠ 0x20) ∧ (5 ≤ 7 ∧ 7 < 10 ∧ byteAt d 7 = 0x20) ∧
     ∀ j, 5 ≤ j → j < 7 → byteAt d j ≠ 0x20) := by
  refine ⟨by decide, by decide, by decide, by decide, by decide, by decide, ⟨by decide, by decide,
    fun i h1 h2 => ?_, fun j h1 h2 => ?_⟩, by decide, by decide, by decide, by decide,
    fun j h1 h2 => ?_⟩
  all_goals first | interval_cases i <;> decide | interval_cases j <;> decide

/-- The shortest dataset the statement covers, and the longest label, for both delimiters. -/
theorem witness_RoundTripOfABuiltDataset :
    ∀ dl ∈ ([0x09, 0x20] : List Byte), ∀ p ∈ [(text "A", text "B"), (text "ABCDEFGH", [])],
      1 ≤ p.1.length ∧ p.1.length ≤ 8 ∧ dl ∉ p.1 ∧ p.1.head? ≠ some 0x0A ∧ dl ∉ p.2 ∧
      2 ≤ p.1.length + p.2.length := by decide

/-- A valid stamp, an empty one, and a value with delimiters in it need no hypothesis. -/
theorem witness_SecondDelimiterSplitsOffTheHorodate :
    ∀ dl ∈ ([0x09, 0x20] : List Byte), ∀ stamp ∈ [text "H081225223518", []],
      1 ≤ (text "DATE").length ∧ (text "DATE").length ≤ 8 ∧ dl ∉ text "DATE" ∧
      (text "DATE").head? ≠ some 0x0A ∧ dl ∉ stamp := by decide

/-- 1.8: `J` changed to `K`; and in front of a CR, `J` changed to CR. -/
theorem witness_ChangingTheChecksumByteIsDetected :
    ((0x4B : Byte) ≠ 0x4A ∧ (0x4A : Byte) ≠ 0x0D ∧
      (decodeDataset .hin (text "VTIC\t02\t" ++ [0x4A])).status.isValid = true ∧
      (0x4B : Byte) ≠ 0x0D) ∧
    ((0x0D : Byte) ≠ 0x4A ∧
      (decodeDataset .hin (text "VTIC\t02\t" ++ [0x4A, 0x0D])).status.isValid = true) := by decide

theorem witness_HorodateIsValidExactlyWhen :
    (text "E230231245959").length = 13 ∧ (text "E23010112X000").length = 13 := by decide

/-- Each season byte, a byte that is none, digits and a non-digit, and lengths around 13. -/
theorem witness_HorodateFieldsAreAlwaysStored :
    (∀ h ∈ [text "H081225223518", text "h081225223518", text "E230101000000",
        text "e230101250000", text " 230101000000", text "A081225223518",
        text "E23010112X000"], h.length = 13) ∧
    (text "E2301011200").length ≠ 13 ∧ (text "H2301011200001").length ≠ 13 ∧
    byteAt (text "A081225223518") 0 = 0x41 ∧ byteAt (text "E23010112X000") 9 = 0x58 := by decide

theorem witness_HorodateOrderIsATotalPreorder :
    let a := parseHorodate (text "H081225223518")
    let b := parseHorodate (text "h081225223518")
    let c := parseHorodate (text "e081225223519")
    horoCompare a b ≠ .gt ∧ horoCompare b c ≠ .gt ∧
    (a.year = b.year ∧ a.month = b.month ∧ a.day = b.day ∧ a.hour = b.hour ∧
      a.minute = b.minute ∧ a.second = b.second) := by decide

/-- Equal keys; a difference at the last field and at the first. -/
theorem witness_HoroSaveAndHoroCmp :
    let key : Horo → List Nat := fun h =>
      [h.year.toNat, h.month.toNat, h.day.toNat, h.hour.toNat, h.minute.toNat, h.second.toNat]
    let a := key (parseHorodate (text "H081225223518"))
    let b := key (parseHorodate (text "e081225223519"))
    let c := key (parseHorodate (text "E230101000000"))
    (a.take 5 = b.take 5 ∧ a.getD 5 0 < b.getD 5 0) ∧
    (c.take 0 = b.take 0 ∧ b.getD 0 0 < c.getD 0 0) ∧ a = a := by decide

theorem witness_ResetStateMeetsTheInvariant : (small .cached).valid = true := by decide

/-- A state with a frame and a dataset open and bytes in every buffer meets the invariant. -/
def busyState : State :=
  { State.resetWith (small .cached) with
    unf := { Unf.reset with
      sync := true, flen := 2, fdrop := true, ovf := 1, hwr := 1, hcnt := 1,
      fbuf := [(0, 0x41), (1, 0x42)], hist := [(0, 2)] }
    ext := { Ext.reset with sync := true, len := 1, dbuf := [(0, 0x43)] }
    hin := { Hin.reset with len := 1, buf := [(0, 0x44)] }
    cmp := { Cmp.reset with len := 1, buf := [(0, 0x45)] }
    host := [.issue 0x01000003] }

theorem busyState_inv : busyState.Inv :=
   { build := by decide
     unf :=
      { idle := by decide
        cachedBound := by decide
        flenWidth := by decide
        ovfWidth := by decide
        dropFull := by decide
        onTheFly := by decide
        hcntBound := by decide
        hwrBound := by decide
        hwrBeforeWrap := by decide
        fbufWf := by decide
        fbufCells := by unfold cellsIn notFrameMarker; decide
        fbufWritten := by unfold writtenBelow; decide
        histWf := by decide
        histCells := by unfold cellsIn; decide
        histWritten := by unfold writtenBelow; decide }
     ext :=
      { idle := by decide
        lenBound := by decide
        ovfWidth := by decide
        dropFull := by decide
        dbufWf := by decide
        dbufCells := by unfold cellsIn datasetByte; decide
        dbufWritten := by unfold writtenBelow; decide }
     hin :=
      { lenBound := by decide
        dropFull := by decide
        bufWf := by decide
        bufCells := by unfold cellsIn; decide
        bufWritten := by unfold writtenBelow; decide }
     cmp :=
      { lenBound := by decide
        overFull := by decide
        bufWf := by decide
        bufCells := by unfold cellsIn; decide
        bufWritten := by unfold writtenBelow; decide }
     res :=
      { failed := by decide
        label := by decide
        disjoint := by decide
        inside := by decide
        unseen := by decide
        matched := by decide
        mismatched := by decide
        ckRange := by decide
        absent := by decide
        horo := { yearLow := by decide, yearHigh := by decide, month := by decide, day := by decide
                  hour := by decide, minute := by decide, second := by decide } }
     view := by unfold writtenBelow; decide
     ref := { yearLow := by decide, yearHigh := by decide, month := by decide, day := by decide
              hour := by decide, minute := by decide, second := by decide } }

theorem witness_EveryStepKeepsTheInvariant :
    busyState.Inv ∧ (∃ t, step busyState = .next t) ∧ ∃ t, exec (.unfPush 0x03) busyState = .next t :=
  ⟨busyState_inv, ⟨_, rfl⟩, ⟨_, rfl⟩⟩

/-- The state after `n` steps. -/
def run : Nat → State → State
  | 0, s => s
  | n + 1, s => run n (stepped s)

/-- A step of a valid build leads from a reachable state to a reachable one. -/
theorem reachable_stepped (s : State) (h : Reachable s) : Reachable (stepped s) := by
  unfold stepped
  split
  · exact .step s _ h ‹_›
  · exact h
  · exact h

theorem reachable_run (n : Nat) (s : State) (h : Reachable s) : Reachable (run n s) := by
  induction n generalizing s with
  | zero => exact h
  | succ n ih => exact ih _ (reachable_stepped s h)

/-- A block of build `c` that is given the words `ws` from reset. -/
def given (c : Config) (ws : List Word) : State :=
  { State.resetWith c with host := ws.map .issue }

/-- A reachable state with a frame open and one with a dataset open; the clauses of R43 whose
premises they meet. -/
theorem witness_ReachableStatesSatisfyTheSpecInvariants :
    (let s := run 2 (given (small .cached) [0x01000002, 0x01000041])
     Reachable s ∧ s.cfg.mode = .cached ∧ s.unf.flen = 1 ∧ s.ext.sync = false ∧
     s.unf.hcnt < s.cfg.histDepth ∧ s.res.status = .malformed) ∧
    (let s := run 1 (given (small .onTheFly) [0x0400000A])
     Reachable s ∧ s.ext.sync = true ∧ s.unf.sync = false) ∧
    (let s := run 7 (given { small .onTheFly with dsMax := 5 }
        [0x07000000, 0x08000041, 0x08000009, 0x08000042, 0x08000009, 0x08000035, 0x09000000])
     Reachable s ∧ s.res.status = .validStd) :=
  ⟨⟨reachable_run _ _ (.start _ _ (by decide)), by decide⟩,
   ⟨reachable_run _ _ (.start _ _ (by decide)), by decide⟩,
   ⟨reachable_run _ _ (.start _ _ (by decide)), by decide⟩⟩

/-- `busyState` with an event of each kind on the port, all with the properties of `eventOk`. -/
def portState : State :=
  { busyState with
    evPort := [.frameBytes [0x41], .frameComplete .endMarker true, .dataset [0x43, 0x02] false,
      .record .hin .validStd (text "VTIC") (text "02") false Horo.invalid]
    host := [.takeEvent] }

theorem portState_inv : portState.Inv :=
  let h := busyState_inv
  { build := h.build, unf := h.unf, ext := h.ext, hin := h.hin, cmp := h.cmp, res := h.res
    view := h.view, ref := h.ref }

/-- A state that meets the invariant with an event of each kind on the port and no frame marker in
its open dataset; reachable states with a `FRAME_BYTES` event on the port, with a stored payload
byte, and with a `DATASET` event that holds an LF. -/
theorem witness_EventsNeverHoldTheirOwnMarkers :
    (portState.Inv ∧ (∀ e ∈ portState.evPort, eventOk portState.cfg e) ∧
      (∃ t, step portState = .next t) ∧
      (∀ b, Instr.unfPush 0x03 ≠ .extPush b) ∧
      (∀ k, k < portState.ext.len →
        elemAt portState .dbuf k ≠ 0x02 ∧ elemAt portState .dbuf k ≠ 0x03) ∧
      ∃ t, exec (.unfPush 0x03) portState = .next t) ∧
    (let s := run 2 (given (small .onTheFly) [0x01000002, 0x01000041])
     Reachable s ∧ Event.frameBytes [0x41] ∈ s.evPort) ∧
    (let s := run 2 (given (small .cached) [0x01000002, 0x01000041])
     Reachable s ∧ s.cfg.mode = .cached ∧ 0 < s.unf.flen) ∧
    (let s := run 3 (given { small .onTheFly with lfPolicy := .data }
        [0x0400000A, 0x0400000A, 0x0400000D])
     Reachable s ∧ Event.dataset [0x0A] false ∈ s.evPort ∧ (0x0A : Byte) ∈ ([0x0A] : List Byte)) :=
  ⟨⟨portState_inv,
    by simp [portState, eventOk, notFrameMarker, datasetByte, text, busyState, small, Wire.stx, Wire.etx, Wire.cr, Wire.lf, Wire.labelMax, Status.isValid, State.resetWith],
    ⟨_, rfl⟩, by simp, by decide, ⟨_, rfl⟩⟩,
   ⟨reachable_run _ _ (.start _ _ (by decide)), by decide⟩,
   ⟨reachable_run _ _ (.start _ _ (by decide)), by decide⟩,
   ⟨reachable_run _ _ (.start _ _ (by decide)), by decide⟩⟩

end Sys2Proof.Tests
end

section
/-! PROOFS. The events of the port (30_encoding.md R87, 00_scope.md R14): for each operation of the
pipeline the list of the events it emits, as a function of the state before it, and the equation
that its port is the old port with exactly these events after it. -/

namespace Sys2Proof.Machine

/-- The two events of a delivery, `DATASET` and then its `RECORD` (41_extractor.md R143). -/
def deliveryEvents (s : State) : List Event :=
  [.dataset (srcSpan s .dbuf 0 s.ext.len) s.ext.drop,
   recordEvent (srcSpan s .dbuf 0 s.ext.len)
     (decodeDataset .dbuf (srcSpan s .dbuf 0 s.ext.len))]

/-- The events the extractor emits for a byte: those of a delivery at an end marker InSync, and
none otherwise (41_extractor.md R141). -/
def extEvents (b : Byte) (s : State) : List Event :=
  if s.ext.sync = true ∧ (b = Wire.cr ∨ (b = Wire.lf ∧ s.cfg.lfPolicy ≠ .data)) then
    deliveryEvents s
  else []

/-- The events the extractor emits for a byte string, byte after byte. -/
def feedEvents : List Byte → State → List Event
  | [], _ => []
  | b :: bs, s => extEvents b s ++ feedEvents bs (extByte b s).1

/-- The events of a frame close before its `FRAME_COMPLETE`: `FRAME_BYTES` of a non-empty payload,
then what the extractor emits for it (40_unframer.md R113, R115). -/
def payloadEvents (s : State) : List Event :=
  (if closePayload s = [] then [] else [.frameBytes (closePayload s)]) ++
    feedEvents (closePayload s) s

/-- The events the unframer emits for a byte (40_unframer.md R111). -/
def unfEvents (b : Byte) (s : State) : List Event :=
  match unfAction s.cfg s.unf b with
  | .close cause => payloadEvents s ++ [.frameComplete cause s.unf.fdrop]
  | .forward => .frameBytes [b] :: extEvents b s
  | .discard | .openFrame | .store _ | .drop => []

/-- The events of a command: only the three that feed the pipeline have any (60_exceptions.md
R255). -/
def commandEvents (s : State) : Instr → List Event
  | .unfPush b => unfEvents b s
  | .extPush b => extEvents b s
  | .decRun =>
    [recordEvent (srcSpan s .hin 0 s.hin.len)
      (decodeDataset .hin (srcSpan s .hin 0 s.hin.len))]
  | _ => []

/-! The extractor. -/

/-- At an end marker InSync the extractor emits the events of a delivery. -/
theorem extEvents_endMarker {b : Byte} {s : State} (hs : s.ext.sync = true)
    (hb : b = Wire.cr ∨ (b = Wire.lf ∧ s.cfg.lfPolicy ≠ .data)) :
    extEvents b s = deliveryEvents s :=
  if_pos ⟨hs, hb⟩

theorem extEvents_outOfSync {b : Byte} {s : State} (hs : s.ext.sync = false) :
    extEvents b s = [] :=
  if_neg (by simp [hs])

theorem extEvents_datasetByte {b : Byte} {s : State} (hb : datasetByte s.cfg b) :
    extEvents b s = [] := by
  refine if_neg ?_
  rintro ⟨-, hcr | ⟨hlf, hp⟩⟩
  · exact hb.1 hcr
  · exact hp (hb.2 hlf)

theorem extByte_evPort (b : Byte) (s : State) :
    (extByte b s).1.evPort = s.evPort ++ extEvents b s := by
  rcases extAction_cases s.cfg s.ext b with
    ⟨hs, -, ha⟩ | ⟨hs, -, ha⟩ | ⟨hs, hb, ha⟩ | ⟨hs, hb, hp, ha⟩ | ⟨-, hb, -, ha⟩ | ⟨-, hb, -, ha⟩
    <;> rw [extByte, ha]
  · simp [extEvents_outOfSync hs]
  · simp [extEvents_outOfSync hs]
  · rw [extEvents_endMarker hs (.inl hb)]
    exact extDeliver_evPort s
  · rw [extEvents_endMarker hs (.inr ⟨hb, hp⟩)]
    exact extDeliver_evPort s
  · simp [extEvents_datasetByte hb]
  · simp [extEvents_datasetByte hb]

/-- What a byte makes of the extractor depends on the build and the extractor alone. -/
theorem extByte_ext_congr (b : Byte) {s t : State} (hc : s.cfg = t.cfg) (hx : s.ext = t.ext) :
    (extByte b s).1.ext = (extByte b t).1.ext := by
  unfold extByte
  rw [hc, hx]
  split <;> simp [hx]

/-- The events of a byte depend on the build, the extractor and the free values alone. -/
theorem extEvents_congr (b : Byte) {s t : State} (hc : s.cfg = t.cfg) (hx : s.ext = t.ext)
    (he : s.epoch = t.epoch) : extEvents b s = extEvents b t := by
  have hspan : srcSpan s .dbuf 0 t.ext.len = srcSpan t .dbuf 0 t.ext.len := by
    simp [srcSpan, srcByte, hx, he]
  simp [extEvents, deliveryEvents, hc, hx, hspan]

theorem feedEvents_congr (bs : List Byte) {s t : State} (hc : s.cfg = t.cfg)
    (hx : s.ext = t.ext) (he : s.epoch = t.epoch) : feedEvents bs s = feedEvents bs t := by
  induction bs generalizing s t with
  | nil => rfl
  | cons b bs ih =>
    have hrest := ih (s := (extByte b s).1) (t := (extByte b t).1) (by simpa using hc)
      (extByte_ext_congr b hc hx) (by simpa using he)
    rw [feedEvents, feedEvents, extEvents_congr b hc hx he, hrest]

theorem feed_evPort (bs : List Byte) (s : State) :
    (feed bs s).evPort = s.evPort ++ feedEvents bs s := by
  induction bs generalizing s with
  | nil => simp [feed, feedEvents]
  | cons b bs ih => simp [feed, feedEvents, ih, extByte_evPort]

/-! `EXT_PUSH` of a byte string is `feed`: the responses on the way have no effect on it. -/

theorem extByte_withResp (b : Byte) (r : Option Response) (s : State) :
    (extByte b { s with resp := r }).1 = { (extByte b s).1 with resp := r } := by
  unfold extByte
  dsimp only
  split <;> rfl

theorem feed_withResp (bs : List Byte) (r : Option Response) (s : State) :
    feed bs { s with resp := r } = { feed bs s with resp := r } := by
  induction bs generalizing s with
  | nil => rfl
  | cons b bs ih => rw [feed, extByte_withResp, ih, feed]

theorem exec_extPush (b : Byte) (s : State) :
    exec (.extPush b) s = .next { (extByte b s).1 with
      resp := some { illegal := false, data := boolData (extByte b s).2 } } := rfl

theorem execAll_extPush (bs : List Byte) (s : State) :
    ∃ r, execAll (bs.map .extPush) s = .next { feed bs s with resp := r } := by
  induction bs generalizing s with
  | nil => exact ⟨s.resp, rfl⟩
  | cons b bs ih =>
    obtain ⟨r, hr⟩ := ih { (extByte b s).1 with
      resp := some { illegal := false, data := boolData (extByte b s).2 } }
    rw [feed_withResp] at hr
    exact ⟨r, hr⟩

/-! The unframer. -/

theorem deliverPayload_evPort (s : State) :
    (deliverPayload s).evPort = s.evPort ++ payloadEvents s := by
  unfold deliverPayload payloadEvents
  split
  · simp [*, feedEvents]
  · rw [feed_evPort, feedEvents_congr _ (emit_cfg _ s) (emit_ext _ s) (emit_epoch _ s)]
    simp

theorem unfByte_evPort (b : Byte) (s : State) :
    (unfByte b s).1.evPort = s.evPort ++ unfEvents b s := by
  unfold unfByte unfEvents
  cases unfAction s.cfg s.unf b with
  | discard | openFrame | store _ | drop => simp
  | close cause => cases cause <;> simp [closeFrame_evPort, deliverPayload_evPort]
  | forward =>
    have hes : extEvents b { emit (.frameBytes [b]) s with
        unf.flen := satInc s.cfg.lenW s.unf.flen } = extEvents b s :=
      extEvents_congr b rfl rfl rfl
    rw [extByte_evPort, hes]
    simp

/-- The payload of a frame close (40_unframer.md R113, R115). -/
theorem closePayload_eq_ite (s : State) :
    closePayload s = if s.cfg.mode = .cached then fbufSpan s s.unf.flen else [] := by
  unfold closePayload
  cases s.cfg.mode <;> rfl

theorem unfEvents_outOfSync (b : Byte) (s : State) (hs : s.unf.sync = false) :
    unfEvents b s = [] := by
  by_cases hb : b = Wire.stx <;> simp [unfEvents, unfAction, hs, hb]

theorem unfEvents_marker (b : Byte) (s : State) (hs : s.unf.sync = true)
    (hb : b = Wire.stx ∨ b = Wire.etx) :
    unfEvents b s = payloadEvents s ++
      [.frameComplete (if b = Wire.etx then .endMarker else .restart) s.unf.fdrop] := by
  rcases hb with rfl | rfl <;> simp [unfEvents, unfAction, hs]

theorem unfEvents_payload_cached (b : Byte) (s : State) (hs : s.unf.sync = true)
    (hb : notFrameMarker b) (hm : s.cfg.mode = .cached) : unfEvents b s = [] := by
  by_cases hroom : s.unf.flen < s.cfg.frameMax <;>
    simp [unfEvents, unfAction, hs, hb.1, hb.2, hm, hroom]

theorem unfEvents_payload_onTheFly (b : Byte) (s : State) (hs : s.unf.sync = true)
    (hb : notFrameMarker b) (hm : s.cfg.mode = .onTheFly) :
    unfEvents b s = .frameBytes [b] :: extEvents b s := by
  simp [unfEvents, unfAction, hs, hb.1, hb.2, hm]

/-! The commands. -/

theorem evPort_of_respond {d : Word} {s t : State} (h : respond d s = .next t) :
    t.evPort = s.evPort := by
  cases h
  rfl

theorem evPort_of_refuse {s t : State} (h : refuse s = .next t) : t.evPort = s.evPort := by
  cases h
  rfl

theorem execDecAppend_evPort {b : Byte} {s t : State} (h : execDecAppend b s = .next t) :
    t.evPort = s.evPort := by
  unfold execDecAppend at h
  split at h <;> cases h <;> rfl

theorem execCmpAppend_evPort {b : Byte} {s t : State} (h : execCmpAppend b s = .next t) :
    t.evPort = s.evPort := by
  unfold execCmpAppend at h
  split at h <;> cases h <;> rfl

theorem execBufRead_evPort {sp : Space} {idx : Nat} {s t : State}
    (h : execBufRead sp idx s = .next t) : t.evPort = s.evPort := by
  unfold execBufRead at h
  split at h
  · exact evPort_of_respond h
  · exact evPort_of_refuse h

/-- Every command leaves the events on the port and adds its own after them. -/
theorem exec_evPort {i : Instr} {s t : State} (h : exec i s = .next t) :
    t.evPort = s.evPort ++ commandEvents s i := by
  cases i with
  | unfPush b => exact (evPort_of_respond h).trans (unfByte_evPort b s)
  | extPush b => exact (evPort_of_respond h).trans (extByte_evPort b s)
  | decRun => exact (evPort_of_respond h).trans (runDecode_evPort .hin s.hin.len s)
  | decAppend b => exact (execDecAppend_evPort h).trans (List.append_nil _).symm
  | cmpAppend b => exact (execCmpAppend_evPort h).trans (List.append_nil _).symm
  | bufRead sp idx => exact (execBufRead_evPort h).trans (List.append_nil _).symm
  | nop | unfSync | unfMaxsz | extReset | extSync | decClear | decIsvalid | decU32 | cmpClear
  | cmpLabel | horoSave | horoCmp | regRead _ | blockReset =>
    exact (evPort_of_respond h).trans (List.append_nil _).symm

theorem commandEvents_eq_nil {i : Instr} (s : State)
    (hpush : ∀ b, i ≠ .unfPush b ∧ i ≠ .extPush b) (hrun : i ≠ .decRun) :
    commandEvents s i = [] := by
  unfold commandEvents
  split
  · exact absurd rfl (hpush _).1
  · exact absurd rfl (hpush _).2
  · exact absurd rfl hrun
  · rfl

/-- Settles O18: the events of a command are `commandEvents`, read clause by clause. -/
theorem commandsOnlyAppendEvents : Obligations.CommandsOnlyAppendEvents := by
  unfold Obligations.CommandsOnlyAppendEvents
  intro i s t h
  refine ⟨commandEvents s i, exec_evPort h, commandEvents_eq_nil s, ?_, ?_, ?_⟩
  · rintro rfl
    rfl
  · rintro b rfl
    rfl
  · rintro b rfl
    refine ⟨unfEvents_outOfSync b s, fun hs hstx hetx => ⟨?_, fun hm => ?_⟩, fun hs hb => ?_⟩
    · exact unfEvents_payload_cached b s hs ⟨hstx, hetx⟩
    · exact ⟨_, extEvents b s, exec_extPush b s, extByte_evPort b s,
        unfEvents_payload_onTheFly b s hs ⟨hstx, hetx⟩ hm⟩
    · obtain ⟨r, hr⟩ := execAll_extPush (closePayload s) s
      have hes := unfEvents_marker b s hs hb
      rw [payloadEvents] at hes
      rw [closePayload_eq_ite] at hr hes
      exact ⟨_, feedEvents _ s, hr, feed_evPort _ s, hes⟩

end Sys2Proof.Machine
end

section
/-! PROOFS. What a command word and a step can do (30_encoding.md R87, R93, 70_reset_and_hazards.md
R280, R284, R285): one inversion lemma for each. -/

namespace Sys2Proof.Machine

/-- Everything a command word can do: run as a command, or be refused. -/
theorem runWord_cases {w : Word} {s t : State} (h : runWord w s = .next t) :
    (∃ i, decode w = .ok i ∧ exec i s = .next t) ∨
    (∃ e, decode w = .error e ∧ refuse s = .next t) := by
  unfold runWord at h
  split at h
  · rename_i i hi
    exact .inl ⟨i, hi, h⟩
  · rename_i e he
    exact .inr ⟨e, he, h⟩

/-- Everything a step can do (30_encoding.md R87, 70_reset_and_hazards.md R280, R284, R285): wait,
take an event, reset, or run a word of a host whose event port is drained. -/
theorem step_cases {s t : State} (h : step s = .next t) :
    t = s ∨
    (∃ rest, s.host = .takeEvent :: rest ∧ t = takeEvent { s with host := rest }) ∨
    (∃ rest, s.host = .resetInput :: rest ∧ t = resetInput { s with host := rest }) ∨
    (∃ w rest, s.host = .issue w :: rest ∧ cmdReady s = true ∧
      runWord w { s with host := rest } = .next t) := by
  unfold step at h
  split at h
  · split at h
    · cases h
      exact .inl rfl
    · rename_i rest hhost
      cases h
      exact .inr (.inl ⟨rest, hhost, rfl⟩)
    · rename_i rest hhost
      cases h
      exact .inr (.inr (.inl ⟨rest, hhost, rfl⟩))
    · rename_i w rest hhost
      split at h
      · exact .inr (.inr (.inr ⟨w, rest, hhost, ‹_›, h⟩))
      · cases h
        exact .inl rfl
  · cases h

end Sys2Proof.Machine
end

section
/-! PROOFS. The invariants of the units (10_state.md R43 items 1 to 5): the reset values of a valid
build meet them, and every write that an operation makes to a unit keeps them. -/

namespace Sys2Proof.Machine

/-! What a valid build gives the units. -/

/-- The bounds of 70_reset_and_hazards.md R283 that the invariants rest on. -/
theorem bounds_of_valid {c : Config} (h : c.valid = true) :
    1 ≤ c.histDepth ∧ c.frameMax < 2 ^ c.lenW ∧ c.lenW ≤ 32 ∧ c.cntW ≤ 32 := by
  simp only [Config.valid, Bool.and_eq_true, decide_eq_true_eq] at h
  have hpos : 0 < 2 ^ c.lenW := Nat.two_pow_pos _
  omega

theorem satInc_lt {n v : Nat} (h : v < 2 ^ n) : satInc n v < 2 ^ n := by
  unfold satInc
  split <;> omega

/-! The unframer. -/

theorem unfInv_reset {c : Config} (hc : c.valid = true) : UnfInv c Unf.reset := by
  obtain ⟨hdepth, -, -, -⟩ := bounds_of_valid hc
  constructor <;> simp [Unf.reset, cellsWf, cellsIn, writtenBelow]
  exact hdepth

/-- A frame opens or closes: the cursor and the drop flag are cleared (40_unframer.md R111,
R113). -/
theorem UnfInv.emptied {c : Config} {u : Unf} (h : UnfInv c u) (sync : Bool) :
    UnfInv c { u with sync := sync, flen := 0, fdrop := false } :=
  { h with
    idle := fun _ => ⟨rfl, rfl⟩
    cachedBound := fun _ => Nat.zero_le _
    flenWidth := Nat.two_pow_pos _
    dropFull := fun hd => nomatch hd
    fbufWritten := fun _ _ hi => absurd hi (Nat.not_lt_zero _) }

/-- Payload stored in `CACHED` mode (40_unframer.md R111). -/
theorem UnfInv.stored {c : Config} {u : Unf} {b : Byte} (h : UnfInv c u) (hc : c.valid = true)
    (hs : u.sync = true) (hm : c.mode = .cached) (hroom : u.flen < c.frameMax)
    (hb : notFrameMarker b) :
    UnfInv c { u with fbuf := cellSet u.fbuf u.flen b, flen := u.flen + 1 } :=
  { h with
    idle := fun hi => by simp [hs] at hi
    cachedBound := fun _ => hroom
    flenWidth := by
      obtain ⟨-, hwidth, -, -⟩ := bounds_of_valid hc
      exact Nat.lt_of_le_of_lt hroom hwidth
    dropFull := fun hd => absurd (h.dropFull hd).2 (Nat.ne_of_lt hroom)
    onTheFly := fun hf => by simp [hm] at hf
    fbufWf := cellsWf_cellSet _ _ _ h.fbufWf
    fbufCells := cellsIn_cellSet _ _ _ _ _ h.fbufCells hroom hb
    fbufWritten := fun _ => writtenBelow_cellSet _ _ _ (h.fbufWritten hm) }

/-- Payload dropped by a full frame buffer in `CACHED` mode (40_unframer.md R111). -/
theorem UnfInv.dropped {c : Config} {u : Unf} (h : UnfInv c u) (hs : u.sync = true)
    (hm : c.mode = .cached) (hfull : c.frameMax ≤ u.flen) :
    UnfInv c { u with fdrop := true, ovf := satInc c.cntW u.ovf } :=
  { h with
    idle := fun hi => by simp [hs] at hi
    ovfWidth := satInc_lt h.ovfWidth
    dropFull := fun _ => ⟨hm, Nat.le_antisymm (h.cachedBound hm) hfull⟩
    onTheFly := fun hf => by simp [hm] at hf }

/-- Payload counted in `ON_THE_FLY` mode (40_unframer.md R111). -/
theorem UnfInv.counted {c : Config} {u : Unf} (h : UnfInv c u) (hs : u.sync = true)
    (hm : c.mode = .onTheFly) : UnfInv c { u with flen := satInc c.lenW u.flen } :=
  { h with
    idle := fun hi => by simp [hs] at hi
    cachedBound := fun hf => by simp [hm] at hf
    flenWidth := satInc_lt h.flenWidth
    dropFull := fun hd => by simp [(h.dropFull hd).1] at hm
    fbufWritten := fun hf => by simp [hm] at hf }

/-- An entry pushed to the history (40_unframer.md R116). Before the ring has wrapped the write
index is the count, so the written extent grows by one; afterwards it is the whole ring. -/
theorem UnfInv.pushed {c : Config} {u : Unf} {v : Nat} (h : UnfInv c u) (hv : v < 2 ^ c.lenW) :
    UnfInv c { u with
      hist := cellSet u.hist u.hwr v
      hwr := (u.hwr + 1) % c.histDepth
      hcnt := min (u.hcnt + 1) c.histDepth } :=
  { h with
    hcntBound := Nat.min_le_right _ _
    hwrBound := Nat.mod_lt _ (Nat.zero_lt_of_lt h.hwrBound)
    hwrBeforeWrap := fun hlt => by
      have hnext : u.hcnt + 1 < c.histDepth := by
        dsimp only at hlt
        omega
      dsimp only
      rw [h.hwrBeforeWrap (by omega), Nat.mod_eq_of_lt hnext, Nat.min_eq_left (by omega)]
    histWf := cellsWf_cellSet _ _ _ h.histWf
    histCells := cellsIn_cellSet _ _ _ _ _ h.histCells h.hwrBound hv
    histWritten := by
      rcases Nat.lt_or_eq_of_le h.hcntBound with hlt | hfull
      · rw [Nat.min_eq_left hlt, h.hwrBeforeWrap hlt]
        exact writtenBelow_cellSet _ _ _ h.histWritten
      · rw [Nat.min_eq_right (by omega), ← hfull]
        exact writtenBelow_mono _ _ _ _ h.histWritten }

/-! The extractor. -/

theorem extInv_reset (c : Config) : ExtInv c Ext.reset := by
  constructor <;> simp [Ext.reset, cellsWf, cellsIn, writtenBelow]

/-- A dataset opens or is delivered, or the extractor is reset: the cursor and the drop flag are
cleared (41_extractor.md R141, R143, R144). -/
theorem ExtInv.emptied {c : Config} {x : Ext} (h : ExtInv c x) (sync : Bool) :
    ExtInv c { x with sync := sync, len := 0, drop := false } :=
  { h with
    idle := fun _ => ⟨rfl, rfl⟩
    lenBound := Nat.zero_le _
    dropFull := fun hd => nomatch hd
    dbufWritten := fun _ hi => absurd hi (Nat.not_lt_zero _) }

/-- A data byte stored (41_extractor.md R141). -/
theorem ExtInv.stored {c : Config} {x : Ext} {b : Byte} (h : ExtInv c x) (hs : x.sync = true)
    (hroom : x.len < c.dsMax) (hb : datasetByte c b) :
    ExtInv c { x with dbuf := cellSet x.dbuf x.len b, len := x.len + 1 } :=
  { h with
    idle := fun hi => by simp [hs] at hi
    lenBound := hroom
    dropFull := fun hd => absurd (h.dropFull hd) (Nat.ne_of_lt hroom)
    dbufWf := cellsWf_cellSet _ _ _ h.dbufWf
    dbufCells := cellsIn_cellSet _ _ _ _ _ h.dbufCells hroom hb
    dbufWritten := writtenBelow_cellSet _ _ _ h.dbufWritten }

/-- A data byte dropped by a full dataset buffer (41_extractor.md R141). -/
theorem ExtInv.dropped {c : Config} {x : Ext} (h : ExtInv c x) (hs : x.sync = true)
    (hfull : c.dsMax ≤ x.len) :
    ExtInv c { x with drop := true, ovf := satInc c.cntW x.ovf } :=
  { h with
    idle := fun hi => by simp [hs] at hi
    ovfWidth := satInc_lt h.ovfWidth
    dropFull := fun _ => Nat.le_antisymm h.lenBound hfull }

/-! The host buffer and the compare buffer. -/

theorem hinInv_reset (c : Config) : HinInv c Hin.reset := by
  constructor <;> simp [Hin.reset, cellsWf, cellsIn, writtenBelow]

theorem HinInv.cleared {c : Config} {m : Hin} (h : HinInv c m) :
    HinInv c { m with len := 0, drop := false } :=
  { h with
    lenBound := Nat.zero_le _
    dropFull := fun hd => nomatch hd
    bufWritten := fun _ hi => absurd hi (Nat.not_lt_zero _) }

theorem HinInv.stored {c : Config} {m : Hin} (h : HinInv c m) (hroom : m.len < c.dsMax)
    (b : Byte) : HinInv c { m with buf := cellSet m.buf m.len b, len := m.len + 1 } :=
  { h with
    lenBound := hroom
    dropFull := fun hd => absurd (h.dropFull hd) (Nat.ne_of_lt hroom)
    bufWf := cellsWf_cellSet _ _ _ h.bufWf
    bufCells := cellsIn_cellSet _ _ _ _ _ h.bufCells hroom trivial
    bufWritten := writtenBelow_cellSet _ _ _ h.bufWritten }

theorem HinInv.dropped {c : Config} {m : Hin} (h : HinInv c m) (hfull : c.dsMax ≤ m.len) :
    HinInv c { m with drop := true } :=
  { h with dropFull := fun _ => Nat.le_antisymm h.lenBound hfull }

theorem cmpInv_reset : CmpInv Cmp.reset := by
  constructor <;> simp [Cmp.reset, cellsWf, cellsIn, writtenBelow]

theorem CmpInv.cleared {m : Cmp} (h : CmpInv m) :
    CmpInv { m with len := 0, overflow := false } :=
  { h with
    lenBound := Nat.zero_le _
    overFull := fun hd => nomatch hd
    bufWritten := fun _ hi => absurd hi (Nat.not_lt_zero _) }

theorem CmpInv.stored {m : Cmp} (h : CmpInv m) (hroom : m.len < Wire.cmpMax) (b : Byte) :
    CmpInv { m with buf := cellSet m.buf m.len b, len := m.len + 1 } :=
  { h with
    lenBound := hroom
    overFull := fun hd => absurd (h.overFull hd) (Nat.ne_of_lt hroom)
    bufWf := cellsWf_cellSet _ _ _ h.bufWf
    bufCells := cellsIn_cellSet _ _ _ _ _ h.bufCells hroom trivial
    bufWritten := writtenBelow_cellSet _ _ _ h.bufWritten }

theorem CmpInv.overflowed {m : Cmp} (h : CmpInv m) (hfull : Wire.cmpMax ≤ m.len) :
    CmpInv { m with overflow := true } :=
  { h with overFull := fun _ => Nat.le_antisymm h.lenBound hfull }

end Sys2Proof.Machine
end

section
/-! PROOFS. The invariant of a decode result (10_state.md R43 items 6 and 7, 42_decoder.md R174):
every result of a span meets `ResInv` at the span's length. -/

namespace Sys2Proof.Machine

theorem horoInv_invalid : HoroInv Horo.invalid := by
  constructor <;> decide

/-- Every field of a parsed horodate is two decimal digits or 0, valid or not (43_horodate.md
R212, R214). -/
theorem horoInv_parseHorodate (bs : List Byte) : HoroInv (parseHorodate bs) := by
  unfold parseHorodate
  split
  · have hfield : ∀ i, (fieldAt bs i).1 ≤ 99 := fun i => field2_le _ _
    have hbyte : ∀ i, (BitVec.ofNat 8 (fieldAt bs i).1).toNat ≤ 99 := fun i =>
      Nat.le_trans (Nat.mod_le _ _) (hfield i)
    have hyear : (BitVec.ofNat 16 (2000 + (fieldAt bs 1).1)).toNat = 2000 + (fieldAt bs 1).1 :=
      Nat.mod_eq_of_lt (by have := hfield 1; omega)
    exact
      { yearLow := by
          rw [hyear]
          omega
        yearHigh := by
          rw [hyear]
          exact Nat.add_le_add_left (hfield 1) 2000
        month := hbyte 3
        day := hbyte 5
        hour := hbyte 7
        minute := hbyte 9
        second := hbyte 11 }
  · exact horoInv_invalid

theorem resInv_failResult (n : Nat) (src : Src) : ResInv n (failResult src) := by
  constructor <;> simp [failResult, Status.isValid, horoInv_invalid]

/-- The failure result after a checksum was compared: the received byte and the byte computed over
some cover stand in it (42_decoder.md R177, R181). -/
def checkedResult (src : Src) (ck : Byte) (cover : List Byte) : Res :=
  { failResult src with ckSeen := true, ckRx := ck, ckCalc := checksum cover }

theorem checksum_range (bs : List Byte) :
    0x20 ≤ (checksum bs).toNat ∧ (checksum bs).toNat ≤ 0x5F := by
  rw [checksum_toNat]
  omega

theorem resInv_checkedResult (n : Nat) (src : Src) (ck : Byte) (cover : List Byte) :
    ResInv n (checkedResult src ck cover) :=
  { resInv_failResult n src with
    unseen := fun h => nomatch h
    matched := fun hv => nomatch hv
    mismatched := fun hw => nomatch hw
    ckRange := fun _ => checksum_range cover }

theorem resInv_wrongCrc (n : Nat) (src : Src) {ck : Byte} {cover : List Byte}
    (h : checksum cover ≠ ck) :
    ResInv n { checkedResult src ck cover with status := .wrongCrc } :=
  { resInv_checkedResult n src ck cover with
    failed := fun _ => ⟨rfl, rfl, rfl, rfl, rfl⟩
    label := fun hv => nomatch hv
    disjoint := fun hv => nomatch hv
    inside := fun hv => nomatch hv
    unseen := fun hs => nomatch hs
    matched := fun hv => nomatch hv
    mismatched := fun _ => h.symm }

theorem Variant.isValid_status (v : Variant) : v.status.isValid = true := by
  cases v <;> rfl

theorem Variant.status_ne_wrongCrc (v : Variant) : v.status ≠ .wrongCrc := by
  cases v <;> simp [Variant.status]

/-- A dataset with the right checksum: the label at `[st, k)` ends before the value begins, and the
value begins after the delimiter at `p` and ends with the body, two bytes before the end of the
span (42_decoder.md R174, R178, R180). -/
theorem resInv_validSpans {n st k p bodyEnd : Nat} (v : Variant) (src : Src) {ck : Byte}
    {cover : List Byte} {present : Bool} {horo : Horo} (hck : checksum cover = ck)
    (hst : st ≤ k) (hlow : 1 ≤ k - st) (hhigh : k - st ≤ Wire.labelMax) (hkp : k ≤ p)
    (hp : p < bodyEnd) (hend : bodyEnd + 2 ≤ n) (habsent : present = false → horo = Horo.invalid)
    (hhoro : HoroInv horo) :
    ResInv n { checkedResult src ck cover with
      status := v.status, labelOff := st, labelLen := k - st, valueOff := p + 1,
      valueLen := bodyEnd - (p + 1), horoPresent := present, horo := horo } :=
  { resInv_checkedResult n src ck cover with
    failed := fun h => by simp [v.isValid_status] at h
    label := fun _ => ⟨hlow, hhigh⟩
    disjoint := fun _ => by
      dsimp only
      omega
    inside := fun _ => by
      dsimp only
      omega
    unseen := fun h => nomatch h
    matched := fun _ => hck.symm
    mismatched := fun h => absurd h v.status_ne_wrongCrc
    absent := habsent
    horo := hhoro }

/-- The value begins after the second delimiter, with a horodate before it, or after the first
(42_decoder.md R179, R180). -/
theorem resInv_splitValue {n st k bodyEnd : Nat} (v : Variant) (d : List Byte) (src : Src)
    {ck : Byte} {cover : List Byte} (hck : checksum cover = ck) (hst : st ≤ k)
    (hlow : 1 ≤ k - st) (hhigh : k - st ≤ Wire.labelMax) (hk : k < bodyEnd)
    (hend : bodyEnd + 2 ≤ n) :
    ResInv n (splitValue v d st k bodyEnd (checkedResult src ck cover)) := by
  unfold splitValue
  split
  · rename_i j hj
    obtain ⟨hkj, hjend, -, -⟩ := findDelim_some _ _ _ _ _ hj
    exact resInv_validSpans v src hck hst hlow hhigh (Nat.le_of_succ_le hkj) hjend hend nofun
      (horoInv_parseHorodate _)
  · exact resInv_validSpans v src hck hst hlow hhigh le_rfl hk hend (fun _ => rfl)
      horoInv_invalid

theorem spanEnd_le (d : List Byte) : spanEnd d ≤ d.length := by
  rcases spanEnd_cases d with ⟨h, -⟩ | ⟨h, -⟩ <;> omega

theorem resInv_decodeDataset (src : Src) (d : List Byte) :
    ResInv d.length (decodeDataset src d) := by
  rcases decodeDataset_cases src d with h | ⟨v, hlen, -, ⟨hne, h⟩ | ⟨heq, h⟩⟩
  · rw [h]
    exact resInv_failResult _ src
  · rw [h]
    exact resInv_wrongCrc _ src hne
  · rw [h]
    rcases splitLabel_cases v d (spanStart d) (spanEnd d - 1 - 1) _ with
      h' | ⟨k, hk, hlow, hhigh, h'⟩
    · rw [h']
      exact resInv_checkedResult _ src _ _
    · rw [h']
      obtain ⟨hst, hkend, -, -⟩ := findDelim_some _ _ _ _ _ hk
      have hend := spanEnd_le d
      exact resInv_splitValue v d src heq hst hlow hhigh hkend (by omega)

theorem resInv_reset (n : Nat) : ResInv n Res.reset :=
  resInv_failResult n .dbuf

theorem ResInv.mono {n m : Nat} {r : Res} (h : ResInv n r) (hnm : n ≤ m) : ResInv m r :=
  { h with inside := fun hv => Nat.le_trans (h.inside hv) hnm }

/-- A result's spans lie inside the span it was decoded from (42_decoder.md R174, R181). -/
theorem ResInv.valueEnd_le {n : Nat} {r : Res} (h : ResInv n r) :
    r.valueOff + r.valueLen ≤ n := by
  cases hv : r.status.isValid with
  | true => exact Nat.le_of_add_right_le (h.inside hv)
  | false =>
    obtain ⟨-, -, hoff, hlen, -⟩ := h.failed hv
    omega

theorem decodeDataset_src (src : Src) (d : List Byte) : (decodeDataset src d).src = src := by
  rcases decodeDataset_cases src d with h | ⟨v, -, -, ⟨-, h⟩ | ⟨-, h⟩⟩
  · rw [h]
    rfl
  · rw [h]
    rfl
  · rw [h]
    rcases splitLabel_cases v d (spanStart d) (spanEnd d - 1 - 1) _ with h' | ⟨k, -, -, -, h'⟩
    · rw [h']
      rfl
    · rw [h', splitValue]
      split <;> rfl

end Sys2Proof.Machine
end

section
/-! PROOFS. The machine's invariant (10_state.md R43): the reset state meets it, and every operation
of the pipeline, every command and every step keeps it. -/

namespace Sys2Proof.Machine

theorem writtenBelow_of_le {α : Type} {m : Cells α} {n k : Nat} (h : writtenBelow m n)
    (hkn : k ≤ n) : writtenBelow m k :=
  fun i hi => h i (Nat.lt_of_lt_of_le hi hkn)

/-! The state: writing one unit. -/

theorem State.Inv.of_reset {s : State} (hc : s.cfg.valid = true) (hunf : s.unf = Unf.reset)
    (hext : s.ext = Ext.reset) (hhin : s.hin = Hin.reset) (hres : s.res = Res.reset)
    (href : s.ref = Horo.invalid) (hcmp : s.cmp = Cmp.reset) : s.Inv where
  build := hc
  unf := hunf ▸ unfInv_reset hc
  ext := hext ▸ extInv_reset _
  hin := hhin ▸ hinInv_reset _
  cmp := hcmp ▸ cmpInv_reset
  res := hres ▸ resInv_reset _
  view := hres ▸ fun _ hi => absurd hi (Nat.not_lt_zero _)
  ref := href ▸ horoInv_invalid

/-- The invariant does not speak of the ports, the reset counter or the host's script. -/
theorem State.Inv.withPorts {s : State} (h : s.Inv) (resp : Option Response)
    (evPort : List Event) (epoch : Nat) (host : List HostAction) :
    State.Inv { s with resp := resp, evPort := evPort, epoch := epoch, host := host } :=
  { h with }

theorem State.Inv.withUnf {s : State} (h : s.Inv) {u : Unf} (hu : UnfInv s.cfg u) :
    State.Inv { s with unf := u } :=
  { h with unf := hu }

theorem State.Inv.withCmp {s : State} (h : s.Inv) {m : Cmp} (hm : CmpInv m) :
    State.Inv { s with cmp := m } :=
  { h with cmp := hm }

theorem State.Inv.withRef {s : State} (h : s.Inv) {r : Horo} (hr : HoroInv r) :
    State.Inv { s with ref := r } :=
  { h with ref := hr }

/-- The latched spans stay inside written bytes when the buffer keeps every element it held. -/
theorem State.Inv.withExt {s : State} (h : s.Inv) {x : Ext} (hx : ExtInv s.cfg x)
    (hkeep : ∀ n, writtenBelow s.ext.dbuf n → writtenBelow x.dbuf n) :
    State.Inv { s with ext := x } :=
  have hview : ∀ src n, writtenBelow (srcBuffer s src) n →
      writtenBelow (srcBuffer { s with ext := x } src) n
    | .dbuf, n, hn => hkeep n hn
    | .hin, _, hn => hn
  { h with ext := hx, view := hview _ _ h.view }

theorem State.Inv.withHin {s : State} (h : s.Inv) {m : Hin} (hm : HinInv s.cfg m)
    (hkeep : ∀ n, writtenBelow s.hin.buf n → writtenBelow m.buf n) :
    State.Inv { s with hin := m } :=
  have hview : ∀ src n, writtenBelow (srcBuffer s src) n →
      writtenBelow (srcBuffer { s with hin := m } src) n
    | .dbuf, _, hn => hn
    | .hin, n, hn => hkeep n hn
  { h with hin := hm, view := hview _ _ h.view }

/-! The pipeline. -/

theorem emit_inv (e : Event) {s : State} (h : s.Inv) : (emit e s).Inv :=
  h.withPorts s.resp (s.evPort ++ [e]) s.epoch s.host

/-- A decode of written bytes latches a result whose spans lie inside them. -/
theorem runDecode_inv {s : State} (h : s.Inv) (src : Src) {n : Nat} (hn : n ≤ s.cfg.dsMax)
    (hwritten : writtenBelow (srcBuffer s src) n) : (runDecode src n s).Inv := by
  have hres : ResInv n (decodeDataset src (srcSpan s src 0 n)) := by
    simpa using resInv_decodeDataset src (srcSpan s src 0 n)
  have hview : writtenBelow (srcBuffer s (decodeDataset src (srcSpan s src 0 n)).src)
      ((decodeDataset src (srcSpan s src 0 n)).valueOff +
        (decodeDataset src (srcSpan s src 0 n)).valueLen) := by
    rw [decodeDataset_src]
    exact writtenBelow_of_le hwritten hres.valueEnd_le
  exact
    { build := h.build, unf := h.unf, ext := h.ext, hin := h.hin, cmp := h.cmp
      res := hres.mono hn, view := hview, ref := h.ref }

/-- The extractor's cursor and drop flag cleared, with the state left InSync or not. -/
theorem State.Inv.extEmptied {s : State} (h : s.Inv) (sync : Bool) :
    State.Inv { s with ext.sync := sync, ext.len := 0, ext.drop := false } :=
  h.withExt (h.ext.emptied sync) fun _ => id

theorem extReset_inv {s : State} (h : s.Inv) : (extReset s).Inv :=
  h.extEmptied false

/-- A delivery, whichever state the extractor is left in (41_extractor.md R141, R143). -/
theorem extDeliver_inv {s : State} (h : s.Inv) (sync : Bool) :
    State.Inv { extDeliver s with ext.sync := sync } :=
  (runDecode_inv (emit_inv _ h) .dbuf h.ext.lenBound h.ext.dbufWritten).extEmptied sync

theorem extByte_inv (b : Byte) {s : State} (h : s.Inv) : (extByte b s).1.Inv := by
  rcases extAction_cases s.cfg s.ext b with
    ⟨-, -, ha⟩ | ⟨-, -, ha⟩ | ⟨-, -, ha⟩ | ⟨-, -, -, ha⟩ | ⟨hs, hb, hroom, ha⟩ | ⟨hs, -, hfull, ha⟩
    <;> rw [extByte, ha]
  · exact h
  · exact h.extEmptied true
  · exact extDeliver_inv h false
  · exact extDeliver_inv h _
  · exact h.withExt (h.ext.stored hs hroom hb) fun n => writtenBelow_mono _ n _ _
  · exact h.withExt (h.ext.dropped hs hfull) fun _ => id

theorem feed_inv (bs : List Byte) {s : State} (h : s.Inv) : (feed bs s).Inv := by
  induction bs generalizing s with
  | nil => exact h
  | cons b bs ih => exact ih (extByte_inv b h)

theorem deliverPayload_inv {s : State} (h : s.Inv) : (deliverPayload s).Inv := by
  unfold deliverPayload
  split
  · exact h
  · exact feed_inv _ (emit_inv _ h)

theorem histPush_inv {s : State} (h : s.Inv) {v : Nat} (hv : v < 2 ^ s.cfg.lenW) :
    (histPush v s).Inv :=
  h.withUnf (h.unf.pushed hv)

/-- The unframer's cursor and drop flag cleared, with the state left InSync or not. -/
theorem State.Inv.unfEmptied {s : State} (h : s.Inv) (sync : Bool) :
    State.Inv { s with unf.sync := sync, unf.flen := 0, unf.fdrop := false } :=
  h.withUnf (h.unf.emptied sync)

/-- A frame close, whichever state the unframer is left in (40_unframer.md R113, R114). -/
theorem closeFrame_inv (cause : Cause) {s : State} (h : s.Inv) (sync : Bool) :
    State.Inv { closeFrame cause s with unf.sync := sync } := by
  have hpushed : (histPush s.unf.flen (deliverPayload s)).Inv :=
    histPush_inv (deliverPayload_inv h) (by simpa using h.unf.flenWidth)
  exact (extReset_inv (emit_inv _ hpushed)).unfEmptied sync

theorem unfByte_inv (b : Byte) {s : State} (h : s.Inv) : (unfByte b s).1.Inv := by
  rcases unfAction_cases s.cfg s.unf b with
    ⟨-, -, ha⟩ | ⟨-, -, ha⟩ | ⟨-, -, ha⟩ | ⟨-, -, ha⟩ | ⟨hs, -, hm, ha⟩ |
    ⟨hs, hb, hm, hroom, ha⟩ | ⟨hs, -, hm, hfull, ha⟩
    <;> rw [unfByte, ha]
  · exact h
  · exact h.unfEmptied true
  · exact closeFrame_inv .endMarker h false
  · exact closeFrame_inv .restart h true
  · exact extByte_inv b ((emit_inv _ h).withUnf (h.unf.counted hs hm))
  · exact h.withUnf (h.unf.stored h.build hs hm hroom hb)
  · exact h.withUnf (h.unf.dropped hs hm hfull)

/-! The commands. -/

theorem inv_of_respond {d : Word} {s t : State} (h : s.Inv) (ht : respond d s = .next t) :
    t.Inv := by
  cases ht
  exact h.withPorts _ s.evPort s.epoch s.host

theorem inv_of_refuse {s t : State} (h : s.Inv) (ht : refuse s = .next t) : t.Inv := by
  cases ht
  exact h.withPorts _ s.evPort s.epoch s.host

theorem applyReset_inv {s : State} (h : s.Inv) : (applyReset s).Inv :=
  .of_reset h.build rfl rfl rfl rfl rfl rfl

theorem execDecAppend_inv {b : Byte} {s t : State} (h : s.Inv)
    (ht : execDecAppend b s = .next t) : t.Inv := by
  by_cases hroom : s.hin.len < s.cfg.dsMax
  · rw [execDecAppend, hinStore, if_pos hroom] at ht
    exact inv_of_respond
      (h.withHin (h.hin.stored hroom b) fun n => writtenBelow_mono _ n _ _) ht
  · rw [execDecAppend, hinStore, if_neg hroom] at ht
    exact inv_of_respond (h.withHin (h.hin.dropped (Nat.le_of_not_lt hroom)) fun _ => id) ht

theorem execCmpAppend_inv {b : Byte} {s t : State} (h : s.Inv)
    (ht : execCmpAppend b s = .next t) : t.Inv := by
  by_cases hroom : s.cmp.len < Wire.cmpMax
  · rw [execCmpAppend, cmpStore, if_pos hroom] at ht
    exact inv_of_respond (h.withCmp (h.cmp.stored hroom b)) ht
  · rw [execCmpAppend, cmpStore, if_neg hroom] at ht
    exact inv_of_respond (h.withCmp (h.cmp.overflowed (Nat.le_of_not_lt hroom))) ht

theorem execBufRead_inv {sp : Space} {idx : Nat} {s t : State} (h : s.Inv)
    (ht : execBufRead sp idx s = .next t) : t.Inv := by
  unfold execBufRead at ht
  split at ht
  · exact inv_of_respond h ht
  · exact inv_of_refuse h ht

theorem exec_inv {i : Instr} {s t : State} (h : s.Inv) (ht : exec i s = .next t) : t.Inv := by
  cases i with
  | unfPush b => exact inv_of_respond (unfByte_inv b h) ht
  | extPush b => exact inv_of_respond (extByte_inv b h) ht
  | extReset => exact inv_of_respond (extReset_inv h) ht
  | decClear => exact inv_of_respond (h.withHin h.hin.cleared fun _ => id) ht
  | decAppend b => exact execDecAppend_inv h ht
  | decRun => exact inv_of_respond (runDecode_inv h .hin h.hin.lenBound h.hin.bufWritten) ht
  | cmpClear => exact inv_of_respond (h.withCmp h.cmp.cleared) ht
  | cmpAppend b => exact execCmpAppend_inv h ht
  | horoSave => exact inv_of_respond (h.withRef h.res.horo) ht
  | bufRead sp idx => exact execBufRead_inv h ht
  | blockReset => exact inv_of_respond (applyReset_inv h) ht
  | nop | unfSync | unfMaxsz | extSync | decIsvalid | decU32 | cmpLabel | horoCmp | regRead _ =>
    exact inv_of_respond h ht

/-! One step. -/

theorem runWord_inv {w : Word} {s t : State} (h : s.Inv) (ht : runWord w s = .next t) :
    t.Inv := by
  rcases runWord_cases ht with ⟨i, -, hi⟩ | ⟨e, -, he⟩
  · exact exec_inv h hi
  · exact inv_of_refuse h he

theorem step_inv {s t : State} (h : s.Inv) (ht : step s = .next t) : t.Inv := by
  have hhost : ∀ rest, State.Inv { s with host := rest } :=
    h.withPorts s.resp s.evPort s.epoch
  rcases step_cases ht with rfl | ⟨rest, -, rfl⟩ | ⟨rest, -, rfl⟩ | ⟨w, rest, -, -, hw⟩
  · exact h
  · exact (hhost rest).withPorts s.resp s.evPort.tail s.epoch rest
  · exact .of_reset h.build rfl rfl rfl rfl rfl rfl
  · exact runWord_inv (hhost rest) hw

theorem resetWith_inv {c : Config} (hc : c.valid = true) : (State.resetWith c).Inv :=
  .of_reset hc rfl rfl rfl rfl rfl rfl

/-- Settles O58, by the operations each command and each step is made of. -/
theorem everyStepKeepsTheInvariant : Obligations.EveryStepKeepsTheInvariant := by
  unfold Obligations.EveryStepKeepsTheInvariant
  exact ⟨fun _ _ => step_inv, fun _ _ _ => exec_inv⟩

/-- Settles O57: the reset values meet the invariant of every unit. -/
theorem resetStateMeetsTheInvariant : Obligations.ResetStateMeetsTheInvariant := by
  unfold Obligations.ResetStateMeetsTheInvariant
  exact ⟨fun _ hc => ⟨resetWith_inv hc, rfl⟩, resetWith_inv (by decide), rfl⟩

end Sys2Proof.Machine
end

section
/-! PROOFS. The packed and the unpacked registers (10_state.md R45, 30_encoding.md R92): a field
read back from its slot is the value packed there. -/

namespace Sys2Proof.Machine

/-! Reading a field back from a packed word. -/

theorem field_zext32 (n hi lo : Nat) :
    field (zext32 n) hi lo = n % 2 ^ 32 / 2 ^ lo % 2 ^ (hi - lo + 1) := by
  simp [field, zext32]

theorem slot_of_lt {hi lo v : Nat} (h : v < 2 ^ (hi - lo + 1)) : slot hi lo v = 2 ^ lo * v := by
  rw [slot, Nat.mod_eq_of_lt h]

theorem flagSlot_eq (i : Nat) (b : Bool) : flagSlot i b = 2 ^ i * b.toNat := by
  cases b <;> simp [flagSlot]

theorem Status.code_lt (x : Status) : x.code < 4 := by
  cases x <;> decide

theorem Season.code_lt (x : Season) : x.code < 4 := by
  cases x <;> decide

theorem Src.code_lt (x : Src) : x.code < 2 := by
  cases x <;> decide

theorem Src.code_eq_ite (x : Src) : x.code = if x = .dbuf then 0 else 1 := by
  cases x <;> rfl

theorem modeCode_eq_ite (m : Mode) : modeCode m = if m = .cached then 0 else 1 := by
  cases m <;> rfl

theorem lfPolicyCode_eq_ite (p : LfPolicy) :
    lfPolicyCode p = if p = .reopen then 0 else if p = .desync then 1 else 2 := by
  cases p <;> rfl

theorem modeCode_lt (m : Mode) : modeCode m < 2 := by
  cases m <;> decide

theorem lfPolicyCode_lt (p : LfPolicy) : lfPolicyCode p < 4 := by
  cases p <;> decide

theorem statusFlags_fields (s : State) :
    field (zext32 (statusFlags s)) 0 0 = s.unf.sync.toNat ∧
    field (zext32 (statusFlags s)) 1 1 = s.ext.sync.toNat ∧
    field (zext32 (statusFlags s)) 2 2 = s.unf.fdrop.toNat ∧
    field (zext32 (statusFlags s)) 3 3 = s.ext.drop.toNat ∧
    field (zext32 (statusFlags s)) 4 4 = s.hin.drop.toNat ∧
    field (zext32 (statusFlags s)) 5 5 = s.cmp.overflow.toNat ∧
    field (zext32 (statusFlags s)) 31 6 = 0 := by
  have h0 := s.unf.sync.toNat_le
  have h1 := s.ext.sync.toNat_le
  have h2 := s.unf.fdrop.toNat_le
  have h3 := s.ext.drop.toNat_le
  have h4 := s.hin.drop.toNat_le
  have h5 := s.cmp.overflow.toNat_le
  simp only [field_zext32, statusFlags, flagSlot_eq]
  omega

theorem configFields_fields {c : Config} (hlen : c.lenW < 64) (hcnt : c.cntW < 64) :
    field (zext32 (configFields c)) 0 0 = modeCode c.mode ∧
    field (zext32 (configFields c)) 2 1 = lfPolicyCode c.lfPolicy ∧
    field (zext32 (configFields c)) 7 3 = 0 ∧
    field (zext32 (configFields c)) 13 8 = c.lenW ∧
    field (zext32 (configFields c)) 19 14 = c.cntW ∧
    field (zext32 (configFields c)) 31 20 = 0 := by
  have hmode := modeCode_lt c.mode
  have hlf := lfPolicyCode_lt c.lfPolicy
  simp only [field_zext32, configFields, slot]
  omega

theorem resStatusFields_fields (r : Res) :
    field (zext32 (resStatusFields r)) 1 0 = r.status.code ∧
    field (zext32 (resStatusFields r)) 2 2 = r.src.code ∧
    field (zext32 (resStatusFields r)) 3 3 = r.horoPresent.toNat ∧
    field (zext32 (resStatusFields r)) 31 4 = 0 := by
  have hstatus := r.status.code_lt
  have hsrc := r.src.code_lt
  have hpresent := r.horoPresent.toNat_le
  simp only [field_zext32, resStatusFields, slot, flagSlot_eq]
  omega

theorem resCkFields_fields (r : Res) :
    field (zext32 (resCkFields r)) 7 0 = r.ckRx.toNat ∧
    field (zext32 (resCkFields r)) 15 8 = r.ckCalc.toNat ∧
    field (zext32 (resCkFields r)) 16 16 = r.ckSeen.toNat ∧
    field (zext32 (resCkFields r)) 31 17 = 0 := by
  have hrx := r.ckRx.isLt
  have hcalc := r.ckCalc.isLt
  have hseen := r.ckSeen.toNat_le
  simp only [field_zext32, resCkFields, slot, flagSlot_eq]
  omega

theorem horo0Fields_fields (h : Horo) :
    field (zext32 (horo0Fields h)) 1 0 = h.season.code ∧
    field (zext32 (horo0Fields h)) 2 2 = h.degraded.toNat ∧
    field (zext32 (horo0Fields h)) 3 3 = h.valid.toNat ∧
    field (zext32 (horo0Fields h)) 15 4 = 0 ∧
    field (zext32 (horo0Fields h)) 31 16 = h.year.toNat := by
  have hseason := h.season.code_lt
  have hdegraded := h.degraded.toNat_le
  have hvalid := h.valid.toNat_le
  have hyear := h.year.isLt
  simp only [field_zext32, horo0Fields, slot, flagSlot_eq]
  omega

theorem horo1Fields_fields (h : Horo) :
    field (zext32 (horo1Fields h)) 7 0 = h.month.toNat ∧
    field (zext32 (horo1Fields h)) 15 8 = h.day.toNat ∧
    field (zext32 (horo1Fields h)) 23 16 = h.hour.toNat ∧
    field (zext32 (horo1Fields h)) 31 24 = h.minute.toNat := by
  have hmonth := h.month.isLt
  have hday := h.day.isLt
  have hhour := h.hour.isLt
  have hminute := h.minute.isLt
  simp only [field_zext32, horo1Fields, slot]
  omega

theorem horo2Fields_eq (h : Horo) : horo2Fields h = h.second.toNat := by
  rw [horo2Fields, slot_of_lt h.second.isLt, Nat.pow_zero, Nat.one_mul]

/-- Settles O7, register by register from the fields of each packed word. -/
theorem packedRegistersHoldTheirFields : Obligations.PackedRegistersHoldTheirFields := by
  unfold Obligations.PackedRegistersHoldTheirFields
  intro s flag seasonNumber statusNumber horoWords
  have hflag : flag = Bool.toNat := funext fun b => by cases b <;> rfl
  have hseason : seasonNumber = Season.code := funext fun x => by cases x <;> rfl
  have hstatus : statusNumber = Status.code := funext fun x => by cases x <;> rfl
  have hhoro : ∀ h r0 r1 r2, regValue s r0 = zext32 (horo0Fields h) →
      regValue s r1 = zext32 (horo1Fields h) → regValue s r2 = zext32 (horo2Fields h) →
      horoWords h r0 r1 r2 := by
    intro h r0 r1 r2 h0 h1 h2
    obtain ⟨hsea, hdeg, hval, hgap, hyear⟩ := horo0Fields_fields h
    obtain ⟨hmonth, hday, hhour, hmin⟩ := horo1Fields_fields h
    simp only [horoWords, h0, h1, h2, hflag, hseason, horo2Fields_eq]
    exact ⟨hsea, hdeg, hval, hgap, hyear, hmonth, hday, hhour, hmin, rfl⟩
  refine ⟨?_, fun hc => ?_, ?_, ?_, hhoro _ _ _ _ rfl rfl rfl, hhoro _ _ _ _ rfl rfl rfl,
    fun hlen => ?_, rfl, rfl⟩
  · rw [hflag]
    exact statusFlags_fields s
  · obtain ⟨-, -, hlenW, hcntW⟩ := bounds_of_valid hc
    rw [← modeCode_eq_ite, ← lfPolicyCode_eq_ite]
    exact configFields_fields (by omega) (by omega)
  · rw [hflag, hstatus, ← Src.code_eq_ite]
    exact resStatusFields_fields s.res
  · rw [hflag]
    exact resCkFields_fields s.res
  · rw [regValue, slot_of_lt (by omega), Nat.pow_zero, Nat.one_mul, zext32]

theorem cfgFrameMaxField_of_cached {c : Config} (hm : c.mode = .cached) :
    cfgFrameMaxField c = c.frameMax := by
  simp [cfgFrameMaxField, hm]

theorem cfgFrameMaxField_of_onTheFly {c : Config} (hm : c.mode = .onTheFly) :
    cfgFrameMaxField c = 0 := by
  simp [cfgFrameMaxField, hm]

/-- Settles O6: each register of one element is `zext32` of it by definition, and CFG_FRAME_MAX
depends on the mode. -/
theorem plainRegistersReadTheirElement : Obligations.PlainRegistersReadTheirElement := by
  unfold Obligations.PlainRegistersReadTheirElement
  intro s
  exact ⟨fun r => rfl, fun hm => congrArg zext32 (cfgFrameMaxField_of_cached hm),
    fun hm => congrArg zext32 (cfgFrameMaxField_of_onTheFly hm), rfl, rfl, rfl, rfl, rfl, rfl, rfl,
    rfl, rfl, rfl, rfl, rfl, rfl, rfl⟩

end Sys2Proof.Machine
end

section
/-! PROOFS. No step writes the build, and no command the host's script (10_state.md R41, 00_scope.md
R7). -/

namespace Sys2Proof.Machine

/-- A command that answers from the state `u` keeps the build and the script if `u` has them. -/
theorem cfg_host_of_respond {d : Word} {s u t : State} (h : respond d u = .next t)
    (hcfg : u.cfg = s.cfg) (hhost : u.host = s.host) : t.cfg = s.cfg ∧ t.host = s.host := by
  cases h
  exact ⟨hcfg, hhost⟩

theorem cfg_host_of_refuse {s t : State} (h : refuse s = .next t) :
    t.cfg = s.cfg ∧ t.host = s.host := by
  cases h
  exact ⟨rfl, rfl⟩

theorem execDecAppend_cfg_host {b : Byte} {s t : State} (h : execDecAppend b s = .next t) :
    t.cfg = s.cfg ∧ t.host = s.host := by
  unfold execDecAppend at h
  split at h <;> exact cfg_host_of_respond h rfl rfl

theorem execCmpAppend_cfg_host {b : Byte} {s t : State} (h : execCmpAppend b s = .next t) :
    t.cfg = s.cfg ∧ t.host = s.host := by
  unfold execCmpAppend at h
  split at h <;> exact cfg_host_of_respond h rfl rfl

theorem execBufRead_cfg_host {sp : Space} {idx : Nat} {s t : State}
    (h : execBufRead sp idx s = .next t) : t.cfg = s.cfg ∧ t.host = s.host := by
  unfold execBufRead at h
  split at h
  · exact cfg_host_of_respond h rfl rfl
  · exact cfg_host_of_refuse h

/-- No command writes the build or the host's script. -/
theorem exec_cfg_host {i : Instr} {s t : State} (h : exec i s = .next t) :
    t.cfg = s.cfg ∧ t.host = s.host := by
  cases i with
  | unfPush b => exact cfg_host_of_respond h (unfByte_cfg b s) (unfByte_host b s)
  | extPush b => exact cfg_host_of_respond h (extByte_cfg b s) (extByte_host b s)
  | decAppend b => exact execDecAppend_cfg_host h
  | cmpAppend b => exact execCmpAppend_cfg_host h
  | bufRead sp idx => exact execBufRead_cfg_host h
  | nop | unfSync | unfMaxsz | extReset | extSync | decClear | decRun | decIsvalid | decU32
  | cmpClear | cmpLabel | horoSave | horoCmp | regRead _ | blockReset =>
    exact cfg_host_of_respond h rfl rfl

theorem runWord_cfg {w : Word} {s t : State} (h : runWord w s = .next t) : t.cfg = s.cfg := by
  rcases runWord_cases h with ⟨i, -, hi⟩ | ⟨e, -, he⟩
  · exact (exec_cfg_host hi).1
  · exact (cfg_host_of_refuse he).1

theorem step_cfg {s t : State} (h : step s = .next t) : t.cfg = s.cfg := by
  rcases step_cases h with rfl | ⟨rest, -, rfl⟩ | ⟨rest, -, rfl⟩ | ⟨w, rest, -, -, hw⟩
  · rfl
  · rfl
  · rfl
  · exact runWord_cfg (s := { s with host := rest }) hw

/-- Settles O17, by the cases of a step and of a command. -/
theorem noStepChangesTheBuild : Obligations.NoStepChangesTheBuild := by
  unfold Obligations.NoStepChangesTheBuild
  exact ⟨fun _ _ => step_cfg, fun _ _ _ => exec_cfg_host⟩

end Sys2Proof.Machine
end

section
/-! PROOFS. The command-word encoding (30_encoding.md part 2): what each format's operand decoder
accepts, the decoder as the opcode's choice among them, and from both that a word is accepted
exactly when it is the encoding of a well-formed command. -/

namespace Sys2Proof

/-! The numbers of the registers and the ids of the spaces. -/

theorem Reg.ofNumber?_eq_some_iff {n : Nat} {r : Reg} :
    Reg.ofNumber? n = some r ↔ n = r.number := by
  constructor
  · intro h
    unfold Reg.ofNumber? at h
    split at h <;> cases h <;> rfl
  · rintro rfl
    cases r <;> rfl

theorem Reg.number_lt (r : Reg) : r.number < 0x1A := by
  cases r <;> decide

theorem Reg.ofNumber?_eq_none_iff {n : Nat} : Reg.ofNumber? n = none ↔ 0x1A ≤ n := by
  constructor
  · intro h
    by_contra hlt
    have hsome : ∀ k : Fin 0x1A, Reg.ofNumber? k ≠ none := by decide
    exact hsome ⟨n, Nat.lt_of_not_le hlt⟩ h
  · intro h
    refine Option.eq_none_iff_forall_ne_some.2 fun r hr => ?_
    have hnum := Reg.ofNumber?_eq_some_iff.1 hr
    have hlt := r.number_lt
    omega

theorem Space.ofId?_eq_some_iff {n : Nat} {sp : Space} :
    Space.ofId? n = some sp ↔ n = sp.id := by
  constructor
  · intro h
    unfold Space.ofId? at h
    split at h <;> cases h <;> rfl
  · rintro rfl
    cases sp <;> rfl

/-! The fields of a word. -/

/-- Formats B and R cut the operand field into `[23:8]` and `[7:0]` (30_encoding.md R88). -/
theorem field_operand_eq_byte (w : Word) :
    field w 23 0 = 2 ^ 8 * field w 23 8 + field w 7 0 := by
  simp only [field]
  omega

/-- Format M cuts the operand field into `[23:20]` and `[19:0]` (30_encoding.md R88). -/
theorem field_operand_eq_index (w : Word) :
    field w 23 0 = 2 ^ 20 * field w 23 20 + field w 19 0 := by
  simp only [field]
  omega

theorem field_lt (w : Word) (hi lo : Nat) : field w hi lo < 2 ^ (hi - lo + 1) :=
  Nat.mod_lt _ (Nat.two_pow_pos _)

/-- The opcode and the operand field make the word (30_encoding.md R99). -/
theorem ofNat_fields (w : Word) :
    BitVec.ofNat 32 (2 ^ 24 * field w 31 24 + field w 23 0) = w := by
  have hw := w.isLt
  apply BitVec.eq_of_toNat_eq
  simp only [field, BitVec.toNat_ofNat]
  omega

/-! What the operand decoder of each format accepts (30_encoding.md R88, R96 (b) to (d)). -/

theorem decodeN_eq_ok_iff {w : Word} {i j : Instr} :
    decodeN w i = .ok j ↔ field w 23 0 = 0 ∧ j = i := by
  unfold decodeN
  split
  · simp [*, eq_comm]
  · simp [*]

theorem decodeB_eq_ok_iff {w : Word} {make : Byte → Instr} {j : Instr} :
    decodeB w make = .ok j ↔ ∃ b, field w 23 0 = b.toNat ∧ j = make b := by
  have hcut := field_operand_eq_byte w
  have hlow := field_lt w 7 0
  unfold decodeB
  constructor
  · intro h
    split at h
    · cases h
      refine ⟨byteOperand w, ?_, rfl⟩
      rw [byteOperand, BitVec.toNat_ofNat]
      omega
    · cases h
  · rintro ⟨b, hb, rfl⟩
    have hlt := b.isLt
    have hbyte : byteOperand w = b := by
      rw [byteOperand, show field w 7 0 = b.toNat by omega, BitVec.ofNat_toNat, BitVec.setWidth_eq]
    rw [if_pos (by omega), hbyte]

theorem decodeR_eq_ok_iff {w : Word} {make : Reg → Instr} {j : Instr} :
    decodeR w make = .ok j ↔ ∃ r, field w 23 0 = r.number ∧ j = make r := by
  have hcut := field_operand_eq_byte w
  have hlow := field_lt w 7 0
  unfold decodeR
  constructor
  · intro h
    split at h
    · split at h
      · rename_i hz r hr
        cases h
        exact ⟨r, by rw [← Reg.ofNumber?_eq_some_iff.1 hr]; omega, rfl⟩
      · cases h
    · cases h
  · rintro ⟨r, hr, rfl⟩
    have hlt := r.number_lt
    rw [if_pos (by omega), Reg.ofNumber?_eq_some_iff.2 (show field w 7 0 = r.number by omega)]

theorem decodeM_eq_ok_iff {w : Word} {make : Space → Nat → Instr} {j : Instr} :
    decodeM w make = .ok j ↔
      ∃ sp idx, idx < 2 ^ 20 ∧ field w 23 0 = 2 ^ 20 * sp.id + idx ∧ j = make sp idx := by
  have hcut := field_operand_eq_index w
  have hlow := field_lt w 19 0
  unfold decodeM
  constructor
  · intro h
    split at h
    · rename_i sp hsp
      cases h
      exact ⟨sp, field w 19 0, hlow, by rw [hcut, Space.ofId?_eq_some_iff.1 hsp], rfl⟩
    · cases h
  · rintro ⟨sp, idx, hidx, hx, rfl⟩
    rw [Space.ofId?_eq_some_iff.2 (show field w 23 20 = sp.id by omega),
      show field w 19 0 = idx by omega]

/-! The opcode selects the format and the command (30_encoding.md R90). -/

/-- The operand decoder that the opcode of a command selects. The operands of the command itself
play no part. -/
def Instr.decodeOperand (w : Word) : Instr → Except DecodeError Instr
  | .unfPush _ => decodeB w .unfPush
  | .extPush _ => decodeB w .extPush
  | .decAppend _ => decodeB w .decAppend
  | .cmpAppend _ => decodeB w .cmpAppend
  | .regRead _ => decodeR w .regRead
  | .bufRead _ _ => decodeM w .bufRead
  | i => decodeN w i

theorem decode_of_opcode {w : Word} {i : Instr} (h : field w 31 24 = i.opcode) :
    decode w = i.decodeOperand w := by
  unfold decode
  rw [h]
  cases i <;> rfl

/-- One command of each opcode, in the order of 30_encoding.md R90. -/
def commandsByOpcode : List Instr :=
  [.nop, .unfPush 0, .unfSync, .unfMaxsz, .extPush 0, .extReset, .extSync, .decClear,
   .decAppend 0, .decRun, .decIsvalid, .decU32, .cmpClear, .cmpAppend 0, .cmpLabel, .horoSave,
   .horoCmp, .regRead .status, .bufRead .fbuf 0, .blockReset]

theorem opcode_commandsByOpcode :
    commandsByOpcode.map Instr.opcode = List.range 0x14 := by decide

theorem exists_opcode_eq {n : Nat} (h : n < 0x14) : ∃ i : Instr, n = i.opcode := by
  have hmem : n ∈ commandsByOpcode.map Instr.opcode := by
    rwa [opcode_commandsByOpcode, List.mem_range]
  obtain ⟨i, -, hi⟩ := List.mem_map.1 hmem
  exact ⟨i, hi.symm⟩

theorem decode_of_reservedOpcode {w : Word} (h : 0x14 ≤ field w 31 24) :
    decode w = .error .reservedOpcode := by
  unfold decode
  split
  case h_21 => rfl
  all_goals omega

/-- Everything the decoder does with a word (30_encoding.md R93). -/
theorem decode_cases (w : Word) :
    (0x14 ≤ field w 31 24 ∧ decode w = .error .reservedOpcode) ∨
    ∃ i : Instr, field w 31 24 = i.opcode ∧ decode w = i.decodeOperand w := by
  rcases Nat.lt_or_ge (field w 31 24) 0x14 with hlt | hge
  · obtain ⟨i, hi⟩ := exists_opcode_eq hlt
    exact .inr ⟨i, hi, decode_of_opcode hi⟩
  · exact .inl ⟨hge, decode_of_reservedOpcode hge⟩

/-- The operand decoder of a command's format reads the command's own operand field back. -/
theorem decodeOperand_of_field {w : Word} {i : Instr} (hwf : i.wf = true)
    (hx : field w 23 0 = i.operandField) : i.decodeOperand w = .ok i := by
  cases i with
  | unfPush b | extPush b | decAppend b | cmpAppend b => exact decodeB_eq_ok_iff.2 ⟨b, hx, rfl⟩
  | regRead r => exact decodeR_eq_ok_iff.2 ⟨r, hx, rfl⟩
  | bufRead sp idx => exact decodeM_eq_ok_iff.2 ⟨sp, idx, of_decide_eq_true hwf, hx, rfl⟩
  | nop | unfSync | unfMaxsz | extReset | extSync | decClear | decRun | decIsvalid | decU32
  | cmpClear | cmpLabel | horoSave | horoCmp | blockReset =>
    exact decodeN_eq_ok_iff.2 ⟨hx, rfl⟩

/-- What an operand decoder reads is a well-formed command of its own opcode, with the word's
operand field. -/
theorem field_of_decodeOperand {w : Word} {i j : Instr} (h : i.decodeOperand w = .ok j) :
    j.wf = true ∧ j.opcode = i.opcode ∧ field w 23 0 = j.operandField := by
  cases i with
  | unfPush _ | extPush _ | decAppend _ | cmpAppend _ =>
    obtain ⟨b, hb, rfl⟩ := decodeB_eq_ok_iff.1 h
    exact ⟨rfl, rfl, hb⟩
  | regRead _ =>
    obtain ⟨r, hr, rfl⟩ := decodeR_eq_ok_iff.1 h
    exact ⟨rfl, rfl, hr⟩
  | bufRead _ _ =>
    obtain ⟨sp, idx, hidx, hx, rfl⟩ := decodeM_eq_ok_iff.1 h
    exact ⟨decide_eq_true hidx, rfl, hx⟩
  | nop | unfSync | unfMaxsz | extReset | extSync | decClear | decRun | decIsvalid | decU32
  | cmpClear | cmpLabel | horoSave | horoCmp | blockReset =>
    obtain ⟨hx, rfl⟩ := decodeN_eq_ok_iff.1 h
    exact ⟨rfl, rfl, hx⟩

/-- The decoder reads a word as a command exactly when the command is well formed and the word has
its opcode and its operand field. -/
theorem decode_eq_ok_iff {w : Word} {i : Instr} :
    decode w = .ok i ↔
      i.wf = true ∧ field w 31 24 = i.opcode ∧ field w 23 0 = i.operandField := by
  constructor
  · intro h
    rcases decode_cases w with ⟨-, herr⟩ | ⟨k, hk, hdec⟩
    · simp [herr] at h
    · obtain ⟨hwf, hop, hx⟩ := field_of_decodeOperand (hdec.symm.trans h)
      exact ⟨hwf, hk.trans hop.symm, hx⟩
  · rintro ⟨hwf, hop, hx⟩
    rw [decode_of_opcode hop, decodeOperand_of_field hwf hx]

/-- Both parts of a well-formed command can be read back from its word (30_encoding.md R99). -/
theorem fields_encode (i : Instr) : Laws.Encoding.Statement i := by
  cases i with
  | unfPush b => exact Laws.Encoding.unfPush b
  | extPush b => exact Laws.Encoding.extPush b
  | decAppend b => exact Laws.Encoding.decAppend b
  | cmpAppend b => exact Laws.Encoding.cmpAppend b
  | regRead r => exact Laws.Encoding.regRead r
  | bufRead sp idx => exact Laws.Encoding.bufRead sp idx
  | nop => exact Laws.Encoding.nop
  | unfSync => exact Laws.Encoding.unfSync
  | unfMaxsz => exact Laws.Encoding.unfMaxsz
  | extReset => exact Laws.Encoding.extReset
  | extSync => exact Laws.Encoding.extSync
  | decClear => exact Laws.Encoding.decClear
  | decRun => exact Laws.Encoding.decRun
  | decIsvalid => exact Laws.Encoding.decIsvalid
  | decU32 => exact Laws.Encoding.decU32
  | cmpClear => exact Laws.Encoding.cmpClear
  | cmpLabel => exact Laws.Encoding.cmpLabel
  | horoSave => exact Laws.Encoding.horoSave
  | horoCmp => exact Laws.Encoding.horoCmp
  | blockReset => exact Laws.Encoding.blockReset

theorem decode_encode {i : Instr} (hwf : i.wf = true) : decode (encode i) = .ok i :=
  decode_eq_ok_iff.2 ⟨hwf, fields_encode i hwf⟩

theorem decodeBus_busOfWord (w : Word) (rest : List Byte) :
    decodeBus (busOfWord w ++ rest) = (decode w).map fun i => (i, rest) := by
  simp only [busOfWord, List.cons_append, List.nil_append, decodeBus_cons, wordOfBus_fields]

/-- Settles O10: the fields of a command's word are the command's, and the bytes of a word on the
bus make the word again. -/
theorem decodingAnEncodedCommandGivesItBack :
    Obligations.DecodingAnEncodedCommandGivesItBack := by
  unfold Obligations.DecodingAnEncodedCommandGivesItBack
  intro i hwf
  refine ⟨decode_encode hwf, fun rest => ?_⟩
  rw [decodeBus_busOfWord, decode_encode hwf]
  rfl

/-- Settles O11: a word is made of its opcode and its operand field. -/
theorem everyAcceptedWordIsItsCommandsEncoding :
    Obligations.EveryAcceptedWordIsItsCommandsEncoding := by
  unfold Obligations.EveryAcceptedWordIsItsCommandsEncoding
  intro w i h
  obtain ⟨hwf, hop, hx⟩ := decode_eq_ok_iff.1 h
  refine ⟨hwf, ?_⟩
  rw [encode, ← hop, ← hx, ofNat_fields]

end Sys2Proof
end

section
/-! PROOFS. Which words are refused (30_encoding.md R96): the four conditions read off the word are
those of the decoder and of BUF_READ's meaning, and a step on an issued word runs it as its
command or refuses it (30_encoding.md R87, R93). -/

namespace Sys2Proof

/-- Condition (d) of 30_encoding.md R96 on the operands of a command the decoder has accepted: only
BUF_READ has one. -/
def Instr.refused (mode : Mode) (capacity : Space → Nat) : Instr → Bool
  | .bufRead sp idx => (sp == .fbuf && mode == .onTheFly) || decide (capacity sp ≤ idx)
  | _ => false

/-- Whether a word with this decoding is refused, by the decoder or by its command. -/
def decodingRefused (mode : Mode) (capacity : Space → Nat) : Except DecodeError Instr → Bool
  | .ok i => i.refused mode capacity
  | .error _ => true

section
variable {mode : Mode} {capacity : Space → Nat} {w : Word}

theorem decodingRefused_decodeN {i : Instr} (hi : i.refused mode capacity = false) :
    decodingRefused mode capacity (decodeN w i) = (field w 23 0 != 0) := by
  unfold decodeN
  split <;> simp [decodingRefused, *]

theorem decodingRefused_decodeB {make : Byte → Instr}
    (hmake : ∀ b, (make b).refused mode capacity = false) :
    decodingRefused mode capacity (decodeB w make) = (field w 23 8 != 0) := by
  unfold decodeB
  split <;> simp [decodingRefused, *]

theorem decodingRefused_decodeR {make : Reg → Instr}
    (hmake : ∀ r, (make r).refused mode capacity = false) :
    decodingRefused mode capacity (decodeR w make) =
      (field w 23 8 != 0 || decide (0x1A ≤ field w 7 0)) := by
  unfold decodeR
  split
  · split
    · rename_i r hr
      have hlt := r.number_lt
      have hnum := Reg.ofNumber?_eq_some_iff.1 hr
      simp [decodingRefused, *]
    · rename_i hnone
      simp [decodingRefused, Reg.ofNumber?_eq_none_iff.1 hnone]
  · simp [decodingRefused, *]

theorem decodingRefused_decodeM :
    decodingRefused mode capacity (decodeM w .bufRead) =
      (Space.ofId? (field w 23 20)).all fun sp =>
        (sp == .fbuf && mode == .onTheFly) || decide (capacity sp ≤ field w 19 0) := by
  unfold decodeM
  cases Space.ofId? (field w 23 20) <;> rfl

/-- The conditions of 30_encoding.md R96 are those of the decoder and of the commands. -/
theorem refusedWord_eq_decodingRefused :
    refusedWord mode capacity w = decodingRefused mode capacity (decode w) := by
  rcases decode_cases w with ⟨hop, hdec⟩ | ⟨i, hop, hdec⟩
  · simp [hdec, decodingRefused, refusedWord, hop]
  · rw [hdec]
    cases i with
    | unfPush b | extPush b | decAppend b | cmpAppend b =>
      refine Eq.trans ?_ (decodingRefused_decodeB fun _ => rfl).symm
      simp [refusedWord, hop, Instr.opcode]
    | regRead r =>
      refine Eq.trans ?_ (decodingRefused_decodeR fun _ => rfl).symm
      simp [refusedWord, hop, Instr.opcode]
    | bufRead sp idx =>
      refine Eq.trans ?_ decodingRefused_decodeM.symm
      simp only [refusedWord, hop, Instr.opcode]
      cases Space.ofId? (field w 23 20) <;> rfl
    | nop | unfSync | unfMaxsz | extReset | extSync | decClear | decRun | decIsvalid | decU32
    | cmpClear | cmpLabel | horoSave | horoCmp | blockReset =>
      refine Eq.trans ?_ (decodingRefused_decodeN rfl).symm
      simp [refusedWord, hop, Instr.opcode]

end

end Sys2Proof

namespace Sys2Proof.Machine

/-! One command. -/

theorem bufLegal_eq_not_refused (c : Config) (sp : Space) (idx : Nat) :
    bufLegal c sp idx = !(Instr.bufRead sp idx).refused c.mode (capacity c) := by
  simp only [bufLegal, spaceExists, Instr.refused, Bool.not_or, ← decide_not, Nat.not_le]

theorem exec_of_refused {i : Instr} {s : State}
    (h : i.refused s.cfg.mode (capacity s.cfg) = true) :
    exec i s = .next (answeredIllegal s) := by
  cases i with
  | bufRead sp idx =>
    have hlegal := bufLegal_eq_not_refused s.cfg sp idx
    rw [h] at hlegal
    rw [exec, execBufRead, hlegal]
    rfl
  | _ => cases h

/-- A command that is not refused answers with `illegal = 0`. -/
theorem exec_of_not_refused {i : Instr} {s : State}
    (h : i.refused s.cfg.mode (capacity s.cfg) = false) :
    ∃ t d, exec i s = .next t ∧ t.resp = some { illegal := false, data := d } := by
  cases i with
  | decAppend b =>
    rw [exec, execDecAppend]
    cases hinStore s <;> exact ⟨_, _, rfl, rfl⟩
  | cmpAppend b =>
    rw [exec, execCmpAppend]
    cases cmpStore s <;> exact ⟨_, _, rfl, rfl⟩
  | bufRead sp idx =>
    have hlegal := bufLegal_eq_not_refused s.cfg sp idx
    rw [h] at hlegal
    rw [exec, execBufRead, hlegal]
    exact ⟨_, _, rfl, rfl⟩
  | unfPush _ | extPush _ | nop | unfSync | unfMaxsz | extReset | extSync | decClear | decRun
  | decIsvalid | decU32 | cmpClear | cmpLabel | horoSave | horoCmp | regRead _ | blockReset =>
    exact ⟨_, _, rfl, rfl⟩

/-! One word. -/

theorem runWord_of_ok {w : Word} {i : Instr} (h : decode w = .ok i) (s : State) :
    runWord w s = exec i s := by
  rw [runWord, h]

theorem runWord_of_error {w : Word} {e : DecodeError} (h : decode w = .error e) (s : State) :
    runWord w s = .next (answeredIllegal s) := by
  rw [runWord, h]
  rfl

theorem runWord_of_refusedWord {w : Word} {s : State}
    (h : refusedWord s.cfg.mode (capacity s.cfg) w = true) :
    runWord w s = .next (answeredIllegal s) := by
  rw [refusedWord_eq_decodingRefused] at h
  cases hdec : decode w with
  | error e => exact runWord_of_error hdec s
  | ok i =>
    rw [hdec] at h
    exact (runWord_of_ok hdec s).trans (exec_of_refused h)

theorem runWord_of_not_refusedWord {w : Word} {s : State}
    (h : refusedWord s.cfg.mode (capacity s.cfg) w = false) :
    ∃ t d, runWord w s = .next t ∧ t.resp = some { illegal := false, data := d } := by
  rw [refusedWord_eq_decodingRefused] at h
  cases hdec : decode w with
  | error e =>
    rw [hdec] at h
    cases h
  | ok i =>
    rw [hdec] at h
    rw [runWord_of_ok hdec]
    exact exec_of_not_refused h

/-! One step. -/

/-- A ready block runs the word its host issues (30_encoding.md R87). -/
theorem step_of_issue {s : State} {w : Word} {rest : List HostAction}
    (hc : s.cfg.valid = true) (hport : s.evPort = []) (hhost : s.host = .issue w :: rest) :
    step s = runWord w { s with host := rest } := by
  simp [step, cmdReady, hc, hport, hhost]

theorem decode_of_decodeTableWord {nbits w : Nat} {i : Instr}
    (h : decodeTableWord nbits w = some i) : decode (wordOfTable nbits w) = .ok i := by
  unfold decodeTableWord at h
  split at h
  · split at h
    · cases h
      assumption
    · cases h
  · cases h

/-- Settles O9: a step on an issued word is `runWord`, which refuses exactly the words of R96. -/
theorem refusedWordsAnswerIllegal : Obligations.RefusedWordsAnswerIllegal := by
  unfold Obligations.RefusedWordsAnswerIllegal
  intro s w rest hc hport hhost
  rw [step_of_issue hc hport hhost]
  exact ⟨fun h => runWord_of_refusedWord h, fun h => runWord_of_not_refusedWord h⟩

/-- Settles O13: a step on an issued word is `runWord`, and `withFetchWord` issues the row's
word. -/
theorem stepRunsTheDecodedCommand : Obligations.StepRunsTheDecodedCommand := by
  unfold Obligations.StepRunsTheDecodedCommand
  refine ⟨fun s w rest hc hport hhost => ?_, fun s nbits w i hc hrow => ?_⟩
  · rw [step_of_issue hc hport hhost]
    exact ⟨fun i h => runWord_of_ok h _, fun e h => runWord_of_error h _⟩
  · have hstep : step (s.withFetchWord nbits w) =
        runWord (wordOfTable nbits w) { s with evPort := [] } := step_of_issue hc rfl rfl
    rw [hstep, runWord_of_ok (decode_of_decodeTableWord hrow)]

/-! The words of the spec. -/

theorem opcode_lt (i : Instr) : i.opcode < 2 ^ 8 := by
  cases i <;> simp [Instr.opcode]

/-- A format N command with the word its opcode gives, and the refusal of a nonzero `[23:0]`. -/
theorem encodedN_of_decodeN (i : Instr) (hformat : ∀ w, i.decodeOperand w = decodeN w i) :
    encodedN i.opcode i := by
  refine ⟨?_, fun w s hop hmbz => ?_⟩
  · obtain ⟨hop, hx⟩ := Laws.Encoding.fields_of_parts i.opcode 0 (opcode_lt i) (by decide)
    rw [Nat.add_zero, Nat.mul_comm] at hop hx
    rw [decode_of_opcode hop, hformat, decodeN, if_pos hx]
  · have herr : decode w = .error .mbzNonzero := by
      rw [decode_of_opcode hop, hformat, decodeN, if_neg hmbz]
    exact runWord_of_error herr s

/-- A format B command with the word its opcode and its byte give, and the refusal of a nonzero
`[23:8]`. -/
theorem encodedB_of_decodeB {op : Nat} (make : Byte → Instr)
    (hopcode : ∀ b, (make b).opcode = op)
    (hformat : ∀ w b, (make b).decodeOperand w = decodeB w make) : encodedB op make := by
  refine ⟨fun b => ?_, fun w s hop hmbz => ?_⟩
  · obtain ⟨hop, hx⟩ := Laws.Encoding.fields_of_parts (make b).opcode b.toNat
      (opcode_lt _) (Laws.Encoding.byte_range b)
    rw [hopcode, Nat.mul_comm] at hop hx
    rw [decode_of_opcode (hop.trans (hopcode b).symm), hformat]
    exact decodeB_eq_ok_iff.2 ⟨b, hx, rfl⟩
  · have herr : decode w = .error .mbzNonzero := by
      rw [decode_of_opcode (hop.trans (hopcode 0).symm), hformat, decodeB, if_neg hmbz]
    exact runWord_of_error herr s

/-- The registers in the order of 10_state.md R45. -/
def regsByNumber : List Reg :=
  [.status, .config, .cfgFrameMax, .cfgDsMax, .cfgHistDepth, .unfFlen, .unfHcnt, .unfHwr,
   .unfMaxsz, .unfOvf, .extLen, .extOvf, .hinLen, .resStatus, .resLabelOff, .resLabelLen,
   .resValueOff, .resValueLen, .resCk, .resHoro0, .resHoro1, .resHoro2, .refHoro0,
   .refHoro1, .refHoro2, .cmpLen]

theorem number_regsByNumber : regsByNumber.map Reg.number = List.range 0x1A := by decide

/-- The spaces in the order of 20_memory.md R60. -/
def spacesById : List Space := [.fbuf, .dbuf, .hin, .hist, .cmp]

theorem id_spacesById : spacesById.map Space.id = List.range 5 := by decide

/-- In a list whose elements are numbered by position, an element's position is its number. -/
theorem eq_of_map_eq_range {α : Type} {f : α → Nat} {xs : List α} {k n : Nat} {x : α}
    (hmap : xs.map f = List.range k) (hx : xs[n]? = some x) : n = f x := by
  have hget : (List.range k)[n]? = some (f x) := by
    rw [← hmap, List.getElem?_map, hx, Option.map_some]
  obtain ⟨hlt, hval⟩ := List.getElem?_eq_some_iff.1 hget
  rwa [List.getElem_range] at hval

theorem decode_regRead_of_getElem? {n : Nat} {r : Reg} (h : regsByNumber[n]? = some r) :
    decode (BitVec.ofNat 32 (0x11000000 + n)) = .ok (.regRead r) := by
  rw [eq_of_map_eq_range number_regsByNumber h]
  exact decode_encode (i := .regRead r) rfl

theorem runWord_regRead_refused {w : Word} (s : State) (hop : field w 31 24 = 0x11)
    (h : field w 23 8 ≠ 0 ∨ 0x1A ≤ field w 7 0) : runWord w s = .next (answeredIllegal s) :=
  runWord_of_refusedWord (by simpa [refusedWord, hop] using h)

theorem decode_bufRead_of_getElem? {n idx : Nat} {sp : Space} (h : spacesById[n]? = some sp)
    (hidx : idx < 2 ^ 20) :
    decode (BitVec.ofNat 32 (0x12000000 + 0x100000 * n + idx)) = .ok (.bufRead sp idx) := by
  rw [eq_of_map_eq_range id_spacesById h, Nat.add_assoc]
  exact decode_encode (i := .bufRead sp idx) (decide_eq_true hidx)

/-- Settles O12: format by format; the worked examples of R99 are `decode_encode` of their
commands. -/
theorem wordsOfTheSpecDecodeAsWritten : Obligations.WordsOfTheSpecDecodeAsWritten := by
  unfold Obligations.WordsOfTheSpecDecodeAsWritten
  refine ⟨⟨encodedN_of_decodeN .nop fun _ => rfl, encodedN_of_decodeN .unfSync fun _ => rfl,
      encodedN_of_decodeN .unfMaxsz fun _ => rfl, encodedN_of_decodeN .extReset fun _ => rfl,
      encodedN_of_decodeN .extSync fun _ => rfl, encodedN_of_decodeN .decClear fun _ => rfl,
      encodedN_of_decodeN .decRun fun _ => rfl, encodedN_of_decodeN .decIsvalid fun _ => rfl,
      encodedN_of_decodeN .decU32 fun _ => rfl, encodedN_of_decodeN .cmpClear fun _ => rfl,
      encodedN_of_decodeN .cmpLabel fun _ => rfl, encodedN_of_decodeN .horoSave fun _ => rfl,
      encodedN_of_decodeN .horoCmp fun _ => rfl, encodedN_of_decodeN .blockReset fun _ => rfl⟩,
    ⟨encodedB_of_decodeB .unfPush (fun _ => rfl) fun _ _ => rfl,
      encodedB_of_decodeB .extPush (fun _ => rfl) fun _ _ => rfl,
      encodedB_of_decodeB .decAppend (fun _ => rfl) fun _ _ => rfl,
      encodedB_of_decodeB .cmpAppend (fun _ => rfl) fun _ _ => rfl⟩,
    ⟨fun _ _ => decode_regRead_of_getElem?, fun _ s => runWord_regRead_refused s⟩,
    fun _ _ _ => decode_bufRead_of_getElem?, ?_⟩
  exact ⟨rfl, decode_encode (i := .unfPush 0x02) rfl, rfl,
    decode_encode (i := .regRead .unfMaxsz) rfl, rfl, decode_encode (i := .bufRead .dbuf 3) rfl,
    rfl, decode_encode (i := .decRun) rfl, fields_encode⟩

end Sys2Proof.Machine
end

section
/-! PROOFS. The checksum byte (30_encoding.md R83), and what `dec.decode` of a byte string leaves
behind (30_encoding.md R98, 42_decoder.md R184 to R186): the bytes appended to the host buffer are
the span that DEC_RUN decodes. -/

namespace Sys2Proof.Machine

/-- Settles O52: the masked sum is at most 0x3F, so the byte holds it with 0x20 added. -/
theorem checksumByteRange : Obligations.ChecksumByteRange := by
  unfold Obligations.ChecksumByteRange
  intro bs
  have hmask : (bs.map BitVec.toNat).sum % 256 &&& 0x3F ≤ 0x3F := Nat.and_le_right
  refine ⟨?_, checksum_range bs⟩
  rw [checksum, byteSum, BitVec.toNat_ofNat, Nat.mod_eq_of_lt (by omega)]

/-! The host buffer. -/

/-- The host buffer with one more byte (42_decoder.md R185). -/
def Hin.append (m : Hin) (b : Byte) : Hin :=
  { m with buf := cellSet m.buf m.len b, len := m.len + 1 }

/-- The host buffer with the bytes of a string appended one by one. -/
def Hin.appendAll (m : Hin) (d : List Byte) : Hin := d.foldl Hin.append m

/-- The host buffer after DEC_CLEAR (42_decoder.md R184). -/
def Hin.cleared (m : Hin) : Hin := { m with len := 0, drop := false }

theorem Hin.len_appendAll (m : Hin) (d : List Byte) :
    (m.appendAll d).len = m.len + d.length := by
  induction d generalizing m with
  | nil => rfl
  | cons b d ih =>
    calc ((m.append b).appendAll d).len = m.len + 1 + d.length := ih (m.append b)
      _ = m.len + (b :: d).length := by rw [List.length_cons]; omega

theorem Hin.drop_appendAll (m : Hin) (d : List Byte) : (m.appendAll d).drop = m.drop := by
  induction d generalizing m with
  | nil => rfl
  | cons b d ih => exact ih (m.append b)

/-- The bytes of the host buffer below its cursor, the span DEC_RUN decodes. -/
def Hin.bytes (epoch : Nat) (m : Hin) : List Byte :=
  (List.range m.len).map (memByte m.buf epoch .hin)

theorem srcSpan_hin (s : State) : srcSpan s .hin 0 s.hin.len = s.hin.bytes s.epoch := by
  rw [srcSpan, Hin.bytes, List.range_eq_range']
  rfl

theorem Hin.bytes_append (epoch : Nat) (m : Hin) (b : Byte) :
    (m.append b).bytes epoch = m.bytes epoch ++ [b] := by
  have hold : ∀ i ∈ List.range m.len,
      memByte (cellSet m.buf m.len b) epoch .hin i = memByte m.buf epoch .hin i := by
    intro i hi
    rw [memByte_cellSet, if_neg (Nat.ne_of_lt (List.mem_range.1 hi))]
  simp only [Hin.bytes, Hin.append, List.range_succ, List.map_append, List.map_cons, List.map_nil,
    List.map_congr_left hold, memByte_cellSet, if_pos]

theorem Hin.bytes_appendAll (epoch : Nat) (m : Hin) (d : List Byte) :
    (m.appendAll d).bytes epoch = m.bytes epoch ++ d := by
  induction d generalizing m with
  | nil => exact (List.append_nil _).symm
  | cons b d ih =>
    calc ((m.append b).appendAll d).bytes epoch = (m.append b).bytes epoch ++ d := ih (m.append b)
      _ = m.bytes epoch ++ b :: d := by rw [Hin.bytes_append, List.append_assoc]; rfl

/-! The commands of the expansion. -/

theorem exec_decAppend_of_room {s : State} (b : Byte) (hroom : s.hin.len < s.cfg.dsMax) :
    exec (.decAppend b) s = .next (answered 1 { s with hin := s.hin.append b }) := by
  rw [exec, execDecAppend, hinStore, if_pos hroom]
  rfl

theorem execAll_cons_of_next {i : Instr} {s t : State} (is : List Instr)
    (h : exec i s = .next t) : execAll (i :: is) s = execAll is t := by
  rw [execAll, h]

/-- DEC_APPEND of bytes that fit stores them all, and what runs after them sees them. -/
theorem execAll_decAppend {s : State} {d : List Byte} (is : List Instr)
    (hfit : s.hin.len + d.length ≤ s.cfg.dsMax) :
    ∃ r, execAll (d.map .decAppend ++ is) s =
      execAll is { s with hin := s.hin.appendAll d, resp := r } := by
  induction d generalizing s with
  | nil => exact ⟨s.resp, rfl⟩
  | cons b d ih =>
    rw [List.length_cons] at hfit
    have hstore := exec_decAppend_of_room b (s := s) (by omega)
    have hrest : s.hin.len + 1 + d.length ≤ s.cfg.dsMax := by omega
    obtain ⟨r, hr⟩ := ih (s := answered 1 { s with hin := s.hin.append b }) hrest
    exact ⟨r, (execAll_cons_of_next _ hstore).trans hr⟩

theorem execDecRun_of_span {s : State} {d : List Byte}
    (hspan : srcSpan s .hin 0 s.hin.len = d) :
    execDecRun s = .next (answered (zext32 (decodeDataset .hin d).status.code) { s with
      res := decodeDataset .hin d
      evPort := s.evPort ++ [recordEvent d (decodeDataset .hin d)] }) := by
  subst hspan
  rfl

/-- The state after `dec.decode` of bytes that fit: the span that DEC_RUN decodes is exactly the
bytes appended. -/
theorem execAll_decDecode {s : State} {d : List Byte} (hfit : d.length ≤ s.cfg.dsMax) :
    execAll (Pseudo.expand (.decDecode d)) s =
      .next (answered (zext32 (decodeDataset .hin d).status.code) { s with
        hin := s.hin.cleared.appendAll d
        res := decodeDataset .hin d
        evPort := s.evPort ++ [recordEvent d (decodeDataset .hin d)] }) := by
  have hclear : exec .decClear s = .next (answered 0 { s with hin := s.hin.cleared }) := rfl
  obtain ⟨r, happend⟩ := execAll_decAppend (s := answered 0 { s with hin := s.hin.cleared })
    [.decRun] ((Nat.zero_add _).trans_le hfit)
  have hspan := (srcSpan_hin { s with hin := s.hin.cleared.appendAll d, resp := r }).trans
    (Hin.bytes_appendAll s.epoch s.hin.cleared d)
  rw [Pseudo.expand, List.cons_append, execAll_cons_of_next _ hclear, happend]
  exact execAll_cons_of_next [] (execDecRun_of_span hspan)

/-- Settles O46: field by field from the state after `dec.decode`. -/
theorem loadingAndRunningDecodesTheGivenBytes :
    Obligations.LoadingAndRunningDecodesTheGivenBytes := by
  unfold Obligations.LoadingAndRunningDecodesTheGivenBytes
  intro s d hfit code
  have hcode : (decodeDataset .hin d).status.code = code := by
    unfold code
    cases (decodeDataset .hin d).status <;> rfl
  have hlen : (s.hin.cleared.appendAll d).len = d.length :=
    (Hin.len_appendAll s.hin.cleared d).trans (Nat.zero_add _)
  rw [execAll_decDecode hfit, hcode]
  exact ⟨_, rfl, rfl, decodeDataset_src .hin d, rfl, rfl, hlen,
    Hin.drop_appendAll s.hin.cleared d, rfl⟩

end Sys2Proof.Machine
end

section
/-! PROOFS. Marker exclusion (40_unframer.md R120, 41_extractor.md R149): the bytes that a span of a
written buffer holds, what every event of a command therefore satisfies, and what EXT_PUSH alone can
bring into a dataset. -/

namespace Sys2Proof.Machine

/-! The bytes of a span. -/

/-- A written index of a space reads as one of the listed elements. -/
theorem memByte_of_cellsIn {m : Memory} {n k i : Nat} {p : Byte → Prop} (hm : cellsIn m n p)
    (hw : writtenBelow m k) (hi : i < k) (epoch : Nat) (sp : Space) :
    p (memByte m epoch sp i) := by
  obtain ⟨v, hv⟩ := Option.isSome_iff_exists.1 (hw i hi)
  rw [memByte, hv]
  exact (hm _ (cellGet?_mem m i v hv)).2

theorem forall_mem_dbufSpan {s : State} {n : Nat} {p : Byte → Prop} :
    (∀ b ∈ srcSpan s .dbuf 0 n, p b) ↔
      ∀ i, i < n → p (memByte s.ext.dbuf s.epoch .dbuf i) := by
  simp [srcSpan, srcByte, ← List.range_eq_range']

theorem forall_mem_fbufSpan {s : State} {n : Nat} {p : Byte → Prop} :
    (∀ b ∈ fbufSpan s n, p b) ↔ ∀ i, i < n → p (memByte s.unf.fbuf s.epoch .fbuf i) := by
  simp [fbufSpan]

/-- An element that reads as neither marker is a byte that is neither (20_memory.md R60). -/
theorem zext32_ne_markers_iff (b : Byte) :
    zext32 b.toNat ≠ 0x02 ∧ zext32 b.toNat ≠ 0x03 ↔ notFrameMarker b := by
  unfold zext32 notFrameMarker Wire.stx Wire.etx
  bv_omega

theorem notFrameMarker_of_mem_fbuf {s : State} (h : s.Inv) (hm : s.cfg.mode = .cached) {i : Nat}
    (hi : i < s.unf.flen) : notFrameMarker (memByte s.unf.fbuf s.epoch .fbuf i) :=
  memByte_of_cellsIn h.unf.fbufCells (h.unf.fbufWritten hm) hi s.epoch .fbuf

/-- The payload that a frame close delivers holds no frame marker (40_unframer.md R120). -/
theorem notFrameMarker_of_mem_closePayload {s : State} (h : s.Inv) :
    ∀ b ∈ closePayload s, notFrameMarker b := by
  unfold closePayload
  cases hm : s.cfg.mode with
  | cached => exact forall_mem_fbufSpan.2 fun i hi => notFrameMarker_of_mem_fbuf h hm hi
  | onTheFly => exact List.forall_mem_nil _

/-! `eventOk` of every event a command emits. -/

/-- The record of a decode, whatever the span (10_state.md R43 items 6 and 7). -/
theorem eventOk_recordEvent (c : Config) (src : Src) (d : List Byte) :
    eventOk c (recordEvent d (decodeDataset src d)) := by
  have hres := resInv_decodeDataset src d
  refine ⟨fun hv => ?_, fun hv => ?_, hres.absent⟩
  · obtain ⟨-, hlabel, -, hvalue, hpresent⟩ := hres.failed hv
    simp [hlabel, hvalue, hpresent]
  · have hdisjoint := hres.disjoint hv
    have hinside := hres.inside hv
    rw [length_slice d _ _ (by omega)]
    exact hres.label hv

theorem eventOk_deliveryEvents {s : State} (h : s.Inv) :
    ∀ e ∈ deliveryEvents s, eventOk s.cfg e := by
  have hdataset : eventOk s.cfg (.dataset (srcSpan s .dbuf 0 s.ext.len) s.ext.drop) := by
    refine ⟨forall_mem_dbufSpan.2 fun i hi => ?_, ?_, ?_⟩
    · exact memByte_of_cellsIn h.ext.dbufCells h.ext.dbufWritten hi s.epoch .dbuf
    · rw [length_srcSpan]
      exact h.ext.lenBound
    · rw [length_srcSpan]
      exact h.ext.dropFull
  exact List.forall_mem_cons.2
    ⟨hdataset, List.forall_mem_singleton.2 (eventOk_recordEvent _ _ _)⟩

/-- The extractor emits a delivery or nothing. -/
theorem extEvents_cases (b : Byte) (s : State) :
    extEvents b s = deliveryEvents s ∨ extEvents b s = [] := by
  unfold extEvents
  split
  · exact .inl rfl
  · exact .inr rfl

theorem eventOk_extEvents (b : Byte) {s : State} (h : s.Inv) :
    ∀ e ∈ extEvents b s, eventOk s.cfg e := by
  rcases extEvents_cases b s with he | he
  · rw [he]
    exact eventOk_deliveryEvents h
  · rw [he]
    exact List.forall_mem_nil _

theorem eventOk_feedEvents (bs : List Byte) {s : State} (h : s.Inv) :
    ∀ e ∈ feedEvents bs s, eventOk s.cfg e := by
  induction bs generalizing s with
  | nil => exact List.forall_mem_nil _
  | cons b bs ih =>
    have hrest := ih (extByte_inv b h)
    rw [extByte_cfg] at hrest
    exact List.forall_mem_append.2 ⟨eventOk_extEvents b h, hrest⟩

theorem eventOk_payloadEvents {s : State} (h : s.Inv) :
    ∀ e ∈ payloadEvents s, eventOk s.cfg e := by
  refine List.forall_mem_append.2 ⟨?_, eventOk_feedEvents _ h⟩
  split
  · exact List.forall_mem_nil _
  · rename_i hne
    exact List.forall_mem_singleton.2 ⟨hne, notFrameMarker_of_mem_closePayload h⟩

theorem eventOk_closeEvents (cause : Cause) {s : State} (h : s.Inv) :
    ∀ e ∈ payloadEvents s ++ [.frameComplete cause s.unf.fdrop], eventOk s.cfg e :=
  List.forall_mem_append.2
    ⟨eventOk_payloadEvents h, List.forall_mem_singleton.2 fun hd => (h.unf.dropFull hd).1⟩

theorem eventOk_unfEvents (b : Byte) {s : State} (h : s.Inv) :
    ∀ e ∈ unfEvents b s, eventOk s.cfg e := by
  rcases unfAction_cases s.cfg s.unf b with
    ⟨-, -, ha⟩ | ⟨-, -, ha⟩ | ⟨-, -, ha⟩ | ⟨-, -, ha⟩ | ⟨-, hb, -, ha⟩ | ⟨-, -, -, -, ha⟩ |
    ⟨-, -, -, -, ha⟩
    <;> rw [unfEvents, ha]
  · exact List.forall_mem_nil _
  · exact List.forall_mem_nil _
  · exact eventOk_closeEvents .endMarker h
  · exact eventOk_closeEvents .restart h
  · exact List.forall_mem_cons.2
      ⟨⟨List.cons_ne_nil _ _, List.forall_mem_singleton.2 hb⟩, eventOk_extEvents b h⟩
  · exact List.forall_mem_nil _
  · exact List.forall_mem_nil _

theorem eventOk_commandEvents (i : Instr) {s : State} (h : s.Inv) :
    ∀ e ∈ commandEvents s i, eventOk s.cfg e := by
  unfold commandEvents
  split
  · exact eventOk_unfEvents _ h
  · exact eventOk_extEvents _ h
  · exact List.forall_mem_singleton.2 (eventOk_recordEvent _ _ _)
  · exact List.forall_mem_nil _

theorem exec_eventOk {i : Instr} {s t : State} (h : s.Inv) (hport : ∀ e ∈ s.evPort, eventOk s.cfg e)
    (ht : exec i s = .next t) : ∀ e ∈ t.evPort, eventOk t.cfg e := by
  rw [(exec_cfg_host ht).1, exec_evPort ht]
  exact List.forall_mem_append.2 ⟨hport, eventOk_commandEvents i h⟩

theorem runWord_eventOk {w : Word} {s t : State} (h : s.Inv)
    (hport : ∀ e ∈ s.evPort, eventOk s.cfg e) (ht : runWord w s = .next t) :
    ∀ e ∈ t.evPort, eventOk t.cfg e := by
  rcases runWord_cases ht with ⟨i, -, hi⟩ | ⟨e, -, he⟩
  · exact exec_eventOk h hport hi
  · rw [(cfg_host_of_refuse he).1, evPort_of_refuse he]
    exact hport

theorem step_eventOk {s t : State} (h : s.Inv) (hport : ∀ e ∈ s.evPort, eventOk s.cfg e)
    (ht : step s = .next t) : ∀ e ∈ t.evPort, eventOk t.cfg e := by
  rcases step_cases ht with rfl | ⟨rest, -, rfl⟩ | ⟨rest, -, rfl⟩ | ⟨w, rest, -, -, hw⟩
  · exact hport
  · exact fun e he => hport e (List.mem_of_mem_tail he)
  · exact hport
  · exact runWord_eventOk (s := { s with host := rest })
      (h.withPorts s.resp s.evPort s.epoch rest) hport hw

/-- Every reachable state meets the invariant and has `eventOk` events on its port. -/
theorem Reachable.inv_and_eventOk {s : State} (h : Reachable s) :
    s.Inv ∧ ∀ e ∈ s.evPort, eventOk s.cfg e := by
  induction h with
  | start c acts hc =>
    exact ⟨(resetWith_inv hc).withPorts none [] 0 acts, List.forall_mem_nil _⟩
  | step s t _ ht ih => exact ⟨step_inv ih.1 ht, step_eventOk ih.1 ih.2 ht⟩

/-- Settles O59: the items of R43 are fields of the invariant, which every reachable state
meets. -/
theorem reachableStatesSatisfyTheSpecInvariants :
    Obligations.ReachableStatesSatisfyTheSpecInvariants := by
  unfold Obligations.ReachableStatesSatisfyTheSpecInvariants
  intro s hs
  obtain ⟨h, -⟩ := hs.inv_and_eventOk
  refine ⟨h.unf.idle, h.unf.cachedBound, h.ext.idle,
    ⟨h.ext.lenBound, h.hin.lenBound, h.cmp.lenBound⟩,
    ⟨h.unf.hcntBound, h.unf.hwrBound, h.unf.hwrBeforeWrap⟩, fun hfail => ?_, fun hvalid => ?_⟩
  · have hv : s.res.status.isValid = false := by rcases hfail with hst | hst <;> rw [hst] <;> rfl
    obtain ⟨-, hlabel, -, hvalue, hpresent⟩ := h.res.failed hv
    exact ⟨hlabel, hvalue, hpresent⟩
  · have hv : s.res.status.isValid = true := by rcases hvalid with hst | hst <;> rw [hst] <;> rfl
    obtain ⟨hlow, hhigh⟩ := h.res.label hv
    exact ⟨hlow, hhigh, .inl (Nat.le_of_lt (h.res.disjoint hv))⟩

/-! What EXT_PUSH alone brings into the dataset buffer. -/

/-- `DBUF[0 .. EXT.len)` holds no frame marker. -/
def dbufMarkerFree (s : State) : Prop :=
  ∀ k, k < s.ext.len → notFrameMarker (memByte s.ext.dbuf s.epoch .dbuf k)

/-- No `DATASET` event of the list holds a frame marker. -/
def datasetsMarkerFree (es : List Event) : Prop :=
  ∀ p ∈ datasetsOf es, ∀ b ∈ p.1, notFrameMarker b

theorem dbufMarkerFree_iff (s : State) :
    dbufMarkerFree s ↔
      ∀ k, k < s.ext.len → elemAt s .dbuf k ≠ 0x02 ∧ elemAt s .dbuf k ≠ 0x03 :=
  forall₂_congr fun _ _ => (zext32_ne_markers_iff _).symm

theorem dbufMarkerFree_of_empty {s : State} (h : s.ext.len = 0) : dbufMarkerFree s :=
  fun k hk => by omega

theorem dbufMarkerFree_congr {s t : State} (hx : t.ext = s.ext) (he : t.epoch = s.epoch) :
    dbufMarkerFree t ↔ dbufMarkerFree s := by
  rw [dbufMarkerFree, hx, he, dbufMarkerFree]

theorem datasetsOf_append (as bs : List Event) :
    datasetsOf (as ++ bs) = datasetsOf as ++ datasetsOf bs := by
  induction as with
  | nil => rfl
  | cons e as ih => cases e <;> simp [datasetsOf, ih]

theorem datasetsMarkerFree_nil : datasetsMarkerFree [] := List.forall_mem_nil _

theorem datasetsMarkerFree_append {as bs : List Event} :
    datasetsMarkerFree (as ++ bs) ↔ datasetsMarkerFree as ∧ datasetsMarkerFree bs := by
  rw [datasetsMarkerFree, datasetsOf_append]
  exact List.forall_mem_append

theorem extEvents_markerFree (b : Byte) {s : State} (h : dbufMarkerFree s) :
    datasetsMarkerFree (extEvents b s) := by
  rcases extEvents_cases b s with he | he
  · rw [he]
    exact List.forall_mem_singleton.2 (forall_mem_dbufSpan.2 h)
  · rw [he]
    exact datasetsMarkerFree_nil

theorem extByte_markerFree {b : Byte} {s : State} (hb : notFrameMarker b)
    (h : dbufMarkerFree s) : dbufMarkerFree (extByte b s).1 := by
  rcases extAction_cases s.cfg s.ext b with
    ⟨-, -, ha⟩ | ⟨-, -, ha⟩ | ⟨-, -, ha⟩ | ⟨-, -, -, ha⟩ | ⟨-, -, -, ha⟩ | ⟨-, -, -, ha⟩
    <;> rw [extByte, ha]
  · exact h
  · exact dbufMarkerFree_of_empty rfl
  · exact dbufMarkerFree_of_empty rfl
  · exact dbufMarkerFree_of_empty rfl
  · intro k hk
    dsimp only
    rw [memByte_cellSet]
    split
    · exact hb
    · exact h k (Nat.lt_of_le_of_ne (Nat.le_of_lt_succ hk) ‹_›)
  · exact h

theorem feedEvents_markerFree {bs : List Byte} {s : State} (hbs : ∀ b ∈ bs, notFrameMarker b)
    (h : dbufMarkerFree s) : datasetsMarkerFree (feedEvents bs s) := by
  induction bs generalizing s with
  | nil => exact datasetsMarkerFree_nil
  | cons b bs ih =>
    obtain ⟨hb, hrest⟩ := List.forall_mem_cons.1 hbs
    exact datasetsMarkerFree_append.2
      ⟨extEvents_markerFree b h, ih hrest (extByte_markerFree hb h)⟩

theorem payloadEvents_markerFree {s : State} (hinv : s.Inv) (h : dbufMarkerFree s) :
    datasetsMarkerFree (payloadEvents s) := by
  refine datasetsMarkerFree_append.2
    ⟨?_, feedEvents_markerFree (notFrameMarker_of_mem_closePayload hinv) h⟩
  split <;> exact datasetsMarkerFree_nil

theorem closeEvents_markerFree (cause : Cause) {s : State} (hinv : s.Inv)
    (h : dbufMarkerFree s) :
    datasetsMarkerFree (payloadEvents s ++ [.frameComplete cause s.unf.fdrop]) :=
  datasetsMarkerFree_append.2 ⟨payloadEvents_markerFree hinv h, datasetsMarkerFree_nil⟩

/-- The unframer forwards no frame marker to the extractor, and a frame close empties it. -/
theorem unfByte_markerFree (b : Byte) {s : State} (hinv : s.Inv) (h : dbufMarkerFree s) :
    dbufMarkerFree (unfByte b s).1 ∧ datasetsMarkerFree (unfEvents b s) := by
  rcases unfAction_cases s.cfg s.unf b with
    ⟨-, -, ha⟩ | ⟨-, -, ha⟩ | ⟨-, -, ha⟩ | ⟨-, -, ha⟩ | ⟨-, hb, -, ha⟩ | ⟨-, -, -, -, ha⟩ |
    ⟨-, -, -, -, ha⟩
    <;> rw [unfByte, unfEvents, ha]
  · exact ⟨h, datasetsMarkerFree_nil⟩
  · exact ⟨h, datasetsMarkerFree_nil⟩
  · exact ⟨dbufMarkerFree_of_empty rfl, closeEvents_markerFree .endMarker hinv h⟩
  · exact ⟨dbufMarkerFree_of_empty rfl, closeEvents_markerFree .restart hinv h⟩
  · exact ⟨extByte_markerFree hb h, extEvents_markerFree b h⟩
  · exact ⟨h, datasetsMarkerFree_nil⟩
  · exact ⟨h, datasetsMarkerFree_nil⟩

/-- A command that answers from a state with `s`'s unframer and extractor keeps them. -/
theorem pipeline_of_respond {d : Word} {s u t : State} (h : respond d u = .next t)
    (hu : u.unf = s.unf ∧ u.ext = s.ext ∧ u.epoch = s.epoch) :
    t.unf = s.unf ∧ t.ext = s.ext ∧ t.epoch = s.epoch := by
  cases h
  exact hu

/-- A command that feeds neither unit leaves the pipeline as it was, or the extractor OutOfSync and
empty. -/
theorem exec_pipeline_cases {i : Instr} {s t : State} (hunf : ∀ b, i ≠ .unfPush b)
    (hext : ∀ b, i ≠ .extPush b) (h : exec i s = .next t) :
    (t.unf = s.unf ∧ t.ext = s.ext ∧ t.epoch = s.epoch) ∨
    (t.ext.sync = false ∧ t.ext.len = 0) := by
  cases i with
  | unfPush b => exact absurd rfl (hunf b)
  | extPush b => exact absurd rfl (hext b)
  | extReset | blockReset =>
    cases h
    exact .inr ⟨rfl, rfl⟩
  | decAppend b =>
    rw [exec, execDecAppend] at h
    cases hidx : hinStore s <;> rw [hidx] at h <;>
      exact .inl (pipeline_of_respond h ⟨rfl, rfl, rfl⟩)
  | cmpAppend b =>
    rw [exec, execCmpAppend] at h
    cases hidx : cmpStore s <;> rw [hidx] at h <;>
      exact .inl (pipeline_of_respond h ⟨rfl, rfl, rfl⟩)
  | bufRead sp idx =>
    rw [exec, execBufRead] at h
    split at h <;> cases h <;> exact .inl ⟨rfl, rfl, rfl⟩
  | nop | unfSync | unfMaxsz | extSync | decClear | decRun | decIsvalid | decU32 | cmpClear
  | cmpLabel | horoSave | horoCmp | regRead _ =>
    exact .inl (pipeline_of_respond h ⟨rfl, rfl, rfl⟩)

theorem exec_markerFree {i : Instr} {s t : State} (hinv : s.Inv) (hext : ∀ b, i ≠ .extPush b)
    (h : dbufMarkerFree s) (ht : exec i s = .next t) :
    dbufMarkerFree t ∧ datasetsMarkerFree (commandEvents s i) := by
  by_cases hunf : ∃ b, i = .unfPush b
  · obtain ⟨b, rfl⟩ := hunf
    cases ht
    exact unfByte_markerFree b hinv h
  · have hunf' : ∀ b, i ≠ .unfPush b := fun b hb => hunf ⟨b, hb⟩
    constructor
    · rcases exec_pipeline_cases hunf' hext ht with ⟨-, hx, he⟩ | ⟨-, hlen⟩
      · exact (dbufMarkerFree_congr hx he).2 h
      · exact dbufMarkerFree_of_empty hlen
    · by_cases hrun : i = .decRun
      · subst hrun
        exact datasetsMarkerFree_nil
      · rw [commandEvents_eq_nil s (fun b => ⟨hunf' b, hext b⟩) hrun]
        exact datasetsMarkerFree_nil

theorem not_mem_markers {bs : List Byte} (h : ∀ b ∈ bs, notFrameMarker b) :
    (0x02 : Byte) ∉ bs ∧ (0x03 : Byte) ∉ bs :=
  ⟨fun hm => (h _ hm).1 rfl, fun hm => (h _ hm).2 rfl⟩

/-- Settles O60: the events of a command are `eventOk` by the invariant, and nothing but EXT_PUSH
brings a frame marker into the dataset buffer. -/
theorem eventsNeverHoldTheirOwnMarkers : Obligations.EventsNeverHoldTheirOwnMarkers := by
  unfold Obligations.EventsNeverHoldTheirOwnMarkers
  refine ⟨fun s t h hport ht => ⟨step_inv h ht, step_eventOk h hport ht⟩,
    fun i s t h hport ht => ⟨exec_inv h ht, exec_eventOk h hport ht⟩,
    fun i s t h hext hfree ht => ?_, fun s hs => ?_⟩
  · obtain ⟨ht', hes⟩ := exec_markerFree h hext ((dbufMarkerFree_iff s).2 hfree) ht
    exact ⟨(dbufMarkerFree_iff t).1 ht', commandEvents s i, exec_evPort ht,
      fun p hp => not_mem_markers (hes p hp)⟩
  · obtain ⟨h, hport⟩ := hs.inv_and_eventOk
    refine ⟨fun bs hbs => ?_, fun hm i hi => ?_, fun bs dropped hbs => ?_⟩
    · obtain ⟨hne, hfree⟩ := hport _ hbs
      exact ⟨hne, not_mem_markers hfree⟩
    · exact (zext32_ne_markers_iff _).2 (notFrameMarker_of_mem_fbuf h hm hi)
    · obtain ⟨hdata, hlen, -⟩ := hport _ hbs
      exact ⟨fun hcr => (hdata _ hcr).1 rfl, fun hlf => (hdata _ hlf).2 rfl, hlen⟩

end Sys2Proof.Machine
end

section
/-! PROOFS. UNF_PUSH (40_unframer.md R110 to R116): one equation for each case of R111, and what
each case leaves behind. -/

namespace Sys2Proof.Machine

/-! The queries. -/

/-- Settles O19: the words are format N's, and the answers are the flags themselves. -/
theorem flagQueriesAnswerTheirFlag : Obligations.FlagQueriesAnswerTheirFlag := by
  unfold Obligations.FlagQueriesAnswerTheirFlag
  refine ⟨encodedN_of_decodeN .unfSync fun _ => rfl, encodedN_of_decodeN .extSync fun _ => rfl,
    encodedN_of_decodeN .decIsvalid fun _ => rfl, fun s => ⟨rfl, rfl, ?_⟩⟩
  rw [exec, execDecIsvalid]
  cases s.res.status <;> rfl

/-- The running maximum of a non-empty list of numbers is its maximum. -/
theorem max?_eq_foldl_max {ns : List Nat} (h : ns ≠ []) : ns.max? = some (ns.foldl max 0) := by
  cases ns with
  | nil => exact absurd rfl h
  | cons n ns => rw [List.max?_cons', List.foldl_cons, Nat.zero_max]

theorem maxRecent_of_no_entry {s : State} (h : s.unf.hcnt = 0) : maxRecent s = 0 := by
  rw [maxRecent, h]
  rfl

/-- With an entry in the history `MaxRecent` is its attained maximum (40_unframer.md R118). -/
theorem maxRecent_attained_and_bound {s : State} (h : s.unf.hcnt ≠ 0) :
    (∃ i, i < s.unf.hcnt ∧ histEntry s i = maxRecent s) ∧
      ∀ i, i < s.unf.hcnt → histEntry s i ≤ maxRecent s := by
  have hne : (List.range s.unf.hcnt).map (histEntry s) ≠ [] := by simpa using h
  obtain ⟨hmem, hle⟩ := List.max?_eq_some_iff.1 (max?_eq_foldl_max hne)
  refine ⟨?_, fun i hi => hle _ (List.mem_map_of_mem (List.mem_range.2 hi))⟩
  obtain ⟨i, hi, hmax⟩ := List.mem_map.1 hmem
  exact ⟨i, List.mem_range.1 hi, hmax⟩

/-- Settles O20, with `MaxRecent` as the number answered. -/
theorem maxSizeIsTheMaximumOfTheHistory : Obligations.MaxSizeIsTheMaximumOfTheHistory := by
  unfold Obligations.MaxSizeIsTheMaximumOfTheHistory
  exact ⟨encodedN_of_decodeN .unfMaxsz fun _ => rfl, fun s =>
    ⟨maxRecent s, rfl, maxRecent_of_no_entry, maxRecent_attained_and_bound⟩⟩

/-! One byte, case by case (40_unframer.md R111). -/

theorem exec_unfPush (b : Byte) (s : State) :
    exec (.unfPush b) s = .next (answered (boolData (unfByte b s).2) (unfByte b s).1) := rfl

theorem exec_unfPush_of_eq {b : Byte} {s t : State} {consumed : Bool}
    (h : unfByte b s = (t, consumed)) :
    exec (.unfPush b) s = .next (answered (boolData consumed) t) := by
  rw [exec_unfPush, h]

theorem unfByte_noise {b : Byte} {s : State} (hs : s.unf.sync = false) (hb : b ≠ Wire.stx) :
    unfByte b s = (s, true) := by
  simp [unfByte, unfAction, hs, hb]

theorem unfByte_opening {s : State} (hs : s.unf.sync = false) :
    unfByte Wire.stx s =
      ({ s with unf.sync := true, unf.flen := 0, unf.fdrop := false }, true) := by
  simp [unfByte, unfAction, hs]

/-- The cause of the close that a marker inside a frame makes (40_unframer.md R111). -/
def markerCause (b : Byte) : Cause := if b = Wire.etx then .endMarker else .restart

/-- Inside a frame a marker closes it; a start marker opens the next one (40_unframer.md R114). -/
theorem unfByte_marker {b : Byte} {s : State} (hs : s.unf.sync = true)
    (hb : b = Wire.etx ∨ b = Wire.stx) :
    unfByte b s =
      ({ closeFrame (markerCause b) s with unf.sync := decide (b = Wire.stx) }, true) := by
  rcases hb with rfl | rfl <;> simp [unfByte, unfAction, markerCause, hs]

theorem unfByte_forward {b : Byte} {s : State} (hs : s.unf.sync = true) (hb : notFrameMarker b)
    (hm : s.cfg.mode = .onTheFly) :
    unfByte b s = ((extByte b { emit (.frameBytes [b]) s with
      unf.flen := satInc s.cfg.lenW s.unf.flen }).1, true) := by
  simp [unfByte, unfAction, hs, hb.1, hb.2, hm]

theorem unfAction_cached_of_room {b : Byte} {s : State} (hs : s.unf.sync = true)
    (hb : notFrameMarker b) (hm : s.cfg.mode = .cached) (hroom : s.unf.flen < s.cfg.frameMax) :
    unfAction s.cfg s.unf b = .store s.unf.flen := by
  simp [unfAction, hs, hb.1, hb.2, hm, hroom]

theorem unfAction_cached_of_full {b : Byte} {s : State} (hs : s.unf.sync = true)
    (hb : notFrameMarker b) (hm : s.cfg.mode = .cached) (hfull : s.cfg.frameMax ≤ s.unf.flen) :
    unfAction s.cfg s.unf b = .drop := by
  simp [unfAction, hs, hb.1, hb.2, hm, Nat.not_lt.2 hfull]

theorem unfByte_store {b : Byte} {s : State} {idx : Nat}
    (ha : unfAction s.cfg s.unf b = .store idx) :
    unfByte b s =
      ({ s with unf.fbuf := cellSet s.unf.fbuf idx b, unf.flen := s.unf.flen + 1 }, true) := by
  rw [unfByte, ha]

theorem unfByte_drop {b : Byte} {s : State} (ha : unfAction s.cfg s.unf b = .drop) :
    unfByte b s =
      ({ s with unf.fdrop := true, unf.ovf := satInc s.cfg.cntW s.unf.ovf }, false) := by
  rw [unfByte, ha]

/-- Settles O21, by the case of noise in R111. -/
theorem noiseOutOfSyncChangesNothing : Obligations.NoiseOutOfSyncChangesNothing := by
  unfold Obligations.NoiseOutOfSyncChangesNothing
  exact fun s b hs hb => exec_unfPush_of_eq (unfByte_noise hs hb)

/-- Settles O22, by the case of the opening marker in R111. -/
theorem startMarkerOpensAFrame : Obligations.StartMarkerOpensAFrame := by
  unfold Obligations.StartMarkerOpensAFrame
  exact fun s hs => exec_unfPush_of_eq (unfByte_opening hs)

/-! The events of a frame. -/

theorem closesOf_append (as bs : List Event) :
    closesOf (as ++ bs) = closesOf as ++ closesOf bs := by
  induction as with
  | nil => rfl
  | cons e as ih => cases e <;> simp [closesOf, ih]

theorem payloadOf_append (as bs : List Event) :
    payloadOf (as ++ bs) = payloadOf as ++ payloadOf bs := by
  induction as with
  | nil => rfl
  | cons e as ih => cases e <;> simp [payloadOf, ih]

/-- The extractor emits neither payload nor frame closes. -/
theorem extEvents_no_frame (b : Byte) (s : State) :
    closesOf (extEvents b s) = [] ∧ payloadOf (extEvents b s) = [] := by
  rcases extEvents_cases b s with he | he <;> rw [he] <;> exact ⟨rfl, rfl⟩

theorem feedEvents_no_frame (bs : List Byte) (s : State) :
    closesOf (feedEvents bs s) = [] ∧ payloadOf (feedEvents bs s) = [] := by
  induction bs generalizing s with
  | nil => exact ⟨rfl, rfl⟩
  | cons b bs ih =>
    obtain ⟨hcloses, hpayload⟩ := extEvents_no_frame b s
    obtain ⟨hcloses', hpayload'⟩ := ih (extByte b s).1
    rw [feedEvents, closesOf_append, payloadOf_append, hcloses, hpayload, hcloses', hpayload']
    exact ⟨rfl, rfl⟩

theorem closesOf_payloadEvents (s : State) : closesOf (payloadEvents s) = [] := by
  rw [payloadEvents, closesOf_append, (feedEvents_no_frame _ s).1]
  split <;> rfl

theorem payloadOf_payloadEvents (s : State) : payloadOf (payloadEvents s) = closePayload s := by
  rw [payloadEvents, payloadOf_append, (feedEvents_no_frame _ s).2, List.append_nil]
  split
  · simp [payloadOf, *]
  · exact List.append_nil _

/-! A frame close. -/

theorem exec_unfPush_marker {b : Byte} {s : State} (hs : s.unf.sync = true)
    (hb : b = Wire.etx ∨ b = Wire.stx) :
    exec (.unfPush b) s = .next (answered 1
      { closeFrame (markerCause b) s with unf.sync := decide (b = Wire.stx) }) :=
  exec_unfPush_of_eq (unfByte_marker hs hb)

/-- A marker's events: those of the payload, and the close last (40_unframer.md R113). -/
theorem closeFrame_events (cause : Cause) (s : State) :
    (closeFrame cause s).evPort =
      s.evPort ++ payloadEvents s ++ [.frameComplete cause s.unf.fdrop] := by
  rw [closeFrame_evPort, deliverPayload_evPort]

/-- Settles O23, with the events of the payload before the close. -/
theorem restartReentersWithAnEmptyFrame : Obligations.RestartReentersWithAnEmptyFrame := by
  unfold Obligations.RestartReentersWithAnEmptyFrame
  intro s hs
  exact ⟨_, payloadEvents s, exec_unfPush_marker hs (.inr rfl), rfl,
    closeFrame_events .restart s, closesOf_payloadEvents s, rfl, rfl, rfl⟩

theorem closePayload_onTheFly {s : State} (hm : s.cfg.mode = .onTheFly) :
    closePayload s = [] := by
  rw [closePayload, hm]

theorem deliverPayload_onTheFly {s : State} (hm : s.cfg.mode = .onTheFly) :
    deliverPayload s = s := by
  rw [deliverPayload, if_pos (closePayload_onTheFly hm)]

/-- Settles O24: in `ON_THE_FLY` mode a close has nothing left to deliver. -/
theorem onTheFlyCloseSignalsAndResetsTheExtractor :
    Obligations.OnTheFlyCloseSignalsAndResetsTheExtractor := by
  unfold Obligations.OnTheFlyCloseSignalsAndResetsTheExtractor
  intro s b hm hs hb
  have hpush := exec_unfPush_marker hs hb
  rw [closeFrame, deliverPayload_onTheFly hm] at hpush
  exact ⟨_, hpush, rfl, rfl, rfl, rfl, rfl, rfl, rfl, rfl, rfl⟩

/-- What a byte latches depends on the build, the extractor, the free values and the result. -/
theorem extByte_res_congr (b : Byte) {s t : State} (hc : s.cfg = t.cfg) (hx : s.ext = t.ext)
    (he : s.epoch = t.epoch) (hr : s.res = t.res) :
    (extByte b s).1.res = (extByte b t).1.res := by
  have hspan : srcSpan s .dbuf 0 t.ext.len = srcSpan t .dbuf 0 t.ext.len := by
    simp [srcSpan, srcByte, hx, he]
  unfold extByte
  rw [hc, hx]
  split <;> simp [extDeliver_res, hx, hr, hspan]

theorem feed_ext_res_congr (bs : List Byte) {s t : State} (hc : s.cfg = t.cfg)
    (hx : s.ext = t.ext) (he : s.epoch = t.epoch) (hr : s.res = t.res) :
    (feed bs s).ext = (feed bs t).ext ∧ (feed bs s).res = (feed bs t).res := by
  induction bs generalizing s t with
  | nil => exact ⟨hx, hr⟩
  | cons b bs ih =>
    exact ih (by simpa using hc) (extByte_ext_congr b hc hx) (by simpa using he)
      (extByte_res_congr b hc hx he hr)

/-- A delivery leaves the extractor and the result as feeding the payload does: its `FRAME_BYTES`
event has no effect on them. -/
theorem deliverPayload_ext_res (s : State) :
    (deliverPayload s).ext = (feed (closePayload s) s).ext ∧
      (deliverPayload s).res = (feed (closePayload s) s).res := by
  unfold deliverPayload
  split
  · rename_i hnil
    rw [hnil]
    exact ⟨rfl, rfl⟩
  · exact feed_ext_res_congr _ rfl rfl rfl rfl

theorem fbufSpan_eq_nil_iff {s : State} {n : Nat} : fbufSpan s n = [] ↔ n = 0 := by
  simp [fbufSpan]

theorem closePayload_cached {s : State} (hm : s.cfg.mode = .cached) :
    closePayload s = fbufSpan s s.unf.flen := by
  rw [closePayload, hm]

/-- Two states that differ in the pipeline's units and the ports alone. -/
theorem State.eq_withPipeline {s t : State} (hcfg : t.cfg = s.cfg) (hhin : t.hin = s.hin)
    (href : t.ref = s.ref) (hcmp : t.cmp = s.cmp) (hepoch : t.epoch = s.epoch)
    (hhost : t.host = s.host) :
    t = { s with
      unf := t.unf, ext := t.ext, res := t.res, evPort := t.evPort, resp := t.resp } := by
  rw [← hcfg, ← hhin, ← href, ← hcmp, ← hepoch, ← hhost]

@[simp] theorem closeFrame_ovf (c : Cause) (s : State) :
    (closeFrame c s).unf.ovf = s.unf.ovf := by
  rw [closeFrame_unf, histPush_ovf]

@[simp] theorem closeFrame_fbuf (c : Cause) (s : State) :
    (closeFrame c s).unf.fbuf = s.unf.fbuf := by
  rw [closeFrame_unf, histPush_fbuf]

@[simp] theorem closeFrame_hist (c : Cause) (s : State) :
    (closeFrame c s).unf.hist = cellSet s.unf.hist s.unf.hwr s.unf.flen := by
  rw [closeFrame_unf, histPush_hist]

@[simp] theorem closeFrame_hwr (c : Cause) (s : State) :
    (closeFrame c s).unf.hwr = (s.unf.hwr + 1) % s.cfg.histDepth := by
  rw [closeFrame_unf, histPush_hwr]

@[simp] theorem closeFrame_hcnt (c : Cause) (s : State) :
    (closeFrame c s).unf.hcnt = min (s.unf.hcnt + 1) s.cfg.histDepth := by
  rw [closeFrame_unf, histPush_hcnt]

/-- A frame close writes the pipeline's units and the event port alone (40_unframer.md R113). -/
theorem closeFrame_frame (d : Word) (cause : Cause) (sync : Bool) (s : State) :
    let t := answered d { closeFrame cause s with unf.sync := sync }
    t = { s with unf := t.unf, ext := t.ext, res := t.res, evPort := t.evPort, resp := t.resp } :=
  State.eq_withPipeline (closeFrame_cfg cause s) (closeFrame_hin cause s) (closeFrame_ref cause s)
    (closeFrame_cmp cause s) (closeFrame_epoch cause s) (closeFrame_host cause s)

/-- Settles O25: a close delivers the stored span as its `FRAME_BYTES` event and to the extractor,
which takes it as EXT_PUSH of its bytes does. -/
theorem cachedCloseDeliversThenSignals : Obligations.CachedCloseDeliversThenSignals := by
  unfold Obligations.CachedCloseDeliversThenSignals
  intro s b hm hs hb payload
  have hpayload : closePayload s = payload := closePayload_cached hm
  have hext := closeFrame_ext (markerCause b) s
  have hres := closeFrame_res (markerCause b) s
  have hevents := closeFrame_events (markerCause b) s
  obtain ⟨hdeliverExt, hdeliverRes⟩ := deliverPayload_ext_res s
  rw [hdeliverExt, hpayload] at hext
  rw [hdeliverRes, hpayload] at hres
  simp only [payloadEvents, hpayload, payload, fbufSpan_eq_nil_iff, ← List.append_assoc] at hevents
  obtain ⟨r, hpushes⟩ := execAll_extPush payload s
  exact ⟨_, _, feedEvents payload s, exec_unfPush_marker hs hb, rfl, hpushes,
    feed_evPort payload s, hevents, hres, hext, rfl, rfl, rfl, closeFrame_ovf (markerCause b) s,
    closeFrame_fbuf (markerCause b) s, closeFrame_frame 1 (markerCause b) (decide (b = Wire.stx)) s⟩

/-- A history entry after a frame close (40_unframer.md R113, R116). -/
theorem histEntry_closed {cause : Cause} {s t : State}
    (hunf : t.unf.hist = (closeFrame cause s).unf.hist) (hc : t.cfg = s.cfg)
    (he : t.epoch = s.epoch) (i : Nat) :
    histEntry t i = if i = s.unf.hwr then s.unf.flen else histEntry s i := by
  unfold histEntry
  rw [hunf, closeFrame_hist, hc, he]
  split
  · subst i
    rw [cellGet?_cellSet_same, Option.getD_some]
  · rw [cellGet?_cellSet_other _ _ _ _ ‹_›]

/-- Settles O26: a marker inside a frame pushes the frame's length to the ring. -/
theorem frameCloseRecordsTheSizeInTheRing : Obligations.FrameCloseRecordsTheSizeInTheRing := by
  unfold Obligations.FrameCloseRecordsTheSizeInTheRing
  intro s b hs hb
  have hentry := histEntry_closed (cause := markerCause b)
    (t := answered 1 { closeFrame (markerCause b) s with unf.sync := decide (b = Wire.stx) })
    rfl (closeFrame_cfg (markerCause b) s) (closeFrame_epoch (markerCause b) s)
  exact ⟨_, exec_unfPush_marker hs hb, (hentry s.unf.hwr).trans (if_pos rfl),
    fun i hi => (hentry i).trans (if_neg hi), closeFrame_hwr (markerCause b) s,
    closeFrame_hcnt (markerCause b) s⟩

/-! Payload. -/

/-- Settles O27: a forwarded byte acts on the extractor as EXT_PUSH of it does, since the
`FRAME_BYTES` event and the frame length have no effect there. -/
theorem onTheFlyPayloadIsForwardedToTheExtractor :
    Obligations.OnTheFlyPayloadIsForwardedToTheExtractor := by
  unfold Obligations.OnTheFlyPayloadIsForwardedToTheExtractor
  intro s b hm hs hstx hetx
  have hb : notFrameMarker b := ⟨hstx, hetx⟩
  have hevents := unfByte_evPort b s
  rw [unfEvents_payload_onTheFly b s hs hb hm, unfByte_forward hs hb hm] at hevents
  exact ⟨_, _, extEvents b s, exec_unfPush_of_eq (unfByte_forward hs hb hm), rfl,
    exec_extPush b s, extByte_evPort b s, hevents, extByte_ext_congr b rfl rfl,
    extByte_res_congr b rfl rfl rfl rfl, extByte_unf b _,
    State.eq_withPipeline (extByte_cfg b _) (extByte_hin b _) (extByte_ref b _) (extByte_cmp b _)
      (extByte_epoch b _) (extByte_host b _)⟩

/-- The elements after a store to `FBUF`. -/
theorem elemAt_stored (s : State) (idx n : Nat) (b : Byte) (r : Option Response) (sp : Space)
    (i : Nat) :
    elemAt { s with unf.fbuf := cellSet s.unf.fbuf idx b, unf.flen := n, resp := r } sp i =
      if sp = .fbuf ∧ i = idx then zext32 b.toNat else elemAt s sp i := by
  cases sp with
  | fbuf =>
    simp only [elemAt, memByte_cellSet, true_and]
    split <;> rfl
  | dbuf | hin | hist | cmp => simp [elemAt, histEntry]

/-- Settles O28: with room the byte is stored at the frame length, and without it only the drop is
recorded. -/
theorem cachedPayloadIsStoredOrDropped : Obligations.CachedPayloadIsStoredOrDropped := by
  unfold Obligations.CachedPayloadIsStoredOrDropped
  intro s b hm hs hstx hetx
  have hb : notFrameMarker b := ⟨hstx, hetx⟩
  refine ⟨fun a ha => ?_, unfAction_cached_of_room hs hb hm, fun hfull => ?_⟩
  · have hroom : s.unf.flen < s.cfg.frameMax := by
      by_contra hfull
      simp [unfAction_cached_of_full hs hb hm (Nat.le_of_not_lt hfull)] at ha
    have hidx : s.unf.flen = a := by simpa [unfAction_cached_of_room hs hb hm hroom] using ha
    have helem := elemAt_stored s a (s.unf.flen + 1) b (some { illegal := false, data := 1 })
    exact ⟨_, exec_unfPush_of_eq (unfByte_store ha), hidx.symm, hroom, rfl,
      (helem .fbuf a).trans (if_pos ⟨rfl, rfl⟩),
      fun sp i hne => (helem sp i).trans (if_neg hne), rfl⟩
  · exact exec_unfPush_of_eq (unfByte_drop (unfAction_cached_of_full hs hb hm hfull))

/-- Whether UNF_PUSH consumes its byte (40_unframer.md R110, 92_eei_decisions.md D36). -/
theorem unfByte_consumed (b : Byte) (s : State) :
    (unfByte b s).2 = false ↔ s.unf.sync = true ∧ s.cfg.mode = .cached ∧ b ≠ Wire.stx ∧
      b ≠ Wire.etx ∧ s.cfg.frameMax ≤ s.unf.flen := by
  rcases unfAction_cases s.cfg s.unf b with
    ⟨hs, -, ha⟩ | ⟨hs, -, ha⟩ | ⟨-, hb, ha⟩ | ⟨-, hb, ha⟩ | ⟨-, -, hm, ha⟩ |
    ⟨-, -, -, hroom, ha⟩ | ⟨hs, hb, hm, hfull, ha⟩
    <;> rw [unfByte, ha]
  · simp [hs]
  · simp [hs]
  · simp [hb]
  · simp [hb]
  · simp [hm]
  · simp [Nat.not_le.2 hroom]
  · simp [hs, hm, hb.1, hb.2, hfull]

/-- Settles O30: the answer is whether the byte was consumed. -/
theorem unfPushAnswersZeroOnlyWhenTheFrameBufferIsFull :
    Obligations.UnfPushAnswersZeroOnlyWhenTheFrameBufferIsFull := by
  unfold Obligations.UnfPushAnswersZeroOnlyWhenTheFrameBufferIsFull
  intro s b
  refine ⟨_, exec_unfPush b s, fun hfull => ?_, fun hnot => ?_⟩
  · rw [(unfByte_consumed b s).2 hfull]
    rfl
  · rw [Bool.eq_true_of_not_eq_false (mt (unfByte_consumed b s).1 hnot)]
    rfl

/-! The frame of UNF_PUSH (20_memory.md R60). -/

/-- A byte that neither closes a frame nor is forwarded acts on the unframer alone. -/
theorem unfByte_unf_alone {b : Byte} {s : State} (hclose : ∀ c, unfAction s.cfg s.unf b ≠ .close c)
    (hforward : unfAction s.cfg s.unf b ≠ .forward) :
    (unfByte b s).1.ext = s.ext ∧ (unfByte b s).1.res = s.res ∧
      (unfByte b s).1.evPort = s.evPort := by
  rw [unfByte]
  cases ha : unfAction s.cfg s.unf b with
  | close c => exact absurd ha (hclose c)
  | forward => exact absurd ha hforward
  | discard | openFrame | store _ | drop => exact ⟨rfl, rfl, rfl⟩

theorem unfByte_close {b : Byte} {s : State} {c : Cause} (ha : unfAction s.cfg s.unf b = .close c) :
    (unfByte b s).1 = { closeFrame c s with unf.sync := c == .restart } := by
  rw [unfByte, ha]
  cases c <;> rfl

theorem memByte_fbuf_unfByte {b : Byte} {s : State} {i : Nat}
    (hi : ∀ a, unfAction s.cfg s.unf b = .store a → i ≠ a) (epoch : Nat) (sp : Space) :
    memByte (unfByte b s).1.unf.fbuf epoch sp i = memByte s.unf.fbuf epoch sp i := by
  cases ha : unfAction s.cfg s.unf b with
  | store idx =>
    rw [unfByte_store ha]
    exact (memByte_cellSet _ _ _ _ _ _).trans (if_neg (hi idx ha))
  | close c => simp [unfByte_close ha]
  | discard | openFrame | forward | drop => simp [unfByte, ha]

theorem histEntry_unfByte {b : Byte} {s : State} {i : Nat}
    (hi : ∀ c, unfAction s.cfg s.unf b = .close c → i ≠ s.unf.hwr) :
    histEntry (unfByte b s).1 i = histEntry s i := by
  cases ha : unfAction s.cfg s.unf b with
  | close c =>
    rw [unfByte_close ha]
    exact (histEntry_closed rfl (closeFrame_cfg c s) (closeFrame_epoch c s) i).trans
      (if_neg (hi c ha))
  | discard | openFrame | forward | store _ | drop => simp [unfByte, ha, histEntry]

theorem memByte_dbuf_extByte {b : Byte} {s : State} {i : Nat}
    (hi : ∀ a, extAction s.cfg s.ext b = .store a → i ≠ a) (epoch : Nat) (sp : Space) :
    memByte (extByte b s).1.ext.dbuf epoch sp i = memByte s.ext.dbuf epoch sp i := by
  rw [extByte_dbuf]
  split
  · exact (memByte_cellSet _ _ _ _ _ _).trans (if_neg (hi _ ‹_›))
  · rfl

theorem not_mem_feedStores_cons {b : Byte} {bs : List Byte} {s : State} {i : Nat}
    (h : i ∉ feedStores (b :: bs) s) :
    (∀ a, extAction s.cfg s.ext b = .store a → i ≠ a) ∧ i ∉ feedStores bs (extByte b s).1 := by
  rw [feedStores] at h
  cases ha : extAction s.cfg s.ext b <;> simp_all

theorem memByte_dbuf_feed {bs : List Byte} {s : State} {i : Nat} (hi : i ∉ feedStores bs s)
    (epoch : Nat) (sp : Space) :
    memByte (feed bs s).ext.dbuf epoch sp i = memByte s.ext.dbuf epoch sp i := by
  induction bs generalizing s with
  | nil => rfl
  | cons b bs ih =>
    obtain ⟨hb, hrest⟩ := not_mem_feedStores_cons hi
    exact (ih hrest).trans (memByte_dbuf_extByte hb epoch sp)

theorem memByte_dbuf_deliverPayload {s : State} {i : Nat}
    (hi : i ∉ feedStores (closePayload s) (emit (.frameBytes (closePayload s)) s))
    (epoch : Nat) (sp : Space) :
    memByte (deliverPayload s).ext.dbuf epoch sp i = memByte s.ext.dbuf epoch sp i := by
  unfold deliverPayload
  split
  · rfl
  · exact memByte_dbuf_feed hi epoch sp

theorem memByte_dbuf_unfByte {b : Byte} {s : State} {i : Nat}
    (hforward : unfAction s.cfg s.unf b = .forward →
      ∀ a, extAction s.cfg s.ext b = .store a → i ≠ a)
    (hclose : ∀ c, unfAction s.cfg s.unf b = .close c →
      i ∉ feedStores (closePayload s) (emit (.frameBytes (closePayload s)) s))
    (epoch : Nat) (sp : Space) :
    memByte (unfByte b s).1.ext.dbuf epoch sp i = memByte s.ext.dbuf epoch sp i := by
  cases ha : unfAction s.cfg s.unf b with
  | close c =>
    rw [unfByte_close ha]
    dsimp only
    rw [closeFrame_ext]
    exact memByte_dbuf_deliverPayload (hclose c ha) epoch sp
  | forward =>
    rw [unfByte, ha]
    exact memByte_dbuf_extByte (s := { emit (.frameBytes [b]) s with
      unf.flen := satInc s.cfg.lenW s.unf.flen }) (hforward ha) epoch sp
  | discard | openFrame | store _ | drop => rw [unfByte, ha]

theorem extByte_res_of_not_close {b : Byte} {s : State}
    (h : ∀ r, extAction s.cfg s.ext b ≠ .closeDataset r) : (extByte b s).1.res = s.res := by
  rw [extByte]
  cases ha : extAction s.cfg s.ext b with
  | closeDataset r => exact absurd ha (h r)
  | discard | openDataset | store _ | drop => rfl

theorem unfByte_res {b : Byte} {s : State} (hclose : ∀ c, unfAction s.cfg s.unf b ≠ .close c)
    (hforward : unfAction s.cfg s.unf b = .forward →
      ∀ r, extAction s.cfg s.ext b ≠ .closeDataset r) : (unfByte b s).1.res = s.res := by
  by_cases ha : unfAction s.cfg s.unf b = .forward
  · rw [unfByte, ha]
    exact extByte_res_of_not_close (s := { emit (.frameBytes [b]) s with
      unf.flen := satInc s.cfg.lenW s.unf.flen }) (hforward ha)
  · exact (unfByte_unf_alone hclose ha).2.1

/-- Settles O29: UNF_PUSH writes the pipeline's units and the ports alone, and each buffer only
where its byte, or the span it delivers, is stored. -/
theorem unfPushLeavesTheRestAlone : Obligations.UnfPushLeavesTheRestAlone := by
  unfold Obligations.UnfPushLeavesTheRestAlone
  intro s b
  have hepoch := unfByte_epoch b s
  refine ⟨_, exec_unfPush b s, ?_, fun i hi => ?_, fun i hi => ?_, fun i hforward hclose => ?_,
    fun i => ⟨?_, ?_⟩, unfByte_res, fun hclose hforward => ?_⟩
  · exact State.eq_withPipeline (unfByte_cfg b s) (unfByte_hin b s) (unfByte_ref b s)
      (unfByte_cmp b s) (unfByte_epoch b s) (unfByte_host b s)
  · simp only [elemAt, answered, hepoch, memByte_fbuf_unfByte hi]
  · exact congrArg zext32 (histEntry_unfByte hi)
  · simp only [elemAt, answered, hepoch, memByte_dbuf_unfByte hforward hclose]
  · simp only [elemAt, answered, hepoch, unfByte_hin]
  · simp only [elemAt, answered, hepoch, unfByte_cmp]
  · obtain ⟨hext, -, hport⟩ := unfByte_unf_alone hclose hforward
    exact ⟨hext, hport⟩

end Sys2Proof.Machine
end

section
/-! PROOFS. UNF_PUSH of a byte string: resynchronization (40_unframer.md R119) and recovery
(60_exceptions.md R258; log entry 23). -/

namespace Sys2Proof.Machine

/-! UNF_PUSH of a byte string is `unfFeed`: the responses on the way have no effect on it. -/

/-- Offer a byte string to the unframer, answers ignored. -/
def unfFeed : List Byte → State → State
  | [], s => s
  | b :: bs, s => unfFeed bs (unfByte b s).1

/-- The events the unframer emits for a byte string, byte after byte. -/
def unfFeedEvents : List Byte → State → List Event
  | [], _ => []
  | b :: bs, s => unfEvents b s ++ unfFeedEvents bs (unfByte b s).1

theorem deliverPayload_withResp (r : Option Response) (s : State) :
    deliverPayload { s with resp := r } = { deliverPayload s with resp := r } := by
  have hpayload : closePayload { s with resp := r } = closePayload s := rfl
  rw [deliverPayload, deliverPayload, hpayload]
  split
  · rfl
  · exact feed_withResp _ r (emit (.frameBytes (closePayload s)) s)

theorem closeFrame_withResp (c : Cause) (r : Option Response) (s : State) :
    closeFrame c { s with resp := r } = { closeFrame c s with resp := r } := by
  rw [closeFrame, deliverPayload_withResp]
  rfl

theorem unfByte_withResp (b : Byte) (r : Option Response) (s : State) :
    (unfByte b { s with resp := r }).1 = { (unfByte b s).1 with resp := r } := by
  rw [unfByte, unfByte]
  dsimp only
  cases unfAction s.cfg s.unf b with
  | close c => cases c <;> simp only [closeFrame_withResp]
  | forward =>
    exact extByte_withResp b r { emit (.frameBytes [b]) s with
      unf.flen := satInc s.cfg.lenW s.unf.flen }
  | discard | openFrame | store _ | drop => rfl

theorem unfFeed_withResp (bs : List Byte) (r : Option Response) (s : State) :
    unfFeed bs { s with resp := r } = { unfFeed bs s with resp := r } := by
  induction bs generalizing s with
  | nil => rfl
  | cons b bs ih => rw [unfFeed, unfByte_withResp, ih, unfFeed]

theorem execAll_unfPush (bs : List Byte) (s : State) :
    ∃ r, execAll (bs.map .unfPush) s = .next { unfFeed bs s with resp := r } := by
  induction bs generalizing s with
  | nil => exact ⟨s.resp, rfl⟩
  | cons b bs ih =>
    obtain ⟨r, hr⟩ := ih (answered (boolData (unfByte b s).2) (unfByte b s).1)
    rw [answered, unfFeed_withResp] at hr
    exact ⟨r, (execAll_cons_of_next _ (exec_unfPush b s)).trans hr⟩

theorem unfFeed_append (as bs : List Byte) (s : State) :
    unfFeed (as ++ bs) s = unfFeed bs (unfFeed as s) := by
  induction as generalizing s with
  | nil => rfl
  | cons a as ih => exact ih (unfByte a s).1

theorem unfFeed_evPort (bs : List Byte) (s : State) :
    (unfFeed bs s).evPort = s.evPort ++ unfFeedEvents bs s := by
  induction bs generalizing s with
  | nil => exact (List.append_nil _).symm
  | cons b bs ih => rw [unfFeed, ih, unfByte_evPort, unfFeedEvents, List.append_assoc]

/-! Resynchronization. -/

/-- A start marker leaves an empty frame open, whatever the state (40_unframer.md R111, R114). -/
theorem unfByte_stx_unf (s : State) :
    (unfByte Wire.stx s).1.unf.sync = true ∧ (unfByte Wire.stx s).1.unf.flen = 0 ∧
      (unfByte Wire.stx s).1.unf.fdrop = false := by
  cases hs : s.unf.sync with
  | false =>
    rw [unfByte_opening hs]
    exact ⟨rfl, rfl, rfl⟩
  | true =>
    rw [unfByte_marker hs (.inr rfl)]
    exact ⟨rfl, rfl, rfl⟩

/-- A start marker closes only a frame that was open (40_unframer.md R114). -/
theorem closesOf_unfEvents_stx (s : State) :
    closesOf (unfEvents Wire.stx s) =
      if s.unf.sync then [(.restart, s.unf.fdrop)] else [] := by
  cases hs : s.unf.sync with
  | false =>
    rw [unfEvents_outOfSync Wire.stx s hs]
    rfl
  | true =>
    rw [unfEvents_marker Wire.stx s hs (.inl rfl), closesOf_append, closesOf_payloadEvents]
    rfl

/-- The stored span grows by the byte stored after it. -/
theorem fbufSpan_stored (b : Byte) (s : State) :
    fbufSpan { s with unf.fbuf := cellSet s.unf.fbuf s.unf.flen b, unf.flen := s.unf.flen + 1 }
      (s.unf.flen + 1) = fbufSpan s s.unf.flen ++ [b] := by
  have hold : ∀ i ∈ List.range s.unf.flen,
      memByte (cellSet s.unf.fbuf s.unf.flen b) s.epoch .fbuf i =
        memByte s.unf.fbuf s.epoch .fbuf i := by
    intro i hi
    rw [memByte_cellSet, if_neg (Nat.ne_of_lt (List.mem_range.1 hi))]
  simp only [fbufSpan, List.range_succ, List.map_append, List.map_cons, List.map_nil,
    List.map_congr_left hold, memByte_cellSet, if_pos]

/-- What payload with room for it leaves: the frame stays open with its drop flag as it was, and the
bytes are in the stored span (`CACHED`) or in the events (`ON_THE_FLY`), which hold no close. -/
structure PayloadTaken (bs : List Byte) (es : List Event) (s t : State) : Prop where
  cfg : t.cfg = s.cfg
  sync : t.unf.sync = true
  fdrop : t.unf.fdrop = s.unf.fdrop
  flen : s.cfg.mode = .cached → t.unf.flen = s.unf.flen + bs.length
  payload : payloadOf es ++ closePayload t = closePayload s ++ bs
  closes : closesOf es = []

theorem unfByte_payloadTaken {b : Byte} {s : State} (hs : s.unf.sync = true)
    (hb : notFrameMarker b) (hroom : s.cfg.mode = .cached → s.unf.flen < s.cfg.frameMax) :
    PayloadTaken [b] (unfEvents b s) s (unfByte b s).1 := by
  cases hm : s.cfg.mode with
  | cached =>
    rw [unfEvents_payload_cached b s hs hb hm,
      unfByte_store (unfAction_cached_of_room hs hb hm (hroom hm))]
    refine ⟨rfl, hs, rfl, fun _ => rfl, ?_, rfl⟩
    rw [closePayload_cached hm, closePayload_cached (by exact hm)]
    exact fbufSpan_stored b s
  | onTheFly =>
    have hclosed : closePayload (unfByte b s).1 = [] :=
      closePayload_onTheFly (by rwa [unfByte_cfg])
    obtain ⟨hcloses, hpayload⟩ := extEvents_no_frame b s
    rw [unfEvents_payload_onTheFly b s hs hb hm]
    refine ⟨unfByte_cfg b s, ?_, ?_, fun hc => by simp [hm] at hc, ?_, hcloses⟩
    · simpa [unfByte_forward hs hb hm] using hs
    · simp [unfByte_forward hs hb hm]
    · rw [hclosed, closePayload_onTheFly hm, payloadOf, hpayload]
      rfl

theorem PayloadTaken.append {as bs : List Byte} {es fs : List Event} {s t u : State}
    (h : PayloadTaken as es s t) (h' : PayloadTaken bs fs t u) :
    PayloadTaken (as ++ bs) (es ++ fs) s u where
  cfg := h'.cfg.trans h.cfg
  sync := h'.sync
  fdrop := h'.fdrop.trans h.fdrop
  flen := fun hm => by
    rw [h'.flen (h.cfg ▸ hm), h.flen hm, List.length_append, Nat.add_assoc]
  payload := by
    rw [payloadOf_append, List.append_assoc, h'.payload, ← List.append_assoc, h.payload,
      List.append_assoc]
  closes := by
    rw [closesOf_append, h.closes, h'.closes, List.append_nil]

theorem unfFeed_payloadTaken {bs : List Byte} {s : State} (hs : s.unf.sync = true)
    (hbs : ∀ b ∈ bs, notFrameMarker b)
    (hroom : s.cfg.mode = .cached → s.unf.flen + bs.length ≤ s.cfg.frameMax) :
    PayloadTaken bs (unfFeedEvents bs s) s (unfFeed bs s) := by
  induction bs generalizing s with
  | nil => exact ⟨rfl, hs, rfl, fun _ => rfl, (List.append_nil _).symm, rfl⟩
  | cons b bs ih =>
    obtain ⟨hb, hrest⟩ := List.forall_mem_cons.1 hbs
    rw [List.length_cons] at hroom
    have hfirst := unfByte_payloadTaken hs hb fun hm => by
      have := hroom hm
      omega
    refine hfirst.append (ih hfirst.sync hrest fun hm => ?_)
    rw [hfirst.cfg] at hm ⊢
    rw [hfirst.flen hm, List.length_singleton]
    have := hroom hm
    omega

theorem closePayload_of_empty {s : State} (h : s.unf.flen = 0) : closePayload s = [] := by
  rw [closePayload, h]
  cases s.cfg.mode <;> rfl

/-- Payload with room for it and an end marker, from an open empty frame: the payload is delivered
whole, and the close is the last event (40_unframer.md R111, R113). -/
theorem unfFeed_frame {payload : List Byte} {s : State} (hs : s.unf.sync = true)
    (hflen : s.unf.flen = 0) (hfdrop : s.unf.fdrop = false)
    (hfree : ∀ b ∈ payload, notFrameMarker b)
    (hroom : s.cfg.mode = .cached → payload.length ≤ s.cfg.frameMax) :
    ∃ es, (unfFeed (payload ++ [Wire.etx]) s).evPort =
        s.evPort ++ es ++ [.frameComplete .endMarker false] ∧
      payloadOf es = payload ∧ closesOf es = [] ∧
      (unfFeed (payload ++ [Wire.etx]) s).unf.sync = false := by
  have htaken := unfFeed_payloadTaken hs hfree (by rwa [hflen, Nat.zero_add])
  have hclose := unfEvents_marker Wire.etx _ htaken.sync (.inr rfl)
  rw [htaken.fdrop, hfdrop, if_pos rfl] at hclose
  refine ⟨unfFeedEvents payload s ++ payloadEvents (unfFeed payload s), ?_, ?_, ?_, ?_⟩
  · rw [unfFeed_append, unfFeed, unfFeed, unfByte_evPort, unfFeed_evPort, hclose]
    simp only [List.append_assoc]
  · rw [payloadOf_append, payloadOf_payloadEvents, htaken.payload, closePayload_of_empty hflen,
      List.nil_append]
  · rw [closesOf_append, htaken.closes, closesOf_payloadEvents, List.append_nil]
  · rw [unfFeed_append, unfFeed, unfByte_marker htaken.sync (.inl rfl)]
    rfl

/-- Settles O31: the start marker leaves an empty frame open, whatever the state, and
`unfFeed_frame` is what follows. -/
theorem resynchronizationDeliversTheFrame : Obligations.ResynchronizationDeliversTheFrame := by
  unfold Obligations.ResynchronizationDeliversTheFrame
  intro s payload hfree hlen
  obtain ⟨hsync, hflen, hfdrop⟩ := unfByte_stx_unf s
  obtain ⟨es, hport, hpayload, hcloses, hend⟩ := unfFeed_frame
    (s := answered (boolData (unfByte Wire.stx s).2) (unfByte Wire.stx s).1) hsync hflen hfdrop
    hfree (by rwa [answered, unfByte_cfg])
  obtain ⟨r, hpushes⟩ := execAll_unfPush (payload ++ [Wire.etx])
    (answered (boolData (unfByte Wire.stx s).2) (unfByte Wire.stx s).1)
  exact ⟨_, unfEvents Wire.stx s, _, es, exec_unfPush Wire.stx s, unfByte_evPort Wire.stx s,
    closesOf_unfEvents_stx s, hpushes, hport, hpayload, hcloses, hend⟩

/-! Recovery. -/

/-- What 0x03 and then 0x02 leave of the unframer, whatever the state. -/
theorem unfFeed_etx_stx_unf (s : State) :
    let t := unfFeed [Wire.etx, Wire.stx] s
    t.unf.sync = true ∧ t.unf.flen = 0 ∧ t.unf.fdrop = false :=
  unfByte_stx_unf (unfByte Wire.etx s).1

/-- With the unframer OutOfSync a marker leaves the extractor alone (40_unframer.md R111). -/
theorem unfByte_ext_outOfSync (b : Byte) {s : State} (hs : s.unf.sync = false) :
    (unfByte b s).1.ext = s.ext := by
  by_cases hb : b = Wire.stx
  · subst hb
    rw [unfByte_opening hs]
  · rw [unfByte_noise hs hb]

/-- With a frame open 0x03 closes it, which resets the extractor, and 0x02 opens the next one. -/
theorem unfFeed_etx_stx_ext_of_open {s : State} (hs : s.unf.sync = true) :
    let t := unfFeed [Wire.etx, Wire.stx] s
    t.ext.sync = false ∧ t.ext.len = 0 ∧ t.ext.drop = false := by
  have hclosed := unfByte_marker (b := Wire.etx) hs (.inl rfl)
  have hext : (unfFeed [Wire.etx, Wire.stx] s).ext = (unfByte Wire.etx s).1.ext :=
    unfByte_ext_outOfSync Wire.stx (by rw [hclosed]; rfl)
  dsimp only
  rw [hext, hclosed]
  exact ⟨rfl, rfl, rfl⟩

/-- With the unframer OutOfSync the two bytes leave the extractor alone (log entry 23). -/
theorem unfFeed_etx_stx_ext_of_outOfSync {s : State} (hs : s.unf.sync = false) :
    (unfFeed [Wire.etx, Wire.stx] s).ext = s.ext := by
  rw [unfFeed, unfByte_noise hs etx_ne_stx]
  exact unfByte_ext_outOfSync Wire.stx hs

theorem unfFeed_etx_stx_ext_sync {s : State} (h : s.unf.sync = true ∨ s.ext.sync = false) :
    (unfFeed [Wire.etx, Wire.stx] s).ext.sync = false := by
  cases hs : s.unf.sync with
  | true => exact (unfFeed_etx_stx_ext_of_open hs).1
  | false =>
    rw [unfFeed_etx_stx_ext_of_outOfSync hs]
    exact h.resolve_left (by simp [hs])

/-- EXT_PUSH of a start marker opens an empty dataset in an OutOfSync extractor (41_extractor.md
R141). -/
theorem exec_extPush_opening {s : State} (hs : s.ext.sync = false) :
    exec (.extPush 0x0A) s =
      .next (answered 1 { s with ext.sync := true, ext.len := 0, ext.drop := false }) := by
  have hopen : extByte Wire.lf s =
      ({ s with ext.sync := true, ext.len := 0, ext.drop := false }, true) := by
    simp [extByte, extAction, hs]
  exact (exec_extPush Wire.lf s).trans (by rw [hopen]; rfl)

/-- A byte offered to the unframer keeps that a frame is open or the extractor OutOfSync. -/
theorem unfByte_open_or_idle (b : Byte) {s : State} (h : s.unf.sync = true ∨ s.ext.sync = false) :
    (unfByte b s).1.unf.sync = true ∨ (unfByte b s).1.ext.sync = false := by
  rcases unfAction_cases s.cfg s.unf b with
    ⟨-, -, ha⟩ | ⟨-, -, ha⟩ | ⟨-, -, ha⟩ | ⟨-, -, ha⟩ | ⟨hs, -, -, ha⟩ | ⟨-, -, -, -, ha⟩ |
    ⟨-, -, -, -, ha⟩
    <;> rw [unfByte, ha]
  · exact h
  · exact .inl rfl
  · exact .inr rfl
  · exact .inl rfl
  · left
    simpa using hs
  · exact h
  · exact h

/-- No command but EXT_PUSH opens a dataset outside a frame. -/
theorem exec_open_or_idle {i : Instr} {s t : State} (hext : ∀ b, i ≠ .extPush b)
    (h : s.unf.sync = true ∨ s.ext.sync = false) (ht : exec i s = .next t) :
    t.unf.sync = true ∨ t.ext.sync = false := by
  by_cases hunf : ∃ b, i = .unfPush b
  · obtain ⟨b, rfl⟩ := hunf
    cases ht
    exact unfByte_open_or_idle b h
  · rcases exec_pipeline_cases (fun b hb => hunf ⟨b, hb⟩) hext ht with ⟨hu, hx, -⟩ | ⟨hidle, -⟩
    · rwa [hu, hx]
    · exact .inr hidle

/-- Settles O33: 0x03 closes an open frame, so sent a second time it closes the one that the first
0x02 opened. -/
theorem recoveryWhenAFrameIsOpenOrTheExtractorIdle :
    Obligations.RecoveryWhenAFrameIsOpenOrTheExtractorIdle := by
  unfold Obligations.RecoveryWhenAFrameIsOpenOrTheExtractorIdle
  refine ⟨fun s => ?_, fun i s t => exec_open_or_idle, fun s => ?_⟩
  · obtain ⟨r, hpushes⟩ := execAll_unfPush [Wire.etx, Wire.stx] s
    obtain ⟨hsync, hflen, hfdrop⟩ := unfFeed_etx_stx_unf s
    refine ⟨_, hpushes, hsync, hflen, hfdrop, fun h => ?_, fun hs =>
      (unfFeed_etx_stx_ext_of_open hs).2⟩
    exact ⟨unfFeed_etx_stx_ext_sync h, exec_extPush_opening (unfFeed_etx_stx_ext_sync h)⟩
  · obtain ⟨r, hpushes⟩ := execAll_unfPush [Wire.etx, Wire.stx, Wire.etx, Wire.stx] s
    obtain ⟨hopen, -, -⟩ := unfFeed_etx_stx_unf s
    obtain ⟨hsync, hflen, hfdrop⟩ := unfFeed_etx_stx_unf (unfFeed [Wire.etx, Wire.stx] s)
    obtain ⟨hidle, hlen, hdrop⟩ := unfFeed_etx_stx_ext_of_open hopen
    exact ⟨_, hpushes, hsync, hflen, hfdrop, hidle, hlen, hdrop, exec_extPush_opening hidle⟩

/-- EXT_PUSH 0x0a from reset: the unframer OutOfSync with the extractor InSync (log entry 23). -/
def strandedState : State :=
  answered 1 { State.reset with ext.sync := true }

theorem exec_extPush_reset :
    exec (.extPush 0x0A) State.reset = .next strandedState := rfl

/-- Refutes O32: after EXT_PUSH 0x0a from reset no frame is open, so 0x03 is noise and 0x02 opens a
frame, and the extractor stays InSync. -/
theorem not_recoveryFromEveryStateAsWritten : ¬ Obligations.RecoveryFromEveryStateAsWritten := by
  unfold Obligations.RecoveryFromEveryStateAsWritten
  intro h
  obtain ⟨t, u, ht, -, -, hidle, -, -⟩ := h strandedState
  obtain ⟨r, hpushes⟩ := execAll_unfPush [Wire.etx, Wire.stx] strandedState
  cases ht.symm.trans hpushes
  rw [unfFeed_etx_stx_ext_of_outOfSync rfl] at hidle
  exact absurd hidle (by decide)

end Sys2Proof.Machine
end

section
/-! PROOFS. EXT_PUSH (41_extractor.md R140 to R144): one equation for each case of R141, and what
each case leaves behind. -/

namespace Sys2Proof.Machine

/-! One byte, case by case (41_extractor.md R141). -/

theorem exec_extPush_of_eq {b : Byte} {s t : State} {consumed : Bool}
    (h : extByte b s = (t, consumed)) :
    exec (.extPush b) s = .next (answered (boolData consumed) t) := by
  rw [exec_extPush, h]
  rfl

theorem extByte_noise {b : Byte} {s : State} (hs : s.ext.sync = false) (hb : b ≠ Wire.lf) :
    extByte b s = (s, true) := by
  simp [extByte, extAction, hs, hb]

theorem extByte_opening {s : State} (hs : s.ext.sync = false) :
    extByte Wire.lf s =
      ({ s with ext.sync := true, ext.len := 0, ext.drop := false }, true) := by
  simp [extByte, extAction, hs]

/-- A delivery as one update (41_extractor.md R143). -/
theorem extDeliver_eq (s : State) :
    extDeliver s = { s with
      ext.len := 0
      ext.drop := false
      res := decodeDataset .dbuf (srcSpan s .dbuf 0 s.ext.len)
      evPort := s.evPort ++ deliveryEvents s } := by
  rw [deliveryEvents, ← extDeliver_evPort]
  rfl

/-- Inside a dataset an end marker delivers it; only LF under REOPEN opens the next one
(41_extractor.md R141, R142). -/
theorem extByte_endMarker {b : Byte} {s : State} (hs : s.ext.sync = true)
    (hb : b = Wire.cr ∨ (b = Wire.lf ∧ s.cfg.lfPolicy ≠ .data)) :
    extByte b s = ({ s with
      ext.sync := decide (b = Wire.lf) && decide (s.cfg.lfPolicy = .reopen)
      ext.len := 0
      ext.drop := false
      res := decodeDataset .dbuf (srcSpan s .dbuf 0 s.ext.len)
      evPort := s.evPort ++ deliveryEvents s }, true) := by
  have haction : extAction s.cfg s.ext b =
      .closeDataset (decide (b = Wire.lf) && decide (s.cfg.lfPolicy = .reopen)) := by
    rcases hb with rfl | ⟨rfl, hp⟩
    · simp [extAction, hs]
    · simp [extAction, hs, hp, beq_eq_decide]
  rw [extByte, haction]
  dsimp only
  rw [extDeliver_eq]

/-- Inside a dataset a data byte is stored or dropped (41_extractor.md R141). -/
theorem extAction_datasetByte {b : Byte} {c : Config} {x : Ext} (hs : x.sync = true)
    (hb : datasetByte c b) :
    extAction c x b = if x.len < c.dsMax then .store x.len else .drop := by
  have hend : ¬ (b = Wire.lf ∧ c.lfPolicy ≠ .data) := fun ⟨hlf, hp⟩ => hp (hb.2 hlf)
  rw [extAction, if_pos hs, if_neg hb.1, if_neg hend]

theorem extByte_store {b : Byte} {s : State} (hs : s.ext.sync = true) (hb : datasetByte s.cfg b)
    (hroom : s.ext.len < s.cfg.dsMax) :
    extByte b s = ({ s with
      ext.dbuf := cellSet s.ext.dbuf s.ext.len b, ext.len := s.ext.len + 1 }, true) := by
  rw [extByte, extAction_datasetByte hs hb, if_pos hroom]

theorem extByte_drop {b : Byte} {s : State} (hs : s.ext.sync = true) (hb : datasetByte s.cfg b)
    (hfull : s.cfg.dsMax ≤ s.ext.len) :
    extByte b s =
      ({ s with ext.drop := true, ext.ovf := satInc s.cfg.cntW s.ext.ovf }, false) := by
  rw [extByte, extAction_datasetByte hs hb, if_neg (Nat.not_lt.2 hfull)]

/-- Settles O34: noise, the opening marker, and a data byte with and without room. -/
theorem extPushByCases : Obligations.ExtPushByCases := by
  unfold Obligations.ExtPushByCases
  refine fun s b => ⟨fun hs hb => exec_extPush_of_eq (extByte_noise hs hb), ?_,
    fun hs hcr hlf => ⟨fun hroom => ?_, fun hfull => ?_⟩⟩
  · rintro hs rfl
    exact exec_extPush_opening hs
  · refine ⟨_, exec_extPush_of_eq (extByte_store hs ⟨hcr, hlf⟩ hroom), rfl, ?_, rfl⟩
    have hread := memByte_cellSet s.ext.dbuf s.epoch .dbuf s.ext.len s.ext.len b
    rw [if_pos rfl] at hread
    exact congrArg (fun v : Byte => zext32 v.toNat) hread
  · exact exec_extPush_of_eq (extByte_drop hs ⟨hcr, hlf⟩ hfull)

/-- The record that follows a dataset, field by field. -/
theorem recordEvent_dbuf (d : List Byte) :
    let r := decodeDataset .dbuf d
    recordEvent d r = .record .dbuf r.status ((d.drop r.labelOff).take r.labelLen)
      ((d.drop r.valueOff).take r.valueLen) r.horoPresent r.horo := by
  dsimp only
  rw [recordEvent, decodeDataset_src]
  rfl

/-- Settles O35, by the case of an end marker in R141. -/
theorem endMarkerDeliversTheDataset : Obligations.EndMarkerDeliversTheDataset := by
  unfold Obligations.EndMarkerDeliversTheDataset
  intro s b hs hb d r
  have hpush := exec_extPush_of_eq (extByte_endMarker hs hb)
  rw [deliveryEvents, recordEvent_dbuf] at hpush
  exact hpush

/-! The frame of EXT_PUSH (20_memory.md R60). -/

/-- A byte offered to the extractor writes it, the result and the event port alone. -/
theorem extByte_frame (b : Byte) (s : State) :
    let t := (extByte b s).1
    t = { s with ext := t.ext, res := t.res, evPort := t.evPort } := by
  rw [extByte]
  cases extAction s.cfg s.ext b <;> rfl

/-- A byte that delivers no dataset emits nothing. -/
theorem extByte_evPort_of_not_close {b : Byte} {s : State}
    (h : ∀ r, extAction s.cfg s.ext b ≠ .closeDataset r) :
    (extByte b s).1.evPort = s.evPort := by
  rw [extByte]
  cases ha : extAction s.cfg s.ext b with
  | closeDataset r => exact absurd ha (h r)
  | discard | openDataset | store _ | drop => rfl

/-- The response port is no element of a space. -/
theorem elemAt_withResp (r : Option Response) (s : State) (sp : Space) (i : Nat) :
    elemAt { s with resp := r } sp i = elemAt s sp i := by
  cases sp <;> rfl

/-- A byte offered to the extractor changes no element but the one it is stored to. -/
theorem elemAt_extByte {b : Byte} {s : State} {sp : Space} {i : Nat}
    (h : ∀ a, extAction s.cfg s.ext b = .store a → ¬ (sp = .dbuf ∧ i = a)) :
    elemAt (extByte b s).1 sp i = elemAt s sp i := by
  cases sp with
  | dbuf =>
    have hread := memByte_dbuf_extByte (fun a ha hi => h a ha ⟨rfl, hi⟩) s.epoch .dbuf
    simp only [elemAt, extByte_epoch, hread]
  | fbuf | hin | hist | cmp => simp [elemAt, histEntry]

/-- Settles O36: the answer aside, EXT_PUSH does what the byte does to the extractor. -/
theorem extPushLeavesTheRestAlone : Obligations.ExtPushLeavesTheRestAlone := by
  unfold Obligations.ExtPushLeavesTheRestAlone
  intro s b
  refine ⟨_, exec_extPush b s, ?_, fun sp i h => ?_, fun h => ?_⟩
  · exact congrArg (answered (boolData (extByte b s).2)) (extByte_frame b s)
  · exact (elemAt_withResp _ _ sp i).trans (elemAt_extByte h)
  · exact ⟨extByte_res_of_not_close h, extByte_evPort_of_not_close h⟩

/-! The clears and EXT_RESET. -/

/-- Settles O37: format N words, and meanings that write their own fields alone. -/
theorem clearsAndExtResetWriteOnlyTheirFields :
    Obligations.ClearsAndExtResetWriteOnlyTheirFields := by
  unfold Obligations.ClearsAndExtResetWriteOnlyTheirFields
  exact ⟨encodedN_of_decodeN .extReset fun _ => rfl, encodedN_of_decodeN .decClear fun _ => rfl,
    encodedN_of_decodeN .cmpClear fun _ => rfl, fun _ => ⟨rfl, rfl, rfl⟩⟩

end Sys2Proof.Machine
end

section
/-! PROOFS. EXT_PUSH of a dataset (41_extractor.md R148, R150, 42_decoder.md R200): its data bytes
are stored up to DS_MAX and dropped from there on, and the end marker delivers what was stored. -/

namespace Sys2Proof.Machine

/-! The answers of EXT_PUSH of a byte string. -/

/-- Whether each byte of a string is consumed, in order (41_extractor.md R141). -/
def feedConsumed : List Byte → State → List Bool
  | [], _ => []
  | b :: bs, s => (extByte b s).2 :: feedConsumed bs (extByte b s).1

theorem feedConsumed_withResp (bs : List Byte) (r : Option Response) (s : State) :
    feedConsumed bs { s with resp := r } = feedConsumed bs s := by
  induction bs generalizing s with
  | nil => rfl
  | cons b bs ih =>
    have hfirst : (extByte b { s with resp := r }).2 = (extByte b s).2 := by
      unfold extByte
      dsimp only
      split <;> rfl
    rw [feedConsumed, hfirst, extByte_withResp, ih, feedConsumed]

theorem feedConsumed_append (as bs : List Byte) (s : State) :
    feedConsumed (as ++ bs) s = feedConsumed as s ++ feedConsumed bs (feed as s) := by
  induction as generalizing s with
  | nil => rfl
  | cons a as ih => exact congrArg ((extByte a s).2 :: ·) (ih (extByte a s).1)

theorem answersAll_extPush (bs : List Byte) (s : State) :
    answersAll (bs.map .extPush) s =
      (feedConsumed bs s).map fun c => some { illegal := false, data := boolData c } := by
  induction bs generalizing s with
  | nil => rfl
  | cons b bs ih =>
    rw [List.map_cons, answersAll, exec_extPush]
    dsimp only
    rw [ih, feedConsumed_withResp]
    rfl

/-! Data bytes inside a dataset. -/

/-- A space with a byte string stored from index `n` on. -/
def storedFrom (m : Memory) (n : Nat) : List Byte → Memory
  | [] => m
  | b :: bs => storedFrom (cellSet m n b) (n + 1) bs

/-- Storing a string after the first `n` bytes of a space appends it to them. -/
theorem map_memByte_storedFrom (m : Memory) (n : Nat) (bs : List Byte) (epoch : Nat)
    (sp : Space) :
    (List.range (n + bs.length)).map (memByte (storedFrom m n bs) epoch sp) =
      (List.range n).map (memByte m epoch sp) ++ bs := by
  induction bs generalizing m n with
  | nil => exact (List.append_nil _).symm
  | cons b bs ih =>
    have hold : ∀ i ∈ List.range n, memByte (cellSet m n b) epoch sp i = memByte m epoch sp i := by
      intro i hi
      rw [memByte_cellSet, if_neg (Nat.ne_of_lt (List.mem_range.1 hi))]
    have hstep : (List.range (n + 1)).map (memByte (cellSet m n b) epoch sp) =
        (List.range n).map (memByte m epoch sp) ++ [b] := by
      rw [List.range_succ, List.map_append, List.map_congr_left hold, List.map_singleton,
        memByte_cellSet, if_pos rfl]
    rw [List.length_cons, storedFrom, ← Nat.add_assoc, Nat.add_right_comm, ih, hstep,
      List.append_assoc]
    rfl

/-- Data bytes that fit are all stored and consumed (41_extractor.md R141). -/
theorem feed_fitting {bs : List Byte} {s : State} (hs : s.ext.sync = true)
    (hbs : ∀ b ∈ bs, datasetByte s.cfg b) (hfit : s.ext.len + bs.length ≤ s.cfg.dsMax) :
    feed bs s = { s with
      ext.dbuf := storedFrom s.ext.dbuf s.ext.len bs, ext.len := s.ext.len + bs.length } ∧
    feedConsumed bs s = List.replicate bs.length true := by
  induction bs generalizing s with
  | nil => exact ⟨rfl, rfl⟩
  | cons b bs ih =>
    obtain ⟨hb, hrest⟩ := List.forall_mem_cons.1 hbs
    rw [List.length_cons] at hfit ⊢
    obtain ⟨hfeed, hconsumed⟩ := ih (s := { s with
        ext.dbuf := cellSet s.ext.dbuf s.ext.len b, ext.len := s.ext.len + 1 })
      hs hrest (by dsimp only; omega)
    have hlen : s.ext.len + 1 + bs.length = s.ext.len + (bs.length + 1) := by omega
    rw [feed, feedConsumed, extByte_store hs hb (by omega), hfeed, hconsumed, hlen]
    exact ⟨rfl, rfl⟩

/-- Data bytes at a full dataset buffer are all dropped and counted (41_extractor.md R141). -/
theorem feed_overflowing {bs : List Byte} {s : State} (hs : s.ext.sync = true)
    (hbs : ∀ b ∈ bs, datasetByte s.cfg b) (hfull : s.cfg.dsMax ≤ s.ext.len) :
    feed bs s = { s with
      ext.drop := s.ext.drop || !bs.isEmpty
      ext.ovf := (satInc s.cfg.cntW)^[bs.length] s.ext.ovf } ∧
    feedConsumed bs s = List.replicate bs.length false := by
  induction bs generalizing s with
  | nil => simp [feed, feedConsumed]
  | cons b bs ih =>
    obtain ⟨hb, hrest⟩ := List.forall_mem_cons.1 hbs
    obtain ⟨hfeed, hconsumed⟩ := ih (s := { s with
        ext.drop := true, ext.ovf := satInc s.cfg.cntW s.ext.ovf }) hs hrest hfull
    rw [feed, feedConsumed, extByte_drop hs hb hfull, hfeed, hconsumed]
    simp [List.replicate_succ]

/-- Counting `k` events on a counter of `n` bits (00_scope.md R9). -/
theorem iterate_satInc {n v : Nat} (h : v < 2 ^ n) (k : Nat) :
    (satInc n)^[k] v = min (v + k) (2 ^ n - 1) := by
  induction k with
  | zero =>
    rw [Function.iterate_zero_apply]
    omega
  | succ k ih =>
    rw [Function.iterate_succ_apply', ih, satInc]
    split <;> omega

/-! A dataset between its markers. -/

/-- LF and data bytes that fit, from OutOfSync: the data stand at the start of `DBUF`. -/
theorem feed_opened_fitting {data : List Byte} {s : State} (hs : s.ext.sync = false)
    (hdata : ∀ b ∈ data, datasetByte s.cfg b) (hfit : data.length ≤ s.cfg.dsMax) :
    feed (Wire.lf :: data) s = { s with
      ext.sync := true
      ext.len := data.length
      ext.drop := false
      ext.dbuf := storedFrom s.ext.dbuf 0 data } ∧
    feedConsumed (Wire.lf :: data) s = List.replicate (data.length + 1) true := by
  obtain ⟨hfeed, hconsumed⟩ := feed_fitting (bs := data)
    (s := { s with ext.sync := true, ext.len := 0, ext.drop := false }) rfl hdata
    (by rwa [Nat.zero_add])
  rw [feed, feedConsumed, extByte_opening hs, hfeed, hconsumed, Nat.zero_add]
  exact ⟨rfl, rfl⟩

/-- The span of a string stored at the start of `DBUF` is the string. -/
theorem srcSpan_dbuf_of_stored {s : State} {m : Memory} {data : List Byte}
    (h : s.ext.dbuf = storedFrom m 0 data) : srcSpan s .dbuf 0 data.length = data := by
  have hspan := map_memByte_storedFrom m 0 data s.epoch .dbuf
  rw [Nat.zero_add, List.range_eq_range'] at hspan
  unfold srcSpan srcByte
  rw [h]
  exact hspan

/-- CR delivers the stored span and leaves the extractor OutOfSync (41_extractor.md R141, R143). -/
theorem extByte_cr {s : State} {d : List Byte} (hs : s.ext.sync = true)
    (hspan : srcSpan s .dbuf 0 s.ext.len = d) :
    extByte Wire.cr s = ({ s with
      ext.sync := false
      ext.len := 0
      ext.drop := false
      res := decodeDataset .dbuf d
      evPort := s.evPort ++
        [.dataset d s.ext.drop, recordEvent d (decodeDataset .dbuf d)] }, true) := by
  subst hspan
  exact extByte_endMarker hs (.inl rfl)

/-- A dataset that fits, between its markers: it is delivered whole (42_decoder.md R200). -/
theorem feed_fitting_dataset {data : List Byte} {s : State} (hs : s.ext.sync = false)
    (hdata : ∀ b ∈ data, datasetByte s.cfg b) (hfit : data.length ≤ s.cfg.dsMax) :
    feed (Wire.lf :: data ++ [Wire.cr]) s = { s with
      ext.sync := false
      ext.len := 0
      ext.drop := false
      ext.dbuf := storedFrom s.ext.dbuf 0 data
      res := decodeDataset .dbuf data
      evPort := s.evPort ++
        [.dataset data false, recordEvent data (decodeDataset .dbuf data)] } := by
  rw [feed_append, (feed_opened_fitting hs hdata hfit).1, feed, feed, extByte_cr rfl]
  exact srcSpan_dbuf_of_stored rfl

/-- Settles O40: a dataset that fits is delivered and decoded whole. -/
theorem extractedDatasetIsDecodedWhole : Obligations.ExtractedDatasetIsDecodedWhole := by
  unfold Obligations.ExtractedDatasetIsDecodedWhole
  intro s data hs hdata hfit
  obtain ⟨r, hpushes⟩ := execAll_extPush (Wire.lf :: data ++ [Wire.cr]) s
  rw [feed_fitting_dataset hs hdata hfit] at hpushes
  exact ⟨_, hpushes, rfl, rfl, rfl, rfl⟩

/-- LF and data bytes of which the first DS_MAX fit, from OutOfSync. -/
theorem feed_opened_overflowing {kept lost : List Byte} {s : State} (hs : s.ext.sync = false)
    (hdata : ∀ b ∈ kept ++ lost, datasetByte s.cfg b) (hkept : kept.length = s.cfg.dsMax)
    (hlost : lost ≠ []) :
    feed (Wire.lf :: (kept ++ lost)) s = { s with
      ext.sync := true
      ext.len := kept.length
      ext.drop := true
      ext.ovf := (satInc s.cfg.cntW)^[lost.length] s.ext.ovf
      ext.dbuf := storedFrom s.ext.dbuf 0 kept } ∧
    feedConsumed (Wire.lf :: (kept ++ lost)) s =
      List.replicate (kept.length + 1) true ++ List.replicate lost.length false := by
  obtain ⟨hdataKept, hdataLost⟩ := List.forall_mem_append.1 hdata
  obtain ⟨hfeed, hconsumed⟩ := feed_opened_fitting hs hdataKept hkept.le
  obtain ⟨hfeed', hconsumed'⟩ := feed_overflowing (bs := lost) (s := { s with
      ext.sync := true
      ext.len := kept.length
      ext.drop := false
      ext.dbuf := storedFrom s.ext.dbuf 0 kept }) rfl hdataLost hkept.ge
  rw [List.isEmpty_eq_false_iff.2 hlost] at hfeed'
  rw [← List.cons_append, feed_append, feedConsumed_append, hfeed, hconsumed, hfeed', hconsumed']
  exact ⟨rfl, rfl⟩

/-- An oversized dataset between its markers: its first DS_MAX bytes are delivered with the drop
flag, and the rest is dropped and counted (41_extractor.md R150). -/
theorem feed_oversized_dataset {kept lost : List Byte} {s : State} (hs : s.ext.sync = false)
    (hdata : ∀ b ∈ kept ++ lost, datasetByte s.cfg b) (hkept : kept.length = s.cfg.dsMax)
    (hlost : lost ≠ []) :
    feed (Wire.lf :: (kept ++ lost) ++ [Wire.cr]) s = { s with
      ext.sync := false
      ext.len := 0
      ext.drop := false
      ext.ovf := (satInc s.cfg.cntW)^[lost.length] s.ext.ovf
      ext.dbuf := storedFrom s.ext.dbuf 0 kept
      res := decodeDataset .dbuf kept
      evPort := s.evPort ++ [.dataset kept true, recordEvent kept (decodeDataset .dbuf kept)] } ∧
    feedConsumed (Wire.lf :: (kept ++ lost) ++ [Wire.cr]) s =
      List.replicate (kept.length + 1) true ++ List.replicate lost.length false ++ [true] := by
  obtain ⟨hfeed, hconsumed⟩ := feed_opened_overflowing hs hdata hkept hlost
  rw [feed_append, feedConsumed_append, hfeed, hconsumed, feed, feed, feedConsumed, feedConsumed,
    extByte_cr rfl (srcSpan_dbuf_of_stored rfl)]
  exact ⟨rfl, rfl⟩

/-- Settles O39: the bytes kept are the first DS_MAX, and the counter is the saturating sum. -/
theorem oversizedDatasetIsTruncatedAndCounted :
    Obligations.OversizedDatasetIsTruncatedAndCounted := by
  unfold Obligations.OversizedDatasetIsTruncatedAndCounted
  intro s data hs hovf hdata hover program
  have hkept : (data.take s.cfg.dsMax).length = s.cfg.dsMax :=
    List.length_take_of_le (Nat.le_of_lt hover)
  have hlost : data.drop s.cfg.dsMax ≠ [] := by simpa using hover
  obtain ⟨hfeed, hconsumed⟩ := feed_oversized_dataset hs
    (by rwa [List.take_append_drop]) hkept hlost
  rw [List.take_append_drop, List.length_drop, iterate_satInc hovf] at hfeed
  rw [List.take_append_drop, List.length_drop, hkept] at hconsumed
  obtain ⟨r, hpushes⟩ := execAll_extPush (Wire.lf :: data ++ [Wire.cr]) s
  have hanswers := answersAll_extPush (Wire.lf :: data ++ [Wire.cr]) s
  rw [hfeed] at hpushes
  rw [hconsumed] at hanswers
  refine ⟨_, _, hpushes, rfl, rfl, hanswers.trans ?_, rfl, rfl, rfl, rfl⟩
  simp only [List.map_append, List.map_replicate]
  rfl

/-! The frame-boundary reset (41_extractor.md R146, R148). -/

theorem datasetsOf_payloadEvents (s : State) :
    datasetsOf (payloadEvents s) = datasetsOf (feedEvents (closePayload s) s) := by
  rw [payloadEvents, datasetsOf_append]
  split <;> rfl

/-- An OutOfSync extractor emits nothing for a first byte, whatever it is. -/
theorem feedEvents_of_length_le_one {bs : List Byte} {s : State} (hs : s.ext.sync = false)
    (hlen : bs.length ≤ 1) : feedEvents bs s = [] := by
  match bs, hlen with
  | [], _ => rfl
  | [b], _ => rw [feedEvents, feedEvents, extEvents_outOfSync hs, List.append_nil]

theorem length_closePayload_le (s : State) : (closePayload s).length ≤ s.unf.flen := by
  rw [closePayload]
  cases s.cfg.mode <;> simp [fbufSpan]

/-- The first byte of an empty frame, before an OutOfSync extractor: no dataset is delivered, and
the close has nothing left that would deliver one. -/
theorem unfByte_first {b : Byte} {s : State} (hs : s.unf.sync = true) (hb : notFrameMarker b)
    (hx : s.ext.sync = false) (hempty : s.cfg.mode = .cached → s.unf.flen = 0) :
    let t := (unfByte b s).1
    t.unf.sync = true ∧ datasetsOf (unfEvents b s) = [] ∧ feedEvents (closePayload t) t = [] := by
  cases hm : s.cfg.mode with
  | onTheFly =>
    refine ⟨?_, ?_, ?_⟩
    · simpa [unfByte_forward hs hb hm] using hs
    · rw [unfEvents_payload_onTheFly b s hs hb hm, extEvents_outOfSync hx]
      rfl
    · rw [closePayload_onTheFly (by rwa [unfByte_cfg])]
      rfl
  | cached =>
    rw [unfEvents_payload_cached b s hs hb hm]
    by_cases hroom : s.unf.flen < s.cfg.frameMax
    · rw [unfByte_store (unfAction_cached_of_room hs hb hm hroom)]
      exact ⟨hs, rfl, feedEvents_of_length_le_one hx
        ((length_closePayload_le _).trans (Nat.succ_le_succ (hempty hm).le))⟩
    · rw [unfByte_drop (unfAction_cached_of_full hs hb hm (Nat.le_of_not_lt hroom))]
      exact ⟨hs, rfl, feedEvents_of_length_le_one hx
        ((length_closePayload_le _).trans (Nat.le_succ_of_le (hempty hm).le))⟩

/-- A frame of one byte delivers no dataset of an OutOfSync extractor, and leaves both units
OutOfSync. -/
theorem unfFeed_one_byte_frame {b : Byte} {s : State} (hs : s.unf.sync = true)
    (hb : notFrameMarker b) (hx : s.ext.sync = false)
    (hempty : s.cfg.mode = .cached → s.unf.flen = 0) :
    let t := unfFeed [b, Wire.etx] s
    datasetsOf (unfFeedEvents [b, Wire.etx] s) = [] ∧ t.unf.sync = false ∧ t.ext.sync = false := by
  obtain ⟨hopen, hfirst, hclose⟩ := unfByte_first hs hb hx hempty
  refine ⟨?_, ?_⟩
  · rw [unfFeedEvents, unfFeedEvents, unfFeedEvents, datasetsOf_append, hfirst,
      unfEvents_marker Wire.etx _ hopen (.inr rfl), List.append_nil, datasetsOf_append,
      datasetsOf_payloadEvents, hclose]
    rfl
  · rw [unfFeed, unfFeed, unfFeed, unfByte_marker hopen (.inl rfl)]
    exact ⟨rfl, rfl⟩

theorem unfFeedEvents_append (as bs : List Byte) (s : State) :
    unfFeedEvents (as ++ bs) s = unfFeedEvents as s ++ unfFeedEvents bs (unfFeed as s) := by
  induction as generalizing s with
  | nil => rfl
  | cons a as ih =>
    rw [List.cons_append, unfFeedEvents, ih, ← List.append_assoc]
    rfl

/-- A trailing LF of one frame and a leading CR of the next deliver no dataset (41_extractor.md
R148). -/
theorem datasetsOf_unfFeedEvents_boundary {s : State} (hs : s.unf.sync = true)
    (hx : s.ext.sync = false) (hempty : s.cfg.mode = .cached → s.unf.flen = 0) :
    datasetsOf (unfFeedEvents [Wire.lf, Wire.etx, Wire.stx, Wire.cr, Wire.etx] s) = [] := by
  obtain ⟨hfirst, hclosed, hreset⟩ :=
    unfFeed_one_byte_frame (b := Wire.lf) hs ⟨by decide, by decide⟩ hx hempty
  obtain ⟨hopen, hflen, -⟩ := unfByte_stx_unf (unfFeed [Wire.lf, Wire.etx] s)
  obtain ⟨hsecond, -, -⟩ := unfFeed_one_byte_frame (b := Wire.cr) hopen ⟨by decide, by decide⟩
    (by rwa [unfByte_ext_outOfSync Wire.stx hclosed]) fun _ => hflen
  calc datasetsOf (unfFeedEvents ([Wire.lf, Wire.etx] ++ Wire.stx :: [Wire.cr, Wire.etx]) s)
      = datasetsOf (unfEvents Wire.stx (unfFeed [Wire.lf, Wire.etx] s)) := by
        rw [unfFeedEvents_append, datasetsOf_append, hfirst, List.nil_append, unfFeedEvents,
          datasetsOf_append, hsecond, List.append_nil]
    _ = [] := by
        rw [unfEvents_outOfSync Wire.stx _ hclosed]
        rfl

/-- Settles O38: the reset at the frame close, and O40's delivery of the empty dataset without
it. -/
theorem theFrameBoundaryResetRemovesTheSpuriousDataset :
    Obligations.TheFrameBoundaryResetRemovesTheSpuriousDataset := by
  unfold Obligations.TheFrameBoundaryResetRemovesTheSpuriousDataset
  refine ⟨fun s hs hx hempty => ?_, fun s hx => ?_⟩
  · obtain ⟨r, hpushes⟩ :=
      execAll_unfPush [Wire.lf, Wire.etx, Wire.stx, Wire.cr, Wire.etx] s
    exact ⟨_, _, hpushes, unfFeed_evPort _ s, datasetsOf_unfFeedEvents_boundary hs hx hempty⟩
  · obtain ⟨t, hpushes, hport, -, -, -⟩ := extractedDatasetIsDecodedWhole s [] hx
      (List.forall_mem_nil _) (Nat.zero_le _)
    exact ⟨t, _, hpushes, hport, rfl⟩

end Sys2Proof.Machine
end

section
/-! PROOFS. The decoder commands (42_decoder.md R184 to R197): where DEC_APPEND and CMP_APPEND store
their byte, what CMP_LABEL compares, the number DEC_U32 reads, and what DEC_RUN latches. -/

namespace Sys2Proof.Machine

/-! DEC_APPEND. -/

theorem hinStore_eq_some_iff {s : State} {a : Nat} :
    hinStore s = some a ↔ s.hin.len < s.cfg.dsMax ∧ a = s.hin.len := by
  rw [hinStore]
  split <;> simp [*, eq_comm]

theorem exec_decAppend_of_full {s : State} (b : Byte) (hfull : s.cfg.dsMax ≤ s.hin.len) :
    exec (.decAppend b) s = .next (answered 0 { s with hin.drop := true }) := by
  rw [exec, execDecAppend, hinStore, if_neg (Nat.not_lt.2 hfull)]
  rfl

/-- The elements after a store to `HIN`. -/
theorem elemAt_hin_append (s : State) (b : Byte) (d : Word) (sp : Space) (i : Nat) :
    elemAt (answered d { s with hin := s.hin.append b }) sp i =
      if sp = .hin ∧ i = s.hin.len then zext32 b.toNat else elemAt s sp i := by
  cases sp with
  | hin =>
    simp only [elemAt, answered, Hin.append, memByte_cellSet, true_and]
    split <;> rfl
  | fbuf | dbuf | hist | cmp => simp [elemAt, answered, histEntry]

/-- Settles O41: a byte with room is appended at the cursor, and without room only the drop is
recorded. -/
theorem decAppendStoresOrDrops : Obligations.DecAppendStoresOrDrops := by
  unfold Obligations.DecAppendStoresOrDrops
  refine ⟨encodedB_of_decodeB .decAppend (fun _ => rfl) fun _ _ => rfl, fun s b =>
    ⟨fun a ha => ?_, fun hroom => hinStore_eq_some_iff.2 ⟨hroom, rfl⟩,
      exec_decAppend_of_full b⟩⟩
  obtain ⟨hroom, rfl⟩ := hinStore_eq_some_iff.1 ha
  have helem := elemAt_hin_append s b 1
  exact ⟨_, exec_decAppend_of_room b hroom, rfl, rfl, (helem .hin _).trans (if_pos ⟨rfl, rfl⟩),
    fun sp i hne => (helem sp i).trans (if_neg hne), rfl⟩

/-! CMP_APPEND. -/

/-- The compare buffer with one more byte (42_decoder.md R196). -/
def Cmp.append (m : Cmp) (b : Byte) : Cmp :=
  { m with buf := cellSet m.buf m.len b, len := m.len + 1 }

theorem cmpStore_eq_some_iff {s : State} {a : Nat} :
    cmpStore s = some a ↔ s.cmp.len < Wire.cmpMax ∧ a = s.cmp.len := by
  rw [cmpStore]
  split <;> simp [*, eq_comm]

theorem exec_cmpAppend_of_room {s : State} (b : Byte) (hroom : s.cmp.len < Wire.cmpMax) :
    exec (.cmpAppend b) s = .next (answered 1 { s with cmp := s.cmp.append b }) := by
  rw [exec, execCmpAppend, cmpStore, if_pos hroom]
  rfl

theorem exec_cmpAppend_of_full {s : State} (b : Byte) (hfull : Wire.cmpMax ≤ s.cmp.len) :
    exec (.cmpAppend b) s = .next (answered 0 { s with cmp.overflow := true }) := by
  rw [exec, execCmpAppend, cmpStore, if_neg (Nat.not_lt.2 hfull)]
  rfl

/-- The elements after a store to `CMP`. -/
theorem elemAt_cmp_append (s : State) (b : Byte) (d : Word) (sp : Space) (i : Nat) :
    elemAt (answered d { s with cmp := s.cmp.append b }) sp i =
      if sp = .cmp ∧ i = s.cmp.len then zext32 b.toNat else elemAt s sp i := by
  cases sp with
  | cmp =>
    simp only [elemAt, answered, Cmp.append, memByte_cellSet, true_and]
    split <;> rfl
  | fbuf | dbuf | hist | hin => simp [elemAt, answered, histEntry]

/-- A command that answers from a state with a set `CMP.over` keeps it set. -/
theorem overflow_of_respond {d : Word} {u t : State} (h : respond d u = .next t)
    (hu : u.cmp.overflow = true) : t.cmp.overflow = true := by
  cases h
  exact hu

theorem execCmpAppend_overflow {b : Byte} {s t : State} (hs : s.cmp.overflow = true)
    (h : execCmpAppend b s = .next t) : t.cmp.overflow = true := by
  unfold execCmpAppend at h
  split at h
  · exact overflow_of_respond h hs
  · exact overflow_of_respond h rfl

/-- `CMP.over` is sticky: only CMP_CLEAR and BLOCK_RESET clear it (42_decoder.md R196). -/
theorem exec_overflow {i : Instr} {s t : State} (hs : s.cmp.overflow = true)
    (hclear : i ≠ .cmpClear) (hreset : i ≠ .blockReset) (h : exec i s = .next t) :
    t.cmp.overflow = true := by
  cases i with
  | cmpClear => exact absurd rfl hclear
  | blockReset => exact absurd rfl hreset
  | cmpAppend b => exact execCmpAppend_overflow hs h
  | unfPush b => exact overflow_of_respond h (by rwa [unfByte_cmp])
  | extPush b => exact overflow_of_respond h (by rwa [extByte_cmp])
  | decAppend b =>
    rw [exec, execDecAppend] at h
    cases hidx : hinStore s <;> rw [hidx] at h <;> exact overflow_of_respond h hs
  | bufRead sp idx =>
    rw [exec, execBufRead] at h
    split at h <;> cases h <;> exact hs
  | nop | unfSync | unfMaxsz | extReset | extSync | decClear | decRun | decIsvalid | decU32
  | cmpLabel | horoSave | horoCmp | regRead _ => exact overflow_of_respond h hs

theorem labelEquals_of_overflow {s : State} (h : s.cmp.overflow = true) :
    labelEquals s = false := by
  simp [labelEquals, h]

theorem exec_cmpLabel (s : State) :
    exec .cmpLabel s = .next (answered (boolData (labelEquals s)) s) := rfl

/-- Settles O42: a byte below the capacity is appended at the cursor, and a ninth one sets the
sticky flag. -/
theorem cmpAppendStoresOrOverflows : Obligations.CmpAppendStoresOrOverflows := by
  unfold Obligations.CmpAppendStoresOrOverflows
  refine ⟨encodedB_of_decodeB .cmpAppend (fun _ => rfl) fun _ _ => rfl, fun s b =>
    ⟨fun a ha => ?_, fun hroom => cmpStore_eq_some_iff.2 ⟨hroom, rfl⟩,
      exec_cmpAppend_of_full b, fun hover => ⟨?_, fun i t => exec_overflow hover⟩⟩⟩
  · obtain ⟨hroom, rfl⟩ := cmpStore_eq_some_iff.1 ha
    have helem := elemAt_cmp_append s b 1
    exact ⟨_, exec_cmpAppend_of_room b hroom, rfl, rfl,
      (helem .cmp _).trans (if_pos ⟨rfl, rfl⟩),
      fun sp i hne => (helem sp i).trans (if_neg hne), rfl⟩
  · rw [exec_cmpLabel, labelEquals_of_overflow hover]
    rfl

/-! CMP_LABEL. -/

theorem srcSpan_eq_map_range (s : State) (src : Src) (off len : Nat) :
    srcSpan s src off len = (List.range len).map fun i => srcByte s src (off + i) := by
  rw [srcSpan, List.range'_eq_map_range, List.map_map]
  rfl

theorem map_range_eq_map_range_iff {α : Type} {f g : Nat → α} {m n : Nat} :
    (List.range m).map f = (List.range n).map g ↔ m = n ∧ ∀ i < m, f i = g i := by
  constructor
  · intro h
    have hlen : m = n := by simpa using congrArg List.length h
    subst hlen
    exact ⟨rfl, by simpa using h⟩
  · rintro ⟨rfl, h⟩
    simpa using h

theorem zext32_byte_inj {a b : Byte} : zext32 a.toNat = zext32 b.toNat ↔ a = b := by
  have ha := a.isLt
  have hb := b.isLt
  rw [zext32, zext32, ← BitVec.toNat_inj, ← BitVec.toNat_inj, BitVec.toNat_ofNat,
    BitVec.toNat_ofNat, Nat.mod_eq_of_lt (by omega), Nat.mod_eq_of_lt (by omega)]

/-- An element of the buffer a result's spans lie in (42_decoder.md R194). -/
theorem elemAt_srcSpace (s : State) (src : Src) (i : Nat) :
    elemAt s (if src = .hin then .hin else .dbuf) i = zext32 (srcByte s src i).toNat := by
  cases src <;> rfl

/-- What CMP_LABEL compares: the flag, the lengths, and byte for byte the elements of `CMP` and of
the label span (42_decoder.md R197). -/
theorem labelEquals_iff (s : State) :
    labelEquals s = true ↔ s.cmp.overflow = false ∧ s.cmp.len = s.res.labelLen ∧
      ∀ i, i < s.cmp.len → elemAt s .cmp i =
        elemAt s (if s.res.src = .hin then .hin else .dbuf) (s.res.labelOff + i) := by
  have hbyte : ∀ i, memByte s.cmp.buf s.epoch .cmp i =
        srcByte s s.res.src (s.res.labelOff + i) ↔
      elemAt s .cmp i =
        elemAt s (if s.res.src = .hin then .hin else .dbuf) (s.res.labelOff + i) := fun i => by
    rw [elemAt_srcSpace]
    exact zext32_byte_inj.symm
  simp only [labelEquals, Bool.and_eq_true, Bool.not_eq_true', beq_iff_eq, cmpSpan, labelBytes,
    srcSpan_eq_map_range, map_range_eq_map_range_iff, hbyte]

/-- Settles O43: the answer is `labelEquals`, read byte for byte. -/
theorem cmpLabelComparesByteForByte : Obligations.CmpLabelComparesByteForByte := by
  unfold Obligations.CmpLabelComparesByteForByte
  refine ⟨encodedN_of_decodeN .cmpLabel fun _ => rfl, ?_⟩
  intro s same
  refine ⟨fun h => ?_, fun h => ?_⟩
  · rw [exec_cmpLabel, (labelEquals_iff s).2 h]
    rfl
  · rw [exec_cmpLabel, Bool.eq_false_of_not_eq_true (mt (labelEquals_iff s).1 h)]
    rfl

/-! DEC_U32. -/

/-- The number a string of digits spells, most significant digit first (42_decoder.md R190). -/
def decimalValue (cs : List Byte) : Nat := Nat.ofDigits 10 (cs.reverse.map digitValue)

theorem decimalValue_cons (c : Byte) (cs : List Byte) :
    decimalValue (c :: cs) = digitValue c * 10 ^ cs.length + decimalValue cs := by
  simp only [decimalValue, List.reverse_cons, List.map_append, List.map_cons, List.map_nil,
    Nat.ofDigits_append, Nat.ofDigits_singleton, List.length_map, List.length_reverse]
  ring

theorem toU32From_of_nonDigit {c : Byte} {cs : List Byte} (hmem : c ∈ cs)
    (hc : isDigit c = false) (acc : Nat) : toU32From acc cs = Wire.u32Error := by
  induction cs generalizing acc with
  | nil => exact absurd hmem List.not_mem_nil
  | cons a cs ih =>
    rw [toU32From]
    rcases List.mem_cons.1 hmem with rfl | hrest
    · simp [hc]
    · simp [ih hrest]

/-- Digits after an accumulator in range spell the number with the accumulator in front of them;
one above 2^32 - 1 is an error, wherever the overflow shows. -/
theorem toU32From_of_digits {cs : List Byte} (hcs : ∀ c ∈ cs, isDigit c = true) {acc : Nat}
    (hacc : acc ≤ 0xFFFFFFFF) :
    toU32From acc cs =
      if acc * 10 ^ cs.length + decimalValue cs ≤ 0xFFFFFFFF then
        zext32 (acc * 10 ^ cs.length + decimalValue cs)
      else Wire.u32Error := by
  induction cs generalizing acc with
  | nil => simp [toU32From, decimalValue, hacc]
  | cons c cs ih =>
    have hshift : acc * 10 ^ (c :: cs).length + decimalValue (c :: cs) =
        (acc * 10 + digitValue c) * 10 ^ cs.length + decimalValue cs := by
      rw [decimalValue_cons, List.length_cons]
      ring
    rw [toU32From, if_pos (hcs c List.mem_cons_self), hshift]
    split
    · rename_i hover
      have hgrow := Nat.le_mul_of_pos_right (acc * 10 + digitValue c)
        (Nat.pow_pos (a := 10) (n := cs.length) (by decide))
      rw [if_neg (by omega)]
    · rename_i hfit
      exact ih (fun a ha => hcs a (List.mem_cons_of_mem c ha)) (Nat.le_of_not_lt hfit)

theorem toU32_of_digits {v : List Byte} (hne : v ≠ []) (hv : ∀ c ∈ v, isDigit c = true) :
    toU32 v = if decimalValue v ≤ 0xFFFFFFFF then zext32 (decimalValue v)
      else Wire.u32Error := by
  rw [toU32, if_neg hne, toU32From_of_digits hv (Nat.zero_le _), Nat.zero_mul, Nat.zero_add]

theorem toU32_of_nonDigit {v : List Byte} (h : ¬ ∀ c ∈ v, isDigit c = true) :
    toU32 v = Wire.u32Error := by
  push Not at h
  obtain ⟨c, hmem, hc⟩ := h
  rw [toU32, if_neg (List.ne_nil_of_mem hmem),
    toU32From_of_nonDigit hmem (Bool.eq_false_of_not_eq_true hc)]

theorem isDigit_iff (c : Byte) : isDigit c = true ↔ 0x30 ≤ c.toNat ∧ c.toNat ≤ 0x39 := by
  simp [isDigit]

theorem exec_decU32 (s : State) :
    exec .decU32 s = .next (answered (toU32 (valueBytes s)) s) := rfl

/-- Settles O44: the answer is `toU32` of the value span, by whether its bytes are digits and the
number they spell fits. -/
theorem decU32ReadsAnUnsignedDecimal : Obligations.DecU32ReadsAnUnsignedDecimal := by
  unfold Obligations.DecU32ReadsAnUnsignedDecimal
  refine ⟨encodedN_of_decodeN .decU32 fun _ => rfl, ?_⟩
  intro s v digits number
  have hv : valueBytes s = v := srcSpan_eq_map_range s _ _ _
  have hdigits : digits ↔ ∀ c ∈ v, isDigit c = true :=
    forall₂_congr fun c _ => (isDigit_iff c).symm
  rw [exec_decU32, hv]
  refine ⟨fun h => ?_, fun h => ?_, fun hne h hfit => ?_, fun hne h hover => ?_⟩
  · rw [toU32, if_pos h]
  · rw [toU32_of_nonDigit (mt hdigits.2 h)]
  · rw [toU32_of_digits hne (hdigits.1 h)]
    exact congrArg (fun d => Host.Outcome.next (answered d s)) (if_pos hfit)
  · rw [toU32_of_digits hne (hdigits.1 h)]
    exact congrArg (fun d => Host.Outcome.next (answered d s)) (if_neg (Nat.not_le.2 hover))

/-! DEC_RUN. -/

/-- The record of a decode names the source given (42_decoder.md R182). -/
theorem recordEvent_decodeDataset (src : Src) (d : List Byte) :
    let r := decodeDataset src d
    recordEvent d r = .record src r.status (slice d r.labelOff r.labelLen)
      (slice d r.valueOff r.valueLen) r.horoPresent r.horo := by
  dsimp only
  rw [recordEvent, decodeDataset_src]

/-- Settles O45: the latched result and its record are the decode of the host buffer's span. -/
theorem decRunDecodesTheHostBuffer : Obligations.DecRunDecodesTheHostBuffer := by
  unfold Obligations.DecRunDecodesTheHostBuffer
  refine ⟨encodedN_of_decodeN .decRun fun _ => rfl, ?_⟩
  intro s d r code
  have hcode : r.status.code = code := by
    unfold code
    cases r.status <;> rfl
  have hrun : exec .decRun s = _ := execDecRun_of_span (rfl : srcSpan s .hin 0 s.hin.len = d)
  have hrecord : recordEvent d r = _ := recordEvent_decodeDataset .hin d
  rw [hrun, hrecord, ← hcode]
  exact ⟨rfl, decodeDataset_src .hin d⟩

end Sys2Proof.Machine
end

section
/-! PROOFS. `Decode` of a span (42_decoder.md R170 to R183): one equation for each way through its
steps, what every result holds, and that nothing but the span decides it. -/

namespace Sys2Proof.Machine

/-! The steps of the decode. -/

/-- The index of the checksum byte (42_decoder.md R175). -/
def ckIndex (d : List Byte) : Nat := spanEnd d - 1

/-- The bytes the checksum covers (42_decoder.md R177). -/
def coveredBytes (v : Variant) (d : List Byte) : List Byte :=
  slice d (spanStart d) (sumEnd v (ckIndex d) - spanStart d)

/-- The result once the checksum byte has been compared (42_decoder.md R177). -/
def checkedDataset (src : Src) (v : Variant) (d : List Byte) : Res :=
  checkedResult src (byteAt d (ckIndex d)) (coveredBytes v d)

theorem decodeDataset_of_short {d : List Byte} (src : Src) (h : d.length < Wire.minSpan) :
    decodeDataset src d = failResult src :=
  if_pos h

theorem variantOf_eq_none_iff (b : Byte) : variantOf b = none ↔ b ≠ Wire.tab ∧ b ≠ Wire.space := by
  rw [variantOf]
  split <;> simp [*]

theorem decodeDataset_of_noVariant {d : List Byte} (src : Src) (hlen : Wire.minSpan ≤ d.length)
    (hv : variantOf (byteAt d (ckIndex d - 1)) = none) :
    decodeDataset src d = failResult src := by
  rw [ckIndex] at hv
  simp only [decodeDataset, if_neg (Nat.not_lt.2 hlen), hv]

theorem decodeDataset_of_variant {v : Variant} {d : List Byte} (src : Src)
    (hlen : Wire.minSpan ≤ d.length) (hv : byteAt d (ckIndex d - 1) = v.delim) :
    decodeDataset src d =
      if checksum (coveredBytes v d) = byteAt d (ckIndex d) then
        splitLabel v d (spanStart d) (ckIndex d - 1) (checkedDataset src v d)
      else { checkedDataset src v d with status := .wrongCrc } := by
  rw [← variantOf_eq_some, ckIndex] at hv
  simp only [decodeDataset, if_neg (Nat.not_lt.2 hlen), hv]
  rfl

theorem splitLabel_of_label {v : Variant} {d : List Byte} {st bodyEnd k : Nat} (r : Res)
    (hk : findDelim d v.delim st bodyEnd = some k) (hlow : st < k)
    (hhigh : k ≤ st + Wire.labelMax) :
    splitLabel v d st bodyEnd r = splitValue v d st k bodyEnd r := by
  simp only [splitLabel, hk]
  exact if_neg (by omega)

theorem splitLabel_of_noLabel {v : Variant} {d : List Byte} {st bodyEnd : Nat} (r : Res)
    (h : ∀ k, findDelim d v.delim st bodyEnd = some k → st < k → ¬ k ≤ st + Wire.labelMax) :
    splitLabel v d st bodyEnd r = r := by
  rcases splitLabel_cases v d st bodyEnd r with hr | ⟨k, hk, hlow, hhigh, -⟩
  · exact hr
  · exact absurd (by omega) (h k hk (by omega))

theorem splitValue_of_none {v : Variant} {d : List Byte} {st k bodyEnd : Nat} (r : Res)
    (h : findDelim d v.delim (k + 1) bodyEnd = none) :
    splitValue v d st k bodyEnd r =
      { r with
        status := v.status, labelOff := st, labelLen := k - st, valueOff := k + 1,
        valueLen := bodyEnd - (k + 1), horoPresent := false, horo := Horo.invalid } := by
  rw [splitValue, h]

theorem splitValue_of_some {v : Variant} {d : List Byte} {st k bodyEnd j : Nat} (r : Res)
    (h : findDelim d v.delim (k + 1) bodyEnd = some j) :
    splitValue v d st k bodyEnd r =
      { r with
        status := v.status, labelOff := st, labelLen := k - st, valueOff := j + 1,
        valueLen := bodyEnd - (j + 1), horoPresent := true,
        horo := parseHorodate (slice d (k + 1) (j - (k + 1))) } := by
  rw [splitValue, h]

theorem decodeDataset_of_mismatch {v : Variant} {d : List Byte} (src : Src)
    (hlen : Wire.minSpan ≤ d.length) (hv : byteAt d (ckIndex d - 1) = v.delim)
    (hck : checksum (coveredBytes v d) ≠ byteAt d (ckIndex d)) :
    decodeDataset src d = { checkedDataset src v d with status := .wrongCrc } :=
  (decodeDataset_of_variant src hlen hv).trans (if_neg hck)

theorem decodeDataset_of_noLabel {v : Variant} {d : List Byte} (src : Src)
    (hlen : Wire.minSpan ≤ d.length) (hv : byteAt d (ckIndex d - 1) = v.delim)
    (hck : checksum (coveredBytes v d) = byteAt d (ckIndex d))
    (hno : ∀ k, findDelim d v.delim (spanStart d) (ckIndex d - 1) = some k → spanStart d < k →
      ¬ k ≤ spanStart d + Wire.labelMax) :
    decodeDataset src d = checkedDataset src v d :=
  ((decodeDataset_of_variant src hlen hv).trans (if_pos hck)).trans (splitLabel_of_noLabel _ hno)

theorem decodeDataset_of_label {v : Variant} {d : List Byte} {k : Nat} (src : Src)
    (hlen : Wire.minSpan ≤ d.length) (hv : byteAt d (ckIndex d - 1) = v.delim)
    (hck : checksum (coveredBytes v d) = byteAt d (ckIndex d))
    (hk : findDelim d v.delim (spanStart d) (ckIndex d - 1) = some k) (hlow : spanStart d < k)
    (hhigh : k ≤ spanStart d + Wire.labelMax) :
    decodeDataset src d =
      splitValue v d (spanStart d) k (ckIndex d - 1) (checkedDataset src v d) :=
  ((decodeDataset_of_variant src hlen hv).trans (if_pos hck)).trans
    (splitLabel_of_label _ hk hlow hhigh)

/-- With the right checksum and a label, everything but the value and the horodate is fixed. -/
theorem splitValue_label (v : Variant) (d : List Byte) (st k bodyEnd : Nat) (r : Res) :
    let t := splitValue v d st k bodyEnd r
    t.status = v.status ∧ t.labelOff = st ∧ t.labelLen = k - st ∧
      t.ckSeen = r.ckSeen ∧ t.ckRx = r.ckRx ∧ t.ckCalc = r.ckCalc := by
  rw [splitValue]
  split <;> exact ⟨rfl, rfl, rfl, rfl, rfl, rfl⟩

/-- From step 5 on the result holds the checksum byte and the checksum computed (42_decoder.md
R177). -/
theorem decodeDataset_ck {v : Variant} {d : List Byte} (src : Src)
    (hlen : Wire.minSpan ≤ d.length) (hv : byteAt d (ckIndex d - 1) = v.delim) :
    let r := decodeDataset src d
    r.ckSeen = true ∧ r.ckRx = byteAt d (ckIndex d) ∧ r.ckCalc = checksum (coveredBytes v d) := by
  rw [decodeDataset_of_variant src hlen hv]
  split
  · rcases splitLabel_cases v d (spanStart d) (ckIndex d - 1) (checkedDataset src v d) with
      hr | ⟨k, -, -, -, hr⟩
    · rw [hr]
      exact ⟨rfl, rfl, rfl⟩
    · obtain ⟨-, -, -, hck⟩ :=
        splitValue_label v d (spanStart d) k (ckIndex d - 1) (checkedDataset src v d)
      rw [hr]
      exact hck
  · exact ⟨rfl, rfl, rfl⟩

/-! Every field of every decode. -/

theorem findDelim_eq_some_iff {d : List Byte} {dl : Byte} {lo hi k : Nat} :
    findDelim d dl lo hi = some k ↔
      lo ≤ k ∧ k < hi ∧ byteAt d k = dl ∧ ∀ i, lo ≤ i → i < k → byteAt d i ≠ dl :=
  ⟨findDelim_some d dl lo hi k, fun ⟨h1, h2, h3, h4⟩ => findDelim_eq_some d dl lo hi k h1 h2 h3 h4⟩

theorem exists_delim_of_tab_or_space {b : Byte} (h : b = Wire.tab ∨ b = Wire.space) :
    ∃ v : Variant, b = v.delim := by
  rcases h with rfl | rfl
  · exact ⟨.std, rfl⟩
  · exact ⟨.hist, rfl⟩

theorem Variant.status_eq_ite (v : Variant) :
    v.status = if v.delim = 0x09 then .validStd else .validHist := by
  cases v <;> rfl

theorem sumEnd_eq_ite (v : Variant) (e : Nat) :
    sumEnd v e = if v.delim = 0x09 then e else e - 1 := by
  cases v <;> rfl

/-- The received byte is the checksum exactly if it is the number of 30_encoding.md R83. -/
theorem checksum_eq_iff (bs : List Byte) (b : Byte) :
    checksum bs = b ↔ (byteSum bs % 256 &&& 0x3F) + 0x20 = b.toNat := by
  rw [← BitVec.toNat_inj, (checksumByteRange bs).1]
  rfl

/-- Settles O48: the equation for each way through the steps, read field by field. -/
theorem statusOfEverySpan : Obligations.StatusOfEverySpan := by
  unfold Obligations.StatusOfEverySpan
  intro src d st e v covered matched first labelled r empty unseen
  have hunseen : r = failResult src → unseen := fun hr => by
    unfold unseen empty
    rw [hr]
    exact ⟨rfl, ⟨rfl, rfl, rfl, rfl, rfl, rfl⟩, rfl, rfl, rfl⟩
  refine ⟨decodeDataset_src src d, fun hlen => hunseen (decodeDataset_of_short src hlen),
    fun hlen htab hspace => hunseen (decodeDataset_of_noVariant src hlen
      ((variantOf_eq_none_iff _).2 ⟨htab, hspace⟩)), fun hlen hv => ?_⟩
  obtain ⟨V, hV⟩ := exists_delim_of_tab_or_space hv
  have hcovered : covered = coveredBytes V d := by
    rw [coveredBytes, sumEnd_eq_ite, ← hV]
    rfl
  have hmatched : checksum (coveredBytes V d) = byteAt d e ↔ matched := by
    rw [checksum_eq_iff, ← hcovered]
  have hfirst : ∀ {lo k}, findDelim d V.delim lo (e - 1) = some k ↔ first lo k := by
    intro lo k
    rw [findDelim_eq_some_iff, ← hV]
  obtain ⟨hseen, hrx, hcalc⟩ := decodeDataset_ck src hlen hV
  have hlabel : matched → ∀ k, first st k → st < k → k ≤ st + 8 →
      r = splitValue V d st k (e - 1) (checkedDataset src V d) := fun hm k hk =>
    decodeDataset_of_label src hlen hV (hmatched.2 hm) (hfirst.2 hk)
  refine ⟨⟨hseen, hrx, ?_⟩, fun hm => ?_, fun hm hno => ?_, fun hm hk => ?_,
    fun hm k hk hlow hhigh => ?_⟩
  · rw [hcovered]
    exact (congrArg BitVec.toNat hcalc).trans ((checksum_eq_iff _ _).1 rfl).symm
  · have hr : r = _ := decodeDataset_of_mismatch src hlen hV (mt hmatched.1 hm)
    unfold empty
    rw [hr]
    exact ⟨rfl, rfl, rfl, rfl, rfl, rfl, rfl⟩
  · have hr : r = _ := decodeDataset_of_noLabel src hlen hV (hmatched.2 hm)
      fun k hk hlow hhigh => hno ⟨k, hfirst.1 hk, hlow, hhigh⟩
    unfold empty
    rw [hr]
    exact ⟨rfl, rfl, rfl, rfl, rfl, rfl, rfl⟩
  · obtain ⟨k, hk, hlow, hhigh⟩ := hk
    rw [hlabel hm k hk hlow hhigh, hV, ← V.status_eq_ite]
    exact (splitValue_label V d st k (e - 1) _).1
  · obtain ⟨-, hoff, hlen, -⟩ := splitValue_label V d st k (e - 1) (checkedDataset src V d)
    rw [hlabel hm k hk hlow hhigh]
    refine ⟨hoff, hlen, fun hnone => ?_, fun j hj => ?_⟩
    · have hsplit : findDelim d V.delim (k + 1) (e - 1) = none :=
        Option.eq_none_iff_forall_ne_some.2 fun j hj => hnone ⟨j, hfirst.1 hj⟩
      rw [splitValue_of_none _ hsplit]
      exact ⟨rfl, rfl, rfl, rfl⟩
    · rw [splitValue_of_some _ (hfirst.2 hj)]
      exact ⟨rfl, rfl, rfl, rfl⟩

/-! The source a span is read from plays no part but for `RES.src`. -/

theorem splitLabel_withSrc (v : Variant) (d : List Byte) (st bodyEnd : Nat) (r : Res) (a : Src) :
    splitLabel v d st bodyEnd { r with src := a } =
      { splitLabel v d st bodyEnd r with src := a } := by
  unfold splitLabel splitValue
  split
  · rfl
  · split
    · rfl
    · split <;> rfl

theorem decodeDataset_withSrc (a b : Src) (d : List Byte) :
    decodeDataset a d = { decodeDataset b d with src := a } := by
  by_cases hlen : d.length < Wire.minSpan
  · rw [decodeDataset_of_short a hlen, decodeDataset_of_short b hlen]
    rfl
  · cases hv : variantOf (byteAt d (ckIndex d - 1)) with
    | none =>
      have hlen' := Nat.le_of_not_lt hlen
      rw [decodeDataset_of_noVariant a hlen' hv, decodeDataset_of_noVariant b hlen' hv]
      rfl
    | some v =>
      have hlen' := Nat.le_of_not_lt hlen
      have hdl := (variantOf_eq_some _ v).1 hv
      rw [decodeDataset_of_variant a hlen' hdl, decodeDataset_of_variant b hlen' hdl]
      split
      · exact splitLabel_withSrc v d _ _ (checkedDataset b v d) a
      · rfl

/-- Settles O47: with equal spans the two decodes differ in the source alone. -/
theorem decodeIsAPureFunctionOfTheSpan : Obligations.DecodeIsAPureFunctionOfTheSpan := by
  unfold Obligations.DecodeIsAPureFunctionOfTheSpan
  intro s u a b n hspan
  simp only [runDecode_res, runDecode_evPort, hspan]
  refine ⟨decodeDataset_withSrc a b _, decodeDataset_src b _, ?_⟩
  rw [recordEvent_decodeDataset, recordEvent_decodeDataset, decodeDataset_withSrc a b]
  exact ⟨_, _, _, _, _, rfl, rfl⟩

end Sys2Proof.Machine
end

section
/-! PROOFS. `Decode` of a dataset given by its parts (42_decoder.md R198, R199): the bytes in front
of the checksum byte fix everything but the comparison, and a dataset built from a label, a
delimiter and a value gives them back. -/

namespace Sys2Proof.Machine

/-! The bytes of a span given by its parts. -/

theorem byteAt_append_left {xs ys : List Byte} {i : Nat} (h : i < xs.length) :
    byteAt (xs ++ ys) i = byteAt xs i :=
  List.getD_append _ _ _ _ h

theorem byteAt_append_right {xs ys : List Byte} {i : Nat} (h : xs.length ≤ i) :
    byteAt (xs ++ ys) i = byteAt ys (i - xs.length) :=
  List.getD_append_right _ _ _ _ h

theorem byteAt_middle_mem {xs ys zs : List Byte} {i : Nat} (hlow : xs.length ≤ i)
    (hhigh : i < xs.length + ys.length) : byteAt (xs ++ ys ++ zs) i ∈ ys := by
  rw [byteAt_append_left (by simpa using hhigh), byteAt_append_right hlow,
    byteAt_of_lt _ _ (by omega)]
  exact List.getElem_mem _

theorem slice_middle {d xs ys zs : List Byte} {off len : Nat} (hd : d = xs ++ ys ++ zs)
    (hoff : off = xs.length) (hlen : len = ys.length) : slice d off len = ys := by
  simp [slice, hd, hoff, hlen]

theorem slice_append_left {xs ys : List Byte} {off len : Nat} (h : off + len ≤ xs.length) :
    slice (xs ++ ys) off len = slice xs off len := by
  rw [slice, slice, List.drop_append_of_le_length (by omega), List.take_append_of_le_length]
  rw [List.length_drop]
  omega

/-- A field without the delimiter ends at the first delimiter after it (42_decoder.md R178,
R179). -/
theorem findDelim_field {d xs ys zs : List Byte} {dl : Byte} {lo hi : Nat}
    (hd : d = xs ++ ys ++ dl :: zs) (hlo : lo = xs.length) (hys : dl ∉ ys)
    (hhi : lo + ys.length < hi) : findDelim d dl lo hi = some (lo + ys.length) := by
  subst hd hlo
  refine findDelim_eq_some _ _ _ _ _ (Nat.le_add_right _ _) hhi ?_ fun i hlow hhigh heq => hys ?_
  · rw [byteAt_append_right (by rw [List.length_append]), List.length_append, Nat.sub_self]
    rfl
  · exact heq ▸ byteAt_middle_mem hlow hhigh

/-- A last field without the delimiter ends with the body (42_decoder.md R180). -/
theorem findDelim_lastField {d xs ys zs : List Byte} {dl : Byte} {lo hi : Nat}
    (hd : d = xs ++ ys ++ zs) (hlo : lo = xs.length) (hys : dl ∉ ys)
    (hhi : hi = lo + ys.length) : findDelim d dl lo hi = none := by
  subst hd hlo hhi
  exact (findDelim_none _ _ _ _).2 fun i hlow hhigh heq => hys (heq ▸ byteAt_middle_mem hlow hhigh)

/-! What stands in front of the checksum byte. -/

theorem ckIndex_append_ck (p : List Byte) {ck : Byte} (h : ck ≠ Wire.cr) :
    ckIndex (p ++ [ck]) = p.length := by
  have hlast : byteAt (p ++ [ck]) ((p ++ [ck]).length - 1) = ck := by
    simp [byteAt]
  rw [ckIndex, spanEnd, hlast, if_neg h]
  simp

theorem ckIndex_append_ck_cr (p : List Byte) (ck : Byte) :
    ckIndex (p ++ [ck, Wire.cr]) = p.length := by
  have hlast : byteAt (p ++ [ck, Wire.cr]) ((p ++ [ck, Wire.cr]).length - 1) = Wire.cr := by
    simp [byteAt]
  rw [ckIndex, spanEnd, hlast, if_pos rfl]
  simp

theorem spanStart_append {p : List Byte} (rest : List Byte) (hp : 1 ≤ p.length) :
    spanStart (p ++ rest) = spanStart p := by
  rw [spanStart, byteAt_append_left hp, spanStart]

section
variable {p rest : List Byte} (hck : ckIndex (p ++ rest) = p.length)
include hck

theorem byteAt_ckIndex_append : byteAt (p ++ rest) (ckIndex (p ++ rest)) = byteAt rest 0 := by
  rw [hck, byteAt_append_right le_rfl, Nat.sub_self]

variable (hp : 1 ≤ p.length)
include hp

theorem byteAt_delim_append :
    byteAt (p ++ rest) (ckIndex (p ++ rest) - 1) = byteAt p (p.length - 1) := by
  rw [hck, byteAt_append_left (by omega)]

theorem coveredBytes_append (v : Variant) :
    coveredBytes v (p ++ rest) = slice p (spanStart p) (sumEnd v p.length - spanStart p) := by
  have hst := spanStart_le p
  have hend : sumEnd v p.length ≤ p.length := by
    cases v <;> simp [sumEnd]
  rw [coveredBytes, hck, spanStart_append rest hp, slice_append_left (by omega)]

end

/-! A changed checksum byte. -/

theorem matched_of_valid {src : Src} {d : List Byte}
    (h : (decodeDataset src d).status.isValid = true) :
    ∃ v : Variant, Wire.minSpan ≤ d.length ∧ byteAt d (ckIndex d - 1) = v.delim ∧
      checksum (coveredBytes v d) = byteAt d (ckIndex d) := by
  rcases decodeDataset_cases src d with hr | ⟨v, hlen, hv, ⟨-, hr⟩ | ⟨hck, -⟩⟩
  · rw [hr] at h
    exact absurd h (by simp [failResult, Status.isValid])
  · rw [hr] at h
    exact absurd h (by simp [Status.isValid])
  · exact ⟨v, hlen, hv, hck⟩

/-- Two spans that differ from the checksum byte on have one computed checksum, so a valid one
leaves the other with a mismatch (42_decoder.md R177). -/
theorem wrongCrc_of_changed_ck {src : Src} {p rest rest' : List Byte}
    (hck : ckIndex (p ++ rest) = p.length) (hck' : ckIndex (p ++ rest') = p.length)
    (hlen : rest.length = rest'.length) (hne : byteAt rest' 0 ≠ byteAt rest 0)
    (hvalid : (decodeDataset src (p ++ rest)).status.isValid = true) :
    (decodeDataset src (p ++ rest')).status = .wrongCrc := by
  obtain ⟨v, hmin, hv, hmatch⟩ := matched_of_valid hvalid
  have hp : 1 ≤ p.length := by
    have hmin2 : 5 ≤ (p ++ rest).length := hmin
    rw [ckIndex] at hck
    rcases spanEnd_cases (p ++ rest) with ⟨hend, -⟩ | ⟨hend, -⟩ <;> omega
  have hmin' : Wire.minSpan ≤ (p ++ rest').length := by
    rwa [List.length_append, ← hlen, ← List.length_append]
  rw [byteAt_delim_append hck hp, ← byteAt_delim_append hck' hp] at hv
  rw [coveredBytes_append hck hp, ← coveredBytes_append hck' hp,
    byteAt_ckIndex_append hck] at hmatch
  rw [decodeDataset_of_mismatch src hmin' hv]
  rw [hmatch, byteAt_ckIndex_append hck']
  exact hne.symm

/-- Settles O51: without and with a stripped CR, the checksum byte stands behind the same bytes. -/
theorem changingTheChecksumByteIsDetected : Obligations.ChangingTheChecksumByteIsDetected := by
  unfold Obligations.ChangingTheChecksumByteIsDetected
  intro src d ck c hne
  exact ⟨fun hck hvalid hc => wrongCrc_of_changed_ck (ckIndex_append_ck d hck)
      (ckIndex_append_ck d hc) rfl hne hvalid,
    wrongCrc_of_changed_ck (ckIndex_append_ck_cr d ck) (ckIndex_append_ck_cr d c) rfl hne⟩

/-! A built dataset. -/

/-- What stands in front of the checksum byte of a built dataset (42_decoder.md R198). -/
def builtHead (v : Variant) (label field : List Byte) : List Byte :=
  label ++ v.delim :: field ++ [v.delim]

/-- The final delimiter, where the checksum covers it (42_decoder.md R177). -/
def Variant.coveredDelim : Variant → List Byte
  | .std => [Wire.tab]
  | .hist => []

/-- The checksum byte of a built dataset (42_decoder.md R198). -/
def builtChecksum (v : Variant) (label field : List Byte) : Byte :=
  checksum (label ++ v.delim :: field ++ v.coveredDelim)

/-- The dataset of R198: label, delimiter, field, delimiter and the checksum byte. -/
def builtDataset (v : Variant) (label field : List Byte) : List Byte :=
  builtHead v label field ++ [builtChecksum v label field]

theorem builtDataset_eq (v : Variant) (label field : List Byte) :
    builtDataset v label field =
      label ++ v.delim :: field ++ [v.delim, builtChecksum v label field] := by
  rw [builtDataset, builtHead, List.append_assoc _ [v.delim]]
  rfl

theorem length_builtHead (v : Variant) (label field : List Byte) :
    (builtHead v label field).length = label.length + 1 + field.length + 1 := by
  simp only [builtHead, List.length_append, List.length_cons, List.length_nil]
  omega

theorem spanStart_of_head? {d : List Byte} (h : d.head? ≠ some Wire.lf) : spanStart d = 0 := by
  refine if_neg fun hlf => ?_
  cases d with
  | nil => exact absurd hlf (by decide)
  | cons b d => exact h (congrArg some hlf)

theorem spanStart_builtHead (v : Variant) {label : List Byte} (field : List Byte)
    (hlow : 1 ≤ label.length) (hlf : label.head? ≠ some Wire.lf) :
    spanStart (builtHead v label field) = 0 := by
  rw [builtHead, List.append_assoc, spanStart_append _ hlow, spanStart_of_head? hlf]

theorem checksum_ne_cr (bs : List Byte) : checksum bs ≠ Wire.cr := by
  intro h
  have hlow := (checksum_range bs).1
  rw [h] at hlow
  exact absurd hlow (by decide)

theorem ckIndex_built (v : Variant) (label field : List Byte) :
    ckIndex (builtHead v label field ++ [builtChecksum v label field]) =
      (builtHead v label field).length :=
  ckIndex_append_ck _ (checksum_ne_cr _)

theorem byteAt_last_builtHead (v : Variant) (label field : List Byte) :
    byteAt (builtHead v label field) ((builtHead v label field).length - 1) = v.delim := by
  simp [byteAt, builtHead]

/-- The covered bytes of a built dataset are those its checksum was built from. -/
theorem slice_sumEnd_builtHead (v : Variant) (label field : List Byte) :
    slice (builtHead v label field) 0 (sumEnd v (builtHead v label field).length) =
      label ++ v.delim :: field ++ v.coveredDelim := by
  rw [slice, List.drop_zero, builtHead]
  cases v with
  | std => exact List.take_length
  | hist =>
    rw [Variant.coveredDelim, List.append_nil, sumEnd, List.length_append, List.length_singleton,
      Nat.add_sub_cancel, List.take_left]

/-- A built dataset with a label of 1 to 8 bytes is split at the delimiter after it
(42_decoder.md R178, R198). -/
theorem decodeDataset_built {v : Variant} {label field : List Byte} (src : Src)
    (hlow : 1 ≤ label.length) (hhigh : label.length ≤ Wire.labelMax) (hdl : v.delim ∉ label)
    (hlf : label.head? ≠ some Wire.lf) (hlen : 2 ≤ label.length + field.length) :
    decodeDataset src (builtDataset v label field) =
      splitValue v (builtDataset v label field) 0 label.length
        (label.length + 1 + field.length)
        (checkedDataset src v (builtDataset v label field)) := by
  have hck := ckIndex_built v label field
  have hhead := length_builtHead v label field
  have hp : 1 ≤ (builtHead v label field).length := by omega
  have hstart := spanStart_builtHead v field hlow hlf
  have hst : spanStart (builtDataset v label field) = 0 :=
    (spanStart_append _ hp).trans hstart
  have hend : ckIndex (builtDataset v label field) - 1 = label.length + 1 + field.length := by
    rw [builtDataset, hck, hhead, Nat.add_sub_cancel]
  have hmin : 5 ≤ (builtDataset v label field).length := by
    rw [builtDataset, List.length_append, hhead, List.length_singleton]
    omega
  have hmatch : checksum (coveredBytes v (builtDataset v label field)) =
      byteAt (builtDataset v label field) (ckIndex (builtDataset v label field)) := by
    rw [builtDataset, byteAt_ckIndex_append hck, coveredBytes_append hck hp, hstart,
      Nat.sub_zero, slice_sumEnd_builtHead]
    rfl
  have hfield : findDelim (builtDataset v label field) v.delim 0
      (label.length + 1 + field.length) = some (0 + label.length) :=
    findDelim_field (xs := []) (builtDataset_eq v label field |>.trans (List.append_assoc ..)) rfl
      hdl (by omega)
  rw [Nat.zero_add, ← hend, ← hst] at hfield
  have hr := decodeDataset_of_label src hmin
    ((byteAt_delim_append hck hp).trans (byteAt_last_builtHead v label field)) hmatch hfield
    (by omega) (by omega)
  rwa [hst, hend] at hr

theorem byteSum_append (as bs : List Byte) : byteSum (as ++ bs) = byteSum as + byteSum bs := by
  simp [byteSum]

theorem byteSum_cons (b : Byte) (bs : List Byte) : byteSum (b :: bs) = b.toNat + byteSum bs := by
  simp [byteSum]

/-- A masked sum needs no reduction to a byte first (30_encoding.md R83). -/
theorem checksum_eq_ofNat (bs : List Byte) :
    checksum bs = BitVec.ofNat 8 ((byteSum bs &&& 0x3F) + 0x20) := by
  have hmask : byteSum bs % 256 &&& 0x3F = byteSum bs &&& 0x3F := by
    rw [Nat.and_two_pow_sub_one_eq_mod _ 6, Nat.and_two_pow_sub_one_eq_mod _ 6]
    omega
  rw [checksum, hmask]

/-- The two variants by their delimiter. -/
theorem exists_variant_of_std (std : Bool) :
    ∃ v : Variant, (if std then 0x09 else 0x20) = v.delim ∧
      (if std then .validStd else .validHist) = v.status ∧
      (if std then v.delim.toNat else 0) = byteSum v.coveredDelim := by
  cases std with
  | true => exact ⟨.std, rfl, rfl, rfl⟩
  | false => exact ⟨.hist, rfl, rfl, rfl⟩

/-- A field without the delimiter is the value of its built dataset (42_decoder.md R198). -/
theorem decode_built_value (src : Src) {v : Variant} {label value : List Byte}
    (hlow : 1 ≤ label.length) (hhigh : label.length ≤ Wire.labelMax) (hdl : v.delim ∉ label)
    (hlf : label.head? ≠ some Wire.lf) (hvalue : v.delim ∉ value)
    (hlen : 2 ≤ label.length + value.length) :
    let d := builtDataset v label value
    let r := decodeDataset src d
    r.status = v.status ∧ slice d r.labelOff r.labelLen = label ∧
      slice d r.valueOff r.valueLen = value ∧ r.horoPresent = false := by
  intro d r
  let ck := builtChecksum v label value
  have hd : d = label ++ v.delim :: value ++ [v.delim, ck] := builtDataset_eq v label value
  have hfield : d = label ++ [v.delim] ++ value ++ [v.delim, ck] := by simp [hd]
  have hafter : label.length + 1 = (label ++ [v.delim]).length := by simp
  have hr : r = _ := (decodeDataset_built src hlow hhigh hdl hlf hlen).trans
    (splitValue_of_none _ (findDelim_lastField hfield hafter hvalue rfl))
  rw [hr]
  exact ⟨rfl, slice_middle (xs := []) (hd.trans (List.append_assoc ..)) rfl rfl,
    slice_middle hfield hafter (Nat.add_sub_cancel_left ..), rfl⟩

/-- A stamp without the delimiter, a delimiter and any value are the horodate and the value of their
built dataset (42_decoder.md R179, R180). -/
theorem decode_built_horodate (src : Src) {v : Variant} {label stamp : List Byte}
    (value : List Byte) (hlow : 1 ≤ label.length) (hhigh : label.length ≤ Wire.labelMax)
    (hdl : v.delim ∉ label) (hlf : label.head? ≠ some Wire.lf) (hstamp : v.delim ∉ stamp) :
    let d := builtDataset v label (stamp ++ v.delim :: value)
    let r := decodeDataset src d
    r.status = v.status ∧ slice d r.labelOff r.labelLen = label ∧
      slice d r.valueOff r.valueLen = value ∧ r.horoPresent = true ∧
      r.horo = parseHorodate stamp := by
  intro d r
  let ck := builtChecksum v label (stamp ++ v.delim :: value)
  have hd : d = label ++ v.delim :: (stamp ++ v.delim :: value) ++ [v.delim, ck] :=
    builtDataset_eq v label _
  have hstampAt : d = label ++ [v.delim] ++ stamp ++ v.delim :: (value ++ [v.delim, ck]) := by
    simp [hd]
  have hvalueAt : d = label ++ v.delim :: stamp ++ [v.delim] ++ value ++ [v.delim, ck] := by
    simp [hd]
  have hafter : label.length + 1 = (label ++ [v.delim]).length := by simp
  have hlen : (stamp ++ v.delim :: value).length = stamp.length + 1 + value.length := by
    simp only [List.length_append, List.length_cons]
    omega
  have hoff : label.length + 1 + stamp.length + 1 =
      (label ++ v.delim :: stamp ++ [v.delim]).length := by
    simp only [List.length_append, List.length_cons, List.length_nil]
    omega
  have hr : r = _ := (decodeDataset_built src hlow hhigh hdl hlf (by omega)).trans
    (splitValue_of_some _ (findDelim_field hstampAt hafter hstamp (by omega)))
  rw [hr]
  refine ⟨rfl, slice_middle (xs := []) (hd.trans (List.append_assoc ..)) rfl rfl,
    slice_middle hvalueAt hoff ?_, rfl,
    congrArg parseHorodate (slice_middle hstampAt hafter (Nat.add_sub_cancel_left ..))⟩
  dsimp only
  omega

/-- Settles O49: the dataset is the built one, whose field has no delimiter. -/
theorem roundTripOfABuiltDataset : Obligations.RoundTripOfABuiltDataset := by
  unfold Obligations.RoundTripOfABuiltDataset
  intro src std label value
  obtain ⟨v, hdl, hstatus, hcovered⟩ := exists_variant_of_std std
  rw [hdl, hstatus]
  intro dl c d r hlow hhigh hlabel hlf hvalue hlen
  have hc : c = builtChecksum v label value := by
    simp only [builtChecksum, checksum_eq_ofNat, byteSum_append, byteSum_cons, c, dl, hcovered,
      Nat.add_assoc]
  have hd : d = builtDataset v label value := by
    rw [builtDataset_eq, ← hc]
  have hdecode := decode_built_value src hlow hhigh hlabel hlf hvalue hlen
  rw [← hd] at hdecode
  exact hdecode

/-- Settles O50: the dataset is the built one, whose field is the stamp, a delimiter and the
value. -/
theorem secondDelimiterSplitsOffTheHorodate : Obligations.SecondDelimiterSplitsOffTheHorodate := by
  unfold Obligations.SecondDelimiterSplitsOffTheHorodate
  intro src std label stamp value
  obtain ⟨v, hdl, hstatus, hcovered⟩ := exists_variant_of_std std
  rw [hdl, hstatus]
  intro dl c d r hlow hhigh hlabel hlf hstamp
  have hc : c = builtChecksum v label (stamp ++ v.delim :: value) := by
    simp only [builtChecksum, checksum_eq_ofNat, byteSum_append, byteSum_cons, c, dl, hcovered,
      Nat.add_assoc]
  have hd : d = builtDataset v label (stamp ++ v.delim :: value) := by
    rw [builtDataset_eq, ← hc]
    simp only [d, dl, List.append_assoc, List.cons_append]
  have hdecode := decode_built_horodate src value hlow hhigh hlabel hlf hstamp
  rw [← hd] at hdecode
  exact hdecode

end Sys2Proof.Machine
end

section
/-! PROOFS. The horodate parser and `HoroCompare` (43_horodate.md R210 to R219): what each field and
each check holds, and the comparison as the lexicographic order of the six fields. -/

namespace Sys2Proof.Machine

/-! The season byte. -/

theorem seasonOf_ok_iff (c : Byte) :
    (seasonOf c).2.2 = true ↔ c = 0x48 ∨ c = 0x68 ∨ c = 0x45 ∨ c = 0x65 ∨ c = 0x20 := by
  unfold seasonOf
  split_ifs <;> simp_all

/-- A byte in no row of R211 is the malformed season. -/
theorem seasonOf_of_unknown {c : Byte} (hwinter : c ≠ 0x48) (hwinterDegraded : c ≠ 0x68)
    (hsummer : c ≠ 0x45) (hsummerDegraded : c ≠ 0x65) (hspace : c ≠ 0x20) :
    seasonOf c = (.malformed, false, false) := by
  rw [seasonOf, if_neg hwinter, if_neg hwinterDegraded, if_neg hsummer, if_neg hsummerDegraded,
    if_neg hspace]

/-! The two-digit fields. -/

theorem fieldAt_of_digits {h : List Byte} {i : Nat} (hhigh : isDigit (byteAt h i) = true)
    (hlow : isDigit (byteAt h (i + 1)) = true) :
    fieldAt h i =
      (((byteAt h i).toNat - 0x30) * 10 + ((byteAt h (i + 1)).toNat - 0x30), true) :=
  if_pos (by rw [hhigh, hlow, Bool.and_self])

theorem fieldAt_of_not_digits {h : List Byte} {i : Nat}
    (hdigits : ¬ (isDigit (byteAt h i) = true ∧ isDigit (byteAt h (i + 1)) = true)) :
    fieldAt h i = (0, false) :=
  if_neg (mt (Bool.and_eq_true _ _).mp hdigits)

theorem fieldAt_ok_iff (h : List Byte) (i : Nat) :
    (fieldAt h i).2 = true ↔
      isDigit (byteAt h i) = true ∧ isDigit (byteAt h (i + 1)) = true := by
  by_cases hdigits : isDigit (byteAt h i) = true ∧ isDigit (byteAt h (i + 1)) = true
  · simp [fieldAt_of_digits hdigits.1 hdigits.2, hdigits]
  · simp [fieldAt_of_not_digits hdigits, hdigits]

/-- A field of at most two digits fits its byte. -/
theorem toNat_ofNat_fieldAt (h : List Byte) (i : Nat) :
    (BitVec.ofNat 8 (fieldAt h i).1).toNat = (fieldAt h i).1 :=
  Nat.mod_eq_of_lt (Nat.lt_of_le_of_lt (field2_le _ _) (by decide))

theorem toNat_ofNat_year (h : List Byte) :
    (BitVec.ofNat 16 (2000 + (fieldAt h 1).1)).toNat = 2000 + (fieldAt h 1).1 :=
  Nat.mod_eq_of_lt (Nat.lt_of_le_of_lt (Nat.add_le_add_left (field2_le _ _) 2000) (by decide))

/-! The checks (43_horodate.md R210, R213). -/

/-- The six pairs cover the bytes 1 to 12. -/
theorem fieldsAt_ok_iff (h : List Byte) :
    ((fieldAt h 1).2 = true ∧ (fieldAt h 3).2 = true ∧ (fieldAt h 5).2 = true ∧
      (fieldAt h 7).2 = true ∧ (fieldAt h 9).2 = true ∧ (fieldAt h 11).2 = true) ↔
      ∀ i, 1 ≤ i → i < 13 → isDigit (byteAt h i) = true := by
  simp only [fieldAt_ok_iff]
  refine ⟨fun hpairs i hlow hhigh => ?_, fun hall => by simp [hall]⟩
  interval_cases i <;> simp [hpairs]

theorem inRange_iff (month day hour minute second : Nat) :
    inRange month day hour minute second = true ↔
      1 ≤ month ∧ month ≤ 12 ∧ 1 ≤ day ∧ day ≤ 31 ∧ hour ≤ 24 ∧ minute ≤ 59 ∧ second ≤ 59 := by
  simp only [inRange, Bool.and_eq_true, decide_eq_true_eq, and_assoc]

theorem horoChecks_iff (h : List Byte) :
    horoChecks h = true ↔
      (seasonOf (byteAt h 0)).2.2 = true ∧
      (∀ i, 1 ≤ i → i < 13 → isDigit (byteAt h i) = true) ∧
      inRange (fieldAt h 3).1 (fieldAt h 5).1 (fieldAt h 7).1 (fieldAt h 9).1
        (fieldAt h 11).1 = true := by
  simp only [horoChecks, Bool.and_eq_true, ← fieldsAt_ok_iff, and_assoc]

/-! The parser (43_horodate.md R210). -/

theorem parseHorodate_of_length_ne {h : List Byte} (hlen : h.length ≠ 13) :
    parseHorodate h = Horo.invalid := if_neg hlen

theorem parseHorodate_valid {h : List Byte} (hlen : h.length = 13) :
    (parseHorodate h).valid = horoChecks h := by
  rw [parseHorodate, if_pos hlen]

theorem parseHorodate_season {h : List Byte} (hlen : h.length = 13) :
    (parseHorodate h).season = (seasonOf (byteAt h 0)).1 := by
  rw [parseHorodate, if_pos hlen]

theorem parseHorodate_degraded {h : List Byte} (hlen : h.length = 13) :
    (parseHorodate h).degraded = (seasonOf (byteAt h 0)).2.1 := by
  rw [parseHorodate, if_pos hlen]

/-- The six numeric fields are stored whatever the checks say (43_horodate.md R214). -/
theorem horoKey_parseHorodate {h : List Byte} (hlen : h.length = 13) :
    horoKey (parseHorodate h) =
      [2000 + (fieldAt h 1).1, (fieldAt h 3).1, (fieldAt h 5).1, (fieldAt h 7).1,
        (fieldAt h 9).1, (fieldAt h 11).1] := by
  simp only [parseHorodate, if_pos hlen, horoKey, toNat_ofNat_year, toNat_ofNat_fieldAt]

/-- Settles O53: the checks are on the season byte, the digits and the ranges, and between digits
each field is its pair's two-digit value. -/
theorem horodateIsValidExactlyWhen : Obligations.HorodateIsValidExactlyWhen := by
  unfold Obligations.HorodateIsValidExactlyWhen
  intro h hlen two
  rw [parseHorodate_valid hlen, horoChecks_iff, seasonOf_ok_iff]
  simp only [← isDigit_iff]
  refine and_congr_right fun _ => and_congr_right fun hdigits => ?_
  have hfield : ∀ i, 1 ≤ i → i < 12 → (fieldAt h i).1 = two i := fun i hlow hhigh =>
    congrArg Prod.fst (fieldAt_of_digits (hdigits i hlow (by omega))
      (hdigits (i + 1) (by omega) (by omega)))
  rw [inRange_iff, hfield 3, hfield 5, hfield 7, hfield 9, hfield 11] <;> decide

/-- Settles O54: each stored field is the value of its pair of bytes, and the season and the
degraded flag are byte 0's row of R211, whatever the checks say. -/
theorem horodateFieldsAreAlwaysStored : Obligations.HorodateFieldsAreAlwaysStored := by
  unfold Obligations.HorodateFieldsAreAlwaysStored
  intro h digit holds p
  refine ⟨parseHorodate_of_length_ne, fun hlen => ?_⟩
  have hpair : ∀ i, digit (byteAt h i) ∧ digit (byteAt h (i + 1)) ↔
      isDigit (byteAt h i) = true ∧ isDigit (byteAt h (i + 1)) = true := fun i =>
    and_congr (isDigit_iff _).symm (isDigit_iff _).symm
  have hfield : ∀ i, holds i (fieldAt h i).1 := fun i =>
    ⟨fun hdigits => congrArg Prod.fst
        (fieldAt_of_digits ((hpair i).1 hdigits).1 ((hpair i).1 hdigits).2),
      fun hdigits => congrArg Prod.fst (fieldAt_of_not_digits (mt (hpair i).2 hdigits))⟩
  have hrow : ∀ {row}, seasonOf (byteAt h 0) = row →
      p.season = row.1 ∧ p.degraded = row.2.1 := fun hseason =>
    hseason ▸ ⟨parseHorodate_season hlen, parseHorodate_degraded hlen⟩
  have hkey := horoKey_parseHorodate hlen
  simp only [horoKey, List.cons.injEq, and_true] at hkey
  obtain ⟨hyear, hmonth, hday, hhour, hminute, hsecond⟩ := hkey
  rw [hyear, Nat.add_sub_cancel_left, hmonth, hday, hhour, hminute, hsecond]
  refine ⟨Nat.le_add_right _ _, hfield 1, hfield 3, hfield 5, hfield 7, hfield 9, hfield 11,
    fun hc => hrow (congrArg seasonOf hc), fun hc => hrow (congrArg seasonOf hc),
    fun hc => hrow (congrArg seasonOf hc), fun hc => hrow (congrArg seasonOf hc),
    fun hc => hrow (congrArg seasonOf hc), fun h1 h2 h3 h4 h5 => ?_⟩
  have hseason := seasonOf_of_unknown h1 h2 h3 h4 h5
  obtain ⟨hmalformed, hdegraded⟩ := hrow hseason
  have hinvalid : ¬ horoChecks h = true := fun hchecks => by
    have hok := ((horoChecks_iff h).1 hchecks).1
    rw [hseason] at hok
    exact absurd hok (by decide)
  exact ⟨hmalformed, hdegraded,
    (parseHorodate_valid hlen).trans (Bool.eq_false_of_not_eq_true hinvalid)⟩

/-! The comparison (43_horodate.md R216, R217). -/

/-- On tuples of one length, LESS is the lexicographic order of lists. -/
theorem lexCompare_lt_iff {as bs : List Nat} (hlen : as.length = bs.length) :
    lexCompare as bs = .lt ↔ as < bs := by
  induction as generalizing bs with
  | nil =>
    cases List.eq_nil_of_length_eq_zero hlen.symm
    simp [lexCompare]
  | cons a as ih =>
    cases bs with
    | nil => cases hlen
    | cons b bs =>
      rw [lexCompare, List.cons_lt_cons_iff]
      rcases Nat.lt_trichotomy a b with hlt | rfl | hgt
      · simp [hlt]
      · simpa using ih (Nat.succ.inj hlen)
      · simp [hgt, Nat.lt_asymm hgt, Nat.ne_of_gt hgt]

theorem lexCompare_gt_iff {as bs : List Nat} (hlen : as.length = bs.length) :
    lexCompare as bs = .gt ↔ bs < as := by
  rw [← lexCompare_lt_iff hlen.symm, ← lexCompare_swap as bs, Ordering.swap_eq_lt]

theorem lexCompare_ne_gt_iff_le {as bs : List Nat} (hlen : as.length = bs.length) :
    lexCompare as bs ≠ .gt ↔ as ≤ bs :=
  (lexCompare_gt_iff hlen).not.trans not_lt

theorem lexCompare_eq_iff {as bs : List Nat} (hlen : as.length = bs.length) :
    lexCompare as bs = .eq ↔ as = bs := by
  refine ⟨fun heq => ?_, fun heq => heq ▸ lexCompare_self as⟩
  have hswap : lexCompare bs as = .eq := by rw [← lexCompare_swap, heq, Ordering.swap_eq]
  exact le_antisymm ((lexCompare_ne_gt_iff_le hlen).1 (by simp [heq]))
    ((lexCompare_ne_gt_iff_le hlen.symm).1 (by simp [hswap]))

/-- The first place where the tuples differ decides. -/
theorem lexCompare_of_first_lt {as bs : List Nat} {i : Nat} (hi : i < as.length)
    (hprefix : as.take i = bs.take i) (hlt : as.getD i 0 < bs.getD i 0) :
    lexCompare as bs = .lt := by
  induction as generalizing i bs with
  | nil => cases hi
  | cons a as ih =>
    cases bs with
    | nil => cases hlt
    | cons b bs =>
      cases i with
      | zero => exact if_pos hlt
      | succ i =>
        obtain ⟨rfl, htail⟩ := List.cons.inj hprefix
        rw [lexCompare, if_neg (Nat.lt_irrefl _), if_neg (Nat.lt_irrefl _)]
        exact ih (Nat.lt_of_succ_lt_succ hi) htail hlt

theorem horoKey_inj {a b : Horo} :
    horoKey a = horoKey b ↔
      a.year = b.year ∧ a.month = b.month ∧ a.day = b.day ∧ a.hour = b.hour ∧
      a.minute = b.minute ∧ a.second = b.second := by
  simp only [horoKey, List.cons.injEq, BitVec.toNat_inj, and_true]

theorem horoCompare_eq_iff (a b : Horo) :
    horoCompare a b = .eq ↔ horoKey a = horoKey b := lexCompare_eq_iff rfl

theorem horoCompare_ne_gt_iff_le (a b : Horo) :
    horoCompare a b ≠ .gt ↔ horoKey a ≤ horoKey b := lexCompare_ne_gt_iff_le rfl

/-- Settles O55: the comparison is the lexicographic order of the six fields. -/
theorem horodateOrderIsATotalPreorder : Obligations.HorodateOrderIsATotalPreorder := by
  unfold Obligations.HorodateOrderIsATotalPreorder
  simp only [horoCompare_ne_gt_iff_le]
  exact ⟨fun a b => lexCompare_swap _ _, fun a b c => le_trans,
    fun a b => (horoCompare_eq_iff a b).trans horoKey_inj, by decide⟩

/-! The commands (43_horodate.md R218, R219). -/

theorem exec_horoCmp {s : State} {o : Ordering} (ho : horoCompare s.res.horo s.ref = o) :
    exec .horoCmp s = .next (answered (zext32 (orderingCode o)) s) := ho ▸ rfl

/-- Settles O56: HORO_CMP answers the code of the comparison, which the first differing field
decides. -/
theorem horoSaveAndHoroCmp : Obligations.HoroSaveAndHoroCmp := by
  unfold Obligations.HoroSaveAndHoroCmp
  refine ⟨encodedN_of_decodeN .horoSave fun _ => rfl,
    encodedN_of_decodeN .horoCmp fun _ => rfl, ?_⟩
  intro s key f g
  refine ⟨rfl, fun heq => ?_, fun i hi hprefix hless => ?_, fun i hi hprefix hgreater => ?_⟩
  · exact exec_horoCmp ((horoCompare_eq_iff _ _).2 heq)
  · exact exec_horoCmp (lexCompare_of_first_lt hi hprefix hless)
  · have hswap : lexCompare g f = .lt := lexCompare_of_first_lt hi hprefix.symm hgreater
    exact exec_horoCmp (Ordering.swap_eq_lt.1 ((lexCompare_swap f g).trans hswap))

end Sys2Proof.Machine
end

section
/-! PROOFS. The system commands and the reads (44_system.md R230 to R233, 20_memory.md R65). -/

namespace Sys2Proof

theorem Space.id_lt (sp : Space) : sp.id < 5 := by
  cases sp <;> decide

/-- The operand field of BUF_READ is the space's id over the index (30_encoding.md R88). -/
theorem encode_bufRead {sp : Space} {idx : Nat} (hidx : idx < 2 ^ 20) :
    encode (.bufRead sp idx) =
      0x12000000#32 ||| BitVec.ofNat 32 (sp.id * 2 ^ 20) ||| BitVec.ofNat 32 idx := by
  have hid := sp.id_lt
  have hx : 2 ^ 20 * sp.id + idx < 2 ^ 24 := by omega
  calc encode (.bufRead sp idx)
    _ = BitVec.ofNat 32 (2 ^ 24 * 0x12 + (2 ^ 20 * sp.id + idx)) := rfl
    _ = BitVec.ofNat 32 (2 ^ 24 * 0x12 ||| (sp.id * 2 ^ 20 ||| idx)) := by
      rw [Nat.two_pow_add_eq_or_of_lt hx, Nat.two_pow_add_eq_or_of_lt hidx, Nat.mul_comm _ sp.id]
    _ = _ := by
      rw [← Nat.or_assoc, BitVec.ofNat_or, BitVec.ofNat_or]
      rfl

theorem Space.ofId?_eq_none {n : Nat} (h : 5 ≤ n) : Space.ofId? n = none := by
  refine Option.eq_none_iff_forall_ne_some.2 fun sp hsp => ?_
  have hid := Space.ofId?_eq_some_iff.1 hsp
  have hlt := sp.id_lt
  omega

end Sys2Proof

namespace Sys2Proof.Machine

/-! NOP. -/

/-- Settles O1: NOP is a format N command, and its meaning is to answer 0. -/
theorem nopAnswersZeroAndNothingElse : Obligations.NopAnswersZeroAndNothingElse := by
  unfold Obligations.NopAnswersZeroAndNothingElse
  obtain ⟨hword, hmbz⟩ := encodedN_of_decodeN .nop fun _ => rfl
  exact ⟨hword, fun _ => rfl, hmbz⟩

/-! BLOCK_RESET. -/

/-- After a reset no space has a written element, so each reads as its free value of the new
epoch (20_memory.md R72). -/
theorem elemAt_applyReset (s : State) (i : Nat) :
    elemAt (applyReset s) .fbuf i = zext32 (Config.freeByte (s.epoch + 1) 0 i).toNat ∧
    elemAt (applyReset s) .dbuf i = zext32 (Config.freeByte (s.epoch + 1) 1 i).toNat ∧
    elemAt (applyReset s) .hin i = zext32 (Config.freeByte (s.epoch + 1) 2 i).toNat ∧
    elemAt (applyReset s) .cmp i = zext32 (Config.freeByte (s.epoch + 1) 4 i).toNat ∧
    elemAt (applyReset s) .hist i = zext32 (Config.freeEntry (s.epoch + 1) i % 2 ^ s.cfg.lenW) :=
  ⟨rfl, rfl, rfl, rfl, rfl⟩

/-- Settles O4: the answer is `ApplyReset` with a response, which no element depends on. -/
theorem blockResetAppliesReset : Obligations.BlockResetAppliesReset := by
  unfold Obligations.BlockResetAppliesReset
  intro s
  refine ⟨answered 0 (applyReset s), rfl, rfl, rfl, rfl, rfl, rfl, rfl, rfl, rfl, rfl, rfl,
    fun i => ?_⟩
  simp only [answered, elemAt_withResp]
  exact elemAt_applyReset s i

/-! BUF_READ. -/

theorem bufRead_refused_iff {mode : Mode} {capacity : Space → Nat} {sp : Space} {idx : Nat} :
    (Instr.bufRead sp idx).refused mode capacity = true ↔
      (sp = .fbuf ∧ mode = .onTheFly) ∨ capacity sp ≤ idx := by
  simp [Instr.refused]

theorem exec_bufRead_of_not_refused {s : State} {sp : Space} {idx : Nat}
    (h : (Instr.bufRead sp idx).refused s.cfg.mode (capacity s.cfg) = false) :
    exec (.bufRead sp idx) s = .next (answered (elemAt s sp idx) s) := by
  have hlegal : bufLegal s.cfg sp idx = true := by rw [bufLegal_eq_not_refused, h, Bool.not_false]
  exact if_pos hlegal

theorem runWord_bufRead_of_reservedSpace {w : Word} (s : State) (hop : field w 31 24 = 0x12)
    (hid : 5 ≤ field w 23 20) : runWord w s = .next (answeredIllegal s) :=
  runWord_of_refusedWord (by simp [refusedWord, hop, Space.ofId?_eq_none hid])

/-- BUF_READ is refused under condition (d) of 30_encoding.md R96 alone. -/
theorem exec_bufRead (s : State) (sp : Space) (idx : Nat) :
    ((sp = .fbuf ∧ s.cfg.mode = .onTheFly) ∨ capacity s.cfg sp ≤ idx →
      exec (.bufRead sp idx) s = .next (answeredIllegal s)) ∧
    (¬ (sp = .fbuf ∧ s.cfg.mode = .onTheFly) → idx < capacity s.cfg sp →
      exec (.bufRead sp idx) s = .next (answered (elemAt s sp idx) s)) := by
  refine ⟨fun h => exec_of_refused (bufRead_refused_iff.2 h), fun hexists hidx => ?_⟩
  refine exec_bufRead_of_not_refused (Bool.eq_false_iff.2 fun h => ?_)
  exact (bufRead_refused_iff.1 h).elim hexists (Nat.not_le_of_lt hidx)

/-- Settles O8: the capacities written out are those of the five spaces. -/
theorem bufReadAnswersTheElementOrRefuses : Obligations.BufReadAnswersTheElementOrRefuses := by
  unfold Obligations.BufReadAnswersTheElementOrRefuses
  refine ⟨fun sp idx hidx => ?_, fun _ s => runWord_bufRead_of_reservedSpace s,
    fun s sp idx => ?_⟩
  · rw [← encode_bufRead hidx]
    exact decode_encode (decide_eq_true hidx)
  · cases sp <;> exact exec_bufRead s _ idx

/-! The reads. -/

theorem regValue_withResp (r : Option Response) (s : State) (reg : Reg) :
    regValue { s with resp := r } reg = regValue s reg := by
  cases reg <;> rfl

/-- Settles O5: no answer of a read depends on the response port, and BUF_READ is refused or not by
the build alone. -/
theorem readsHaveNoSideEffect : Obligations.ReadsHaveNoSideEffect := by
  unfold Obligations.ReadsHaveNoSideEffect
  intro i s hread
  cases i with
  | regRead reg =>
    refine ⟨{ illegal := false, data := regValue s reg }, rfl, ?_⟩
    rw [exec, execRegRead, regValue_withResp]
    rfl
  | bufRead sp idx =>
    cases h : (Instr.bufRead sp idx).refused s.cfg.mode (capacity s.cfg) with
    | true => exact ⟨{ illegal := true, data := 0 }, exec_of_refused h, exec_of_refused h⟩
    | false =>
      refine ⟨{ illegal := false, data := elemAt s sp idx }, exec_bufRead_of_not_refused h, ?_⟩
      refine (exec_bufRead_of_not_refused h).trans ?_
      rw [elemAt_withResp]
      rfl
  | unfSync | extSync | unfMaxsz | decIsvalid | decU32 | cmpLabel | horoCmp =>
    exact ⟨_, rfl, rfl⟩
  | nop | unfPush _ | extPush _ | extReset | decClear | decAppend _ | decRun | cmpClear
  | cmpAppend _ | horoSave | blockReset => cases hread

end Sys2Proof.Machine
end

section
/-! PROOFS. No command and no step of a valid build stops (60_exceptions.md R250, R252). -/

namespace Sys2Proof.Machine

/-- Every command answers, refused or not. -/
theorem exec_answers (i : Instr) (s : State) : ∃ t r, exec i s = .next t ∧ t.resp = some r := by
  cases h : i.refused s.cfg.mode (capacity s.cfg) with
  | true => exact ⟨answeredIllegal s, _, exec_of_refused h, rfl⟩
  | false =>
    obtain ⟨t, d, ht, hresp⟩ := exec_of_not_refused h
    exact ⟨t, _, ht, hresp⟩

/-- Every command word answers, decoded or not. -/
theorem runWord_answers (w : Word) (s : State) :
    ∃ t r, runWord w s = .next t ∧ t.resp = some r := by
  cases hdec : decode w with
  | ok i =>
    rw [runWord_of_ok hdec]
    exact exec_answers i s
  | error e => exact ⟨answeredIllegal s, _, runWord_of_error hdec s, rfl⟩

/-- A step of a valid build goes on, whatever the host does: with a command word it waits for the
event port or runs the word (70_reset_and_hazards.md R284). -/
theorem step_goes_on {s : State} (hc : s.cfg.valid = true) : ∃ t, step s = .next t := by
  rw [step, if_pos hc]
  cases s.host with
  | nil => exact ⟨s, rfl⟩
  | cons action rest =>
    cases action with
    | takeEvent | resetInput => exact ⟨_, rfl⟩
    | issue w =>
      obtain ⟨t, -, ht, -⟩ := runWord_answers w { s with host := rest }
      cases hready : cmdReady s with
      | true => exact ⟨t, ht⟩
      | false => exact ⟨s, rfl⟩

/-- Settles O15: a command answers whether it is refused or not, and a step of a valid build goes on
whatever the host does. -/
theorem noCommandEverStops : Obligations.NoCommandEverStops := by
  unfold Obligations.NoCommandEverStops
  exact ⟨exec_answers, fun _ => step_goes_on⟩

end Sys2Proof.Machine
end

section
/-! PROOFS. Reset and hazards (70_reset_and_hazards.md R280 to R285): the bounds of a build, what
one step does for each action of the host, and the two resets. -/

namespace Sys2Proof

/-- The bounds of a build (R283). -/
theorem Config.valid_iff (c : Config) : c.valid = true ↔
    1 ≤ c.frameMax ∧ c.frameMax ≤ min (2 ^ c.lenW - 1) (2 ^ 20) ∧
    1 ≤ c.dsMax ∧ c.dsMax ≤ min (2 ^ c.lenW - 1) (2 ^ 20) ∧
    1 ≤ c.histDepth ∧ c.histDepth ≤ 2 ^ 20 ∧
    8 ≤ c.lenW ∧ c.lenW ≤ 32 ∧ 1 ≤ c.cntW ∧ c.cntW ≤ 32 := by
  simp only [Config.valid, Bool.and_eq_true, decide_eq_true_eq, and_assoc]

end Sys2Proof

namespace Sys2Proof.Machine

theorem step_of_invalid {s : State} (hc : s.cfg.valid = false) :
    step s = .refused .invalidBuild :=
  if_neg (Bool.eq_false_iff.1 hc)

/-- Settles O16: validity is the conjunction of the five bounds, and a step tests it first. -/
theorem invalidBuildIsRefused : Obligations.InvalidBuildIsRefused := by
  unfold Obligations.InvalidBuildIsRefused
  exact ⟨Config.valid_iff, fun _ => step_of_invalid⟩

/-! The host's actions (R280, R284, R285); `step_of_issue` is that of a word on a drained port. -/

theorem step_of_idle {s : State} (hc : s.cfg.valid = true) (hhost : s.host = []) :
    step s = .next s := by
  rw [step, if_pos hc, hhost]

/-- Taking an event leaves the rest of the port (R285). -/
theorem step_of_takeEvent {s : State} {es : List Event} {rest : List HostAction}
    (hc : s.cfg.valid = true) (hport : s.evPort.tail = es) (hhost : s.host = .takeEvent :: rest) :
    step s = .next { s with evPort := es, host := rest } := by
  rw [step, if_pos hc, hhost, ← hport]
  rfl

theorem step_of_resetInput {s : State} {rest : List HostAction} (hc : s.cfg.valid = true)
    (hhost : s.host = .resetInput :: rest) :
    step s = .next (resetInput { s with host := rest }) := by
  rw [step, if_pos hc, hhost]

/-- An offered word waits while an event stands on the port (R284, R285). -/
theorem step_of_issue_of_pending {s : State} {w : Word} {e : Event} {es : List Event}
    {rest : List HostAction} (hc : s.cfg.valid = true) (hport : s.evPort = e :: es)
    (hhost : s.host = .issue w :: rest) : step s = .next s := by
  have hready : cmdReady s = false := by rw [cmdReady, hport, List.isEmpty_cons]
  rw [step, if_pos hc, hhost]
  exact if_neg (Bool.eq_false_iff.1 hready)

/-- Settles O14, by the host's next action; an empty port is its own tail. -/
theorem commandsWaitForTheEventDrain : Obligations.CommandsWaitForTheEventDrain := by
  unfold Obligations.CommandsWaitForTheEventDrain
  intro s rest hc
  refine ⟨fun w e es => step_of_issue_of_pending hc,
    fun e es hport => step_of_takeEvent hc (congrArg List.tail hport),
    fun hport => step_of_takeEvent hc ?_, step_of_idle hc, step_of_resetInput hc⟩
  rw [hport, List.tail_nil]

/-! The two resets (R280, R281). -/

theorem exec_blockReset (s : State) : exec .blockReset s = .next (answered 0 (applyReset s)) := rfl

theorem elemAt_withHost (h : List HostAction) (s : State) (sp : Space) (i : Nat) :
    elemAt { s with host := h } sp i = elemAt s sp i := by
  cases sp <;> rfl

/-- The reset input leaves the elements of `ApplyReset`: only the response differs. -/
theorem elemAt_resetInput (s : State) (sp : Space) (i : Nat) :
    elemAt (resetInput s) sp i = elemAt (applyReset s) sp i :=
  elemAt_withResp none (applyReset s) sp i

/-- Settles O3: both resets are `ApplyReset`, and no element depends on the response port or the
host's script, in which alone they differ. -/
theorem bothResetsAreIndistinguishable : Obligations.BothResetsAreIndistinguishable := by
  unfold Obligations.BothResetsAreIndistinguishable
  intro s rest hc
  refine ⟨answered 0 (applyReset s), resetInput { s with host := rest }, exec_blockReset s,
    step_of_resetInput (s := { s with host := .resetInput :: rest }) hc rfl,
    rfl, rfl, rfl, rfl, rfl, rfl, fun sp i => ?_, rfl, rfl⟩
  calc elemAt (answered 0 (applyReset s)) sp i
    _ = elemAt (applyReset s) sp i := elemAt_withResp _ _ sp i
    _ = elemAt (applyReset { s with host := rest }) sp i := (elemAt_withHost rest _ sp i).symm
    _ = elemAt (resetInput { s with host := rest }) sp i := (elemAt_resetInput _ sp i).symm

/-! The reset values and the queries on them (R280). -/

/-- The value span after a reset is empty, and an empty span spells no number (42_decoder.md
R190). -/
theorem toU32_valueBytes_applyReset (s : State) :
    toU32 (valueBytes (applyReset s)) = Wire.u32Error :=
  if_pos rfl

/-- After a reset the label and the candidate are both empty, and the overflow flag is clear
(42_decoder.md R197). -/
theorem labelEquals_applyReset (s : State) : labelEquals (applyReset s) = true :=
  (labelEquals_iff _).2 ⟨rfl, rfl, fun i hi => absurd hi (Nat.not_lt_zero i)⟩

/-- The horodate of `RES` and `REF` are the same value after a reset (10_state.md R35, R37). -/
theorem horoCompare_applyReset (s : State) :
    horoCompare (applyReset s).res.horo (applyReset s).ref = .eq :=
  (horoCompare_eq_iff _ _).2 rfl

/-- What the queries answer after a reset, each from its own rule. -/
theorem exec_queries_applyReset (s : State) :
    let t := applyReset s
    exec .unfSync t = .next (answered 0 t) ∧ exec .extSync t = .next (answered 0 t) ∧
    exec .unfMaxsz t = .next (answered 0 t) ∧ exec .decIsvalid t = .next (answered 0 t) ∧
    exec .horoCmp t = .next (answered 0 t) ∧ exec .decU32 t = .next (answered 0xFFFFFFFF t) ∧
    exec .cmpLabel t = .next (answered 1 t) := by
  intro t
  refine ⟨rfl, rfl, ?_, rfl, exec_horoCmp (horoCompare_applyReset s), ?_, ?_⟩
  · rw [exec, execUnfMaxsz, maxRecent_of_no_entry rfl]
    rfl
  · rw [exec_decU32, toU32_valueBytes_applyReset]
  · rw [exec_cmpLabel, labelEquals_applyReset]
    rfl

/-- Settles O2: the elements are those of the units' reset values, and each query answers by its own
rule on them. -/
theorem resetLeavesTheSpecValues : Obligations.ResetLeavesTheSpecValues := by
  unfold Obligations.ResetLeavesTheSpecValues
  intro s t
  refine ⟨⟨rfl, rfl, rfl, rfl, rfl, rfl⟩, ⟨rfl, rfl, rfl, rfl⟩, ⟨rfl, rfl⟩, ⟨rfl, rfl⟩,
    ⟨rfl, rfl, rfl, rfl, rfl, rfl, rfl, rfl, rfl, rfl, rfl⟩,
    ⟨rfl, rfl, rfl, rfl, rfl, rfl, rfl, rfl, rfl⟩, rfl, exec_queries_applyReset s⟩

end Sys2Proof.Machine
end
